-- ==== Sys2Proof/Config.lean ====
section
/-! DEFINITION. The parameters the spec gives a value (R4, R5), as configuration fields with these values as defaults (92 D22), and the free
values, as constants nothing can evaluate. AW, which the spec leaves open, is an argument of a step (Inputs.addrWidth). -/

namespace Sys2Proof.Config

/-- The configuration fields (R4, R5). Every definition of the model uses a parameter by its name below. -/
structure Fields where
  /-- PORT_WIDTH (R4): the bits of a port register. -/
  portWidth : Nat := 8
  /-- ROWS_MIN (R4). -/
  rowsMin : Nat := 3
  /-- ROWS_MAX (R4). -/
  rowsMax : Nat := 5
  /-- COLS_MIN (R4). -/
  colsMin : Nat := 3
  /-- DESC_WIDTH (R4): the bits of the descriptor. -/
  descWidth : Nat := 8
  /-- OFF_DIR (R4): the Direction register stands at the port's base address. -/
  offDir : Nat := 0
  /-- OFF_OUT (R4). -/
  offOut : Nat := 1
  /-- OFF_IN (R4). -/
  offIn : Nat := 2
  /-- DEBOUNCE_INTERVAL_US (R4): the one interval the block ever waits. -/
  debounceIntervalUs : Nat := 1000
  /-- DEBOUNCE_MAX_ITER (R4). -/
  debounceMaxIter : Nat := 10
  /-- DEBOUNCE_MATCH_LIMIT (R4): MATCH must exceed it. -/
  debounceMatchLimit : Nat := 2
  /-- COL_SENTINEL (R4): the "no column active" result (90_conflicts C4). -/
  colSentinel : Nat := 5
  /-- OPW (R5): the bits of every operand and of RESULT. -/
  opWidth : Nat := 8
  /-- CMD_WIDTH (R5): the bits of the command word. -/
  cmdWidth : Nat := 20
  deriving DecidableEq, Repr

/-- The configuration of the hardware described: every field at its default. -/
@[simp] abbrev fields : Fields := {}

/-- PORT_WIDTH. -/
@[simp] abbrev portWidth : Nat := fields.portWidth
/-- ROWS_MIN. -/
@[simp] abbrev rowsMin : Nat := fields.rowsMin
/-- ROWS_MAX. -/
@[simp] abbrev rowsMax : Nat := fields.rowsMax
/-- COLS_MIN. -/
@[simp] abbrev colsMin : Nat := fields.colsMin
/-- COLS_MAX(rows) = 8 - rows (R4): what the rows leave of a port. -/
@[simp] abbrev colsMax (rows : Nat) : Nat := portWidth - rows
/-- DESC_WIDTH. -/
@[simp] abbrev descWidth : Nat := fields.descWidth
/-- OFF_DIR. -/
@[simp] abbrev offDir : Nat := fields.offDir
/-- OFF_OUT. -/
@[simp] abbrev offOut : Nat := fields.offOut
/-- OFF_IN. -/
@[simp] abbrev offIn : Nat := fields.offIn
/-- DEBOUNCE_INTERVAL_US. -/
@[simp] abbrev debounceIntervalUs : Nat := fields.debounceIntervalUs
/-- DEBOUNCE_MAX_ITER. -/
@[simp] abbrev debounceMaxIter : Nat := fields.debounceMaxIter
/-- DEBOUNCE_MATCH_LIMIT. -/
@[simp] abbrev debounceMatchLimit : Nat := fields.debounceMatchLimit
/-- COL_SENTINEL. -/
@[simp] abbrev colSentinel : Nat := fields.colSentinel
/-- OPW. -/
@[simp] abbrev opWidth : Nat := fields.opWidth
/-- CMD_WIDTH. -/
@[simp] abbrev cmdWidth : Nat := fields.cmdWidth

/-- The level the environment puts on the pins at the n-th free draw: any value, chosen afresh at each read (R18, 93 U7, U8).
Free value: log entry 4. -/
opaque freeLevels : Nat → BitVec portWidth

/-- The RESULT of ENCODE for a pair that is no legal shape, at the n-th free draw: any value (R70, 92 D23, 93 U1).
Free value: log entry 5. -/
opaque freeDescriptor : Nat → BitVec descWidth

end Sys2Proof.Config
end

