-- ==== Sys2Proof/Word.lean ====
section
/-! DEFINITION. The words of KBSCAN, each as wide as the configuration says: the byte, the operand, the descriptor, the command
word. -/

namespace Sys2Proof

/-- A port register: PORT_WIDTH bits, unsigned, bit 0 the least significant (R7, R12). -/
abbrev Byte := BitVec Config.portWidth

/-- An operand or RESULT: OPW bits, unsigned (R5, R53). -/
abbrev Operand := BitVec Config.opWidth

/-- A keyboard descriptor: DESC_WIDTH bits (R10, R50). -/
abbrev Descriptor := BitVec Config.descWidth

/-- The command word on `cmd_word`: CMD_WIDTH bits (R22, R52). -/
abbrev CmdWord := BitVec Config.cmdWidth

end Sys2Proof
end

