-- ==== Sys2Proof/Syntax.lean ====
section
/-! DEFINITION. The nine operations of KBSCAN (R55), one constructor per row of spec/opcode_table.json. The address operand is not
part of an instruction: it travels beside the word on `cmd_addr` (R22, R52). -/

namespace Sys2Proof

/-- A command as decoded: the operation and its operands (R53, R55). -/
inductive Instr where
  /-- ENCODE rows, cols (R70). -/
  | encode (rows cols : Operand)
  /-- DECODE_ROWS desc (R71). -/
  | decodeRows (desc : Descriptor)
  /-- DECODE_COLS desc (R72). -/
  | decodeCols (desc : Descriptor)
  /-- CONFIGURE @dir_addr, rows, cols (R80). -/
  | configure (rows cols : Operand)
  /-- RESET_ROWS @out_addr, desc (R90). -/
  | resetRows (desc : Descriptor)
  /-- ASSERT_ROW_LOW @out_addr, row_index (R91). -/
  | assertRowLow (rowIndex : Operand)
  /-- READ_COLUMNS @in_addr, desc (R100). -/
  | readColumns (desc : Descriptor)
  /-- READ_COLUMNS_DEBOUNCED @in_addr, desc (R102). -/
  | readColumnsDebounced (desc : Descriptor)
  /-- SCAN @base, desc (R120). -/
  | scan (desc : Descriptor)
  deriving DecidableEq, Repr

/-- The three registers of a port (R12). -/
inductive PortReg where
  | direction
  | output
  | input
  deriving DecidableEq, Repr

/-- The two registers of a port that are stored and that the block writes (R13, R14, R32). IN is not among them, so a write to IN
(93 U9) cannot be expressed. -/
inductive StoredReg where
  | dir
  | out
  deriving DecidableEq, Repr

end Sys2Proof
end

