-- ==== Sys2Proof/Decode.lean ====
section
/-! DEFINITION. The command word's fields, the decoder (R56), total on all 2^20 words, and the encoder from the same table (R52, R55). -/

namespace Sys2Proof

/-- `w[19:16]` (R52). -/
def fieldOp (w : CmdWord) : BitVec 4 := w.extractLsb' 16 4
/-- `w[15:8]` (R52). -/
def fieldB (w : CmdWord) : Operand := w.extractLsb' 8 8
/-- `w[7:0]` (R52). -/
def fieldA (w : CmdWord) : Operand := w.extractLsb' 0 8

/-- What the decoder answers: an operation, or why the word is reserved (R56, R57). -/
inductive Decoded where
  | instr (i : Instr)
  /-- The opcode is 9 to 15. -/
  | reservedOpcode
  /-- A one-operand operation with b not 0. -/
  | reservedOperand
  deriving DecidableEq, Repr

/-- An operation whose b field must be 0 (R52, R56). -/
def oneOperand (b : Operand) (i : Instr) : Decoded :=
  if b = 0#8 then .instr i else .reservedOperand

/-- The decoder of R56. -/
def decodeWord (w : CmdWord) : Decoded :=
  match (fieldOp w).toNat with
  | 0 => .instr (.encode (fieldA w) (fieldB w))
  | 1 => oneOperand (fieldB w) (.decodeRows (fieldA w))
  | 2 => oneOperand (fieldB w) (.decodeCols (fieldA w))
  | 3 => .instr (.configure (fieldA w) (fieldB w))
  | 4 => oneOperand (fieldB w) (.resetRows (fieldA w))
  | 5 => oneOperand (fieldB w) (.assertRowLow (fieldA w))
  | 6 => oneOperand (fieldB w) (.readColumns (fieldA w))
  | 7 => oneOperand (fieldB w) (.readColumnsDebounced (fieldA w))
  | 8 => oneOperand (fieldB w) (.scan (fieldA w))
  | _ => .reservedOpcode

/-- The opcode of an operation (R55). -/
def Instr.op : Instr → BitVec 4
  | .encode _ _ => 0#4
  | .decodeRows _ => 1#4
  | .decodeCols _ => 2#4
  | .configure _ _ => 3#4
  | .resetRows _ => 4#4
  | .assertRowLow _ => 5#4
  | .readColumns _ => 6#4
  | .readColumnsDebounced _ => 7#4
  | .scan _ => 8#4

/-- The first operand, field a (R52, R55). -/
def Instr.a : Instr → Operand
  | .encode rows _ => rows
  | .decodeRows desc => desc
  | .decodeCols desc => desc
  | .configure rows _ => rows
  | .resetRows desc => desc
  | .assertRowLow rowIndex => rowIndex
  | .readColumns desc => desc
  | .readColumnsDebounced desc => desc
  | .scan desc => desc

/-- The second operand, field b: cols for ENCODE and CONFIGURE, 0 for every other operation (R52, R55). -/
def Instr.b : Instr → Operand
  | .encode _ cols => cols
  | .decodeRows _ => 0#8
  | .decodeCols _ => 0#8
  | .configure _ cols => cols
  | .resetRows _ => 0#8
  | .assertRowLow _ => 0#8
  | .readColumns _ => 0#8
  | .readColumnsDebounced _ => 0#8
  | .scan _ => 0#8

/-- A command word from its three fields, `oooobbbbbbbbaaaaaaaa` (R52). -/
def wordOf (op : BitVec 4) (b a : Operand) : CmdWord := op ++ b ++ a

/-- The encoder (R52, R55). -/
def encode (i : Instr) : CmdWord := wordOf i.op i.b i.a

/-- The instruction the decoder reads from a table row's word: `nbits` bits of `w`, every bit above them 0. A word that does not fit the
20 bits of `cmd_word` is no command word. -/
def decodeTableWord (nbits w : Nat) : Option Instr :=
  let v := w % 2 ^ nbits
  if v < 2 ^ Config.cmdWidth then
    match decodeWord (BitVec.ofNat Config.cmdWidth v) with
    | .instr i => some i
    | .reservedOpcode => none
    | .reservedOperand => none
  else none

end Sys2Proof
end

