-- ==== Sys2Proof/Machine/State.lean ====
section
/-! DEFINITION. The state of the machine as plain data: the block's registers (R19 to R21), the platform's port registers (R12 to R14), the
inputs a step reads (R18, R22, R26, R27), and the model's own bookkeeping. With it: the reasons a step stops, and the state after reset. -/

namespace Sys2Proof.Machine

/-- Why the machine stops with a fault. -/
inductive Fault where
  /-- Raised by READ_COLUMNS_DEBOUNCED and SCAN run as one whole command while the delay collaborator never answers: the operation does not
  complete (R139, 93 U12 "stuck"). Safe: the machine stops where the hardware would hang. -/
  | waitNeverEnds
  deriving DecidableEq, Repr

/-- Why the machine gives a command no meaning. -/
inductive Refusal where
  /-- An instruction without a meaning yet, rejected by name in exec's arm. Safe. -/
  | notModelled (mnemonic : String)
  /-- Raised by a step on a command word with opcode 9 to 15 (R57, 93 U6). Safe. -/
  | reservedOpcode
  /-- Raised by a step on a one-operand command word with b not 0 (R57, 93 U6). Safe. -/
  | reservedOperand
  /-- Raised by CONFIGURE when (rows, cols) is no legal shape (R80, 93 U3). Safe. -/
  | illegalShape
  /-- Raised by RESET_ROWS, READ_COLUMNS, READ_COLUMNS_DEBOUNCED and SCAN on a malformed descriptor (93 U2). Safe. -/
  | malformedDescriptor
  /-- Raised by ASSERT_ROW_LOW when row_index is 8 or more (R91, 93 U4). Safe. -/
  | noSuchRowBit
  /-- Raised by an operation with an address operand when the addresses of R35 pass 2^AW - 1 (R35, 92 D21, 93 U10). Safe. -/
  | outsideAddressSpace
  /-- Raised by an operation whose address operand is not the register R35 lists for it, at any port of the platform (93 U16). Safe. -/
  | wrongRegister
  /-- Raised by a step in a state no run reaches: BUSY set, with a PHASE that is no position of the latched operation's pseudocode (R20). Safe. -/
  | unreachablePhase
  deriving DecidableEq, Repr

/-- One half of a `PortSetBit` or `PortClearBit` (R33, R34): the read for index `i`, or the write after a read that gave `t`. -/
inductive Half where
  | rd (i : Nat)
  | wr (i : Nat) (t : Byte)
  deriving DecidableEq, Repr

/-- PHASE (R20): IDLE, or the position in the latched operation's pseudocode, that is, the event the next step makes. Its encoding is not
architectural; the debounce and scan phases are those of R104 and R121. -/
inductive Phase where
  /-- No operation runs. -/
  | idle
  /-- ENCODE, DECODE_ROWS, DECODE_COLS: the `return` is next (R70, R71, R72). -/
  | codec
  /-- CONFIGURE step 1 (R80). -/
  | cfgDirRow (h : Half)
  /-- CONFIGURE step 2 (R80). -/
  | cfgDirCol (h : Half)
  /-- CONFIGURE step 3 (R80). -/
  | cfgOutCol (h : Half)
  /-- RESET_ROWS's loop (R90). -/
  | resetRow (h : Half)
  /-- ASSERT_ROW_LOW's bit operation (R91). -/
  | assertRow (h : Half)
  /-- READ_COLUMNS's one read (R100). -/
  | readColumns
  /-- DB_FIRST (R104). -/
  | dbFirst
  /-- DB_WAIT (R104). -/
  | dbWait
  /-- DB_SAMPLE (R104). -/
  | dbSample
  /-- SC_RESET0 (R121). -/
  | scReset0 (h : Half)
  /-- SC_ASSERT (R121). -/
  | scAssert (h : Half)
  /-- SC_RESET (R121). -/
  | scReset (h : Half)
  /-- The `return` of any other operation is next, with its value if it has one (DB_DONE, SC_DONE; R24, R104, R121). -/
  | ret (v : Option Operand)
  deriving DecidableEq, Repr

/-- A primitive event (R20): what crosses the register-port and delay interfaces (R25, R26), and the completion. -/
inductive Event where
  /-- One `PortRead(a)` that returned `v`. -/
  | read (a : Nat) (v : Byte)
  /-- One `PortWrite(a, v)`. -/
  | write (a : Nat) (v : Byte)
  /-- One `Wait(us)`. -/
  | wait (us : Nat)
  /-- The completion `return`, with its value if there is one. -/
  | ret (v : Option Operand)
  deriving DecidableEq, Repr

/-- A command the host offers: `cmd_word` and the address meant for `cmd_addr` (R22). -/
structure Offer where
  word : CmdWord
  addr : Nat
  deriving DecidableEq, Repr

/-- The environment behind the input pins (R18). The platform has one, whichever port is read (DESIGN CHOICE, log entry 20). -/
inductive Env where
  /-- The base contract: every level is a free value at every read. -/
  | free
  /-- The levels at the coming reads of IN, the next one first; free values once the list is used up. -/
  | script (levels : List Byte)
  /-- The reference environment `IdealMatrix(P)` for a keyboard of the shape `desc` says. -/
  | idealMatrix (desc : Descriptor) (pressed : List (Nat × Nat))
  deriving DecidableEq, Repr

/-- How much one step does (log entry 2). -/
inductive Pace where
  /-- A step that finds the block IDLE and a command offered runs the whole operation, from acceptance to completion. -/
  | wholeCommand
  /-- A step is the acceptance of a command, or one primitive event (R20, R23). -/
  | oneEvent
  deriving DecidableEq, Repr

/-- What the machine holds: the block's registers (R19, R20, R21) and the stored registers of the platform's ports (R13, R14). Nothing that R29
keeps out of the machine is in it: no level of a pin, no pressed key, no parameter, no time, no port's identity but the latched operand. -/
structure Hardware where
  phase : Phase
  busy : Bool
  done : Bool
  result : Operand
  cmdOp : BitVec 4
  /-- CMD_ADDR, AW bits: below 2^AW, since acceptance latches no more (R19; `State.inv`). -/
  cmdAddr : Nat
  cmdA : Operand
  cmdB : Operand
  row : BitVec 3
  col : BitVec 3
  sample : Byte
  cand : BitVec 3
  matchCount : BitVec 2
  iter : BitVec 4
  /-- DIR and OUT of each port, by address. -/
  mem : List Host.Cell
  deriving DecidableEq, Repr

/-- What a step is given and does not own (R22, R26, R27, R29): `step` takes no argument, so its inputs stand beside the machine
(log entry 4). No step changes them but by using them up. -/
structure Inputs where
  /-- AW, the width in bits of a port register address: a parameter, open (R5, 92 D21; log entry 1). -/
  addrWidth : Nat
  /-- The bases of the platform's ports, a parameter (R12, R30). -/
  ports : List Nat
  /-- The host's commands, the one on the interface first (R22). -/
  offers : List Offer
  rst : Bool
  waitDone : Bool
  /-- What answers the reads of IN (R18). -/
  env : Env
  deriving DecidableEq, Repr

/-- The model's own bookkeeping. A step reads the count of free draws and the pace only. -/
structure Bookkeeping where
  /-- RESULT has been written since reset (93 U11). -/
  resultHeld : Bool
  /-- The free draws made. -/
  draw : Nat
  /-- The events so far, newest first. -/
  history : List Event
  pace : Pace
  deriving DecidableEq, Repr

/-- A state of a run: the machine, the inputs of its coming steps, and the bookkeeping. -/
structure State extends Hardware, Inputs, Bookkeeping
  deriving DecidableEq, Repr

/-- The machine right after reset (R28, R150): PHASE = IDLE, BUSY = 0, DONE = 0. The other registers of the block hold 0
(DESIGN CHOICE, log entry 6); the platform has addresses of 8 bits (DESIGN CHOICE, log entry 1) and one port, at the example base 0x24,
with DIR and OUT as unlisted bytes read (DESIGN CHOICE, log entries 3 and 7); no command is offered, `rst` is deasserted, the delay
collaborator answers, the pins are free. -/
def State.reset : State where
  phase := .idle
  busy := false
  done := false
  result := 0#8
  cmdOp := 0#4
  cmdAddr := 0
  cmdA := 0#8
  cmdB := 0#8
  row := 0#3
  col := 0#3
  sample := 0#8
  cand := 0#3
  matchCount := 0#2
  iter := 0#4
  addrWidth := 8
  ports := [0x24]
  mem := []
  offers := []
  rst := false
  waitDone := true
  env := .free
  resultHeld := false
  draw := 0
  history := []
  pace := .wholeCommand

/-- The three outcomes of running something on this machine. -/
abbrev Answer := Host.Outcome State Fault Refusal

end Sys2Proof.Machine
end

