-- ==== Sys2Proof/Machine/Flags.lean ====
section
/-! DEFINITION. BUSY and DONE, the block's only flags (R21), and what the host sees on the command and delay interfaces. -/

namespace Sys2Proof.Machine

/-- The flags on acceptance: BUSY <- 1, DONE <- 0 (R21, R23). -/
def State.flagsAccepted (s : State) : State := { s with busy := true, done := false }

/-- The flags on completion: DONE <- 1, BUSY <- 0 (R21, R24). -/
def State.flagsCompleted (s : State) : State := { s with busy := false, done := true }

/-- `wait_req` (R26): the block waits on the delay collaborator. -/
def State.waitReq (s : State) : Bool := s.busy && s.phase == .dbWait

/-- An operation that returns a value (R55): all but RESET_ROWS and ASSERT_ROW_LOW. -/
def returnsValue (op : BitVec 4) : Bool := op != 4#4 && op != 5#4

/-- RESULT is valid for the host (R21): DONE = 1, BUSY = 0, and the completed operation returns a value. -/
def State.resultValid (s : State) : Bool := s.done && !s.busy && returnsValue s.cmdOp

/-- What a host's read of RESULT gives. -/
inductive HostRead where
  | value (v : Operand)
  /-- The read is a fault: "a model makes reading it before then a fault, not a zero" (R28). It is an error of the host (93, the treatment `fault`
  of U11), not a stop of the machine, which raises nothing (R130) and goes on. Safe: no value is made up. -/
  | fault
  deriving DecidableEq, Repr

/-- A host's read of the `result` output (R22, R138): a fault when nothing has been returned since reset (R28, 93 U11). -/
def State.readResult (s : State) : HostRead :=
  if s.resultHeld then .value s.result else .fault

end Sys2Proof.Machine
end

