-- ==== Sys2Proof/Machine/Operands.lean ====
section
/-! DEFINITION. The pure operand forms: the descriptor's fields and masks, the legal shapes, the column priority encoder, the key
index, the address of each register and which register an operation's address operand names. -/

namespace Sys2Proof.Machine

/-- `1 << n` as an 8-bit value (R7). -/
def bit (n : Nat) : Byte := 1#8 <<< n

/-- DECODE_ROWS's mask: bits 2 to 0 (R50, R53, R71). -/
def rowsField (desc : Descriptor) : Operand := desc &&& 0x07#8

/-- DECODE_COLS's mask, then its shift: bits 6 to 4 (R50, R53, R72). -/
def colsField (desc : Descriptor) : Operand := (desc &&& 0x70#8) >>> 4

/-- rows(desc) as a count (R9, R71). -/
def rowsOf (desc : Descriptor) : Nat := (rowsField desc).toNat

/-- cols(desc) as a count (R9, R72). -/
def colsOf (desc : Descriptor) : Nat := (colsField desc).toNat

/-- `(cols << 4) | rows` on 8-bit values (R70). -/
def packDescriptor (rows cols : Operand) : Descriptor := (cols <<< 4) ||| rows

/-- A legal shape (R6). -/
def legalShape (rows cols : Nat) : Bool :=
  Config.rowsMin.ble rows && rows.ble Config.rowsMax && Config.colsMin.ble cols && cols.ble (Config.colsMax rows)

/-- WF(desc): reserved bits 3 and 7 zero, and the pair it decodes to a legal shape (R6, R50, R51). -/
def wfDescriptor (desc : Descriptor) : Bool :=
  desc &&& 0x88#8 == 0#8 && legalShape (rowsOf desc) (colsOf desc)

/-- The bits of the rows, `(1 << rows) - 1` (R51). -/
def rowMask (rows : Nat) : Byte := (1#8 <<< rows) - 1#8

/-- The bits of the columns, `((1 << cols) - 1) << rows` (R51). -/
def colMask (rows cols : Nat) : Byte := ((1#8 <<< cols) - 1#8) <<< rows

/-- The least column whose bit reads low, if there is one (R100, ColEnc's loop). -/
def activeColumn (v : Byte) (desc : Descriptor) : Option Nat :=
  (List.range (colsOf desc)).find? fun j => !v.getLsbD (rowsOf desc + j)

/-- ColEnc(v, desc): the least active column, or COL_SENTINEL (R100, R101); three bits, as CAND (R19). -/
def colEnc (v : Byte) (desc : Descriptor) : BitVec 3 :=
  BitVec.ofNat 3 ((activeColumn v desc).getD Config.colSentinel)

/-- What the encoder's loop index COL holds afterwards: the column found, or the last one tested.
DESIGN CHOICE, log entry 9: no rule says, and nothing reads it (R24). -/
def colLeft (v : Byte) (desc : Descriptor) : BitVec 3 :=
  BitVec.ofNat 3 ((activeColumn v desc).getD (colsOf desc - 1))

/-- ROW * cols + c (R120 step 2c, R126). -/
def keyIndex (desc : Descriptor) (row : Nat) (c : Nat) : Operand := BitVec.ofNat Config.opWidth (row * colsOf desc + c)

/-- KEY_SENTINEL(desc) = rows * cols (R4, R123; 90_conflicts C1). -/
def keySentinel (desc : Descriptor) : Operand := BitVec.ofNat Config.opWidth (rowsOf desc * colsOf desc)

/-- The offset of a register from the port's base (R4, R12). -/
def regOffset : PortReg → Nat
  | .direction => Config.offDir
  | .output => Config.offOut
  | .input => Config.offIn

/-- The address of a stored register of the port at `base` (R12). -/
def storedAddr (base : Nat) : StoredReg → Nat
  | .dir => base + Config.offDir
  | .out => base + Config.offOut

/-- The address of IN of the port at `base` (R12). -/
def inAddr (base : Nat) : Nat := base + Config.offIn

/-- Which register the address operand of an operation names (R22, R35); none where it is ignored. -/
def addressed : Instr → Option PortReg
  | .encode _ _ => none
  | .decodeRows _ => none
  | .decodeCols _ => none
  | .configure _ _ => some .direction
  | .resetRows _ => some .output
  | .assertRowLow _ => some .output
  | .readColumns _ => some .input
  | .readColumnsDebounced _ => some .input
  | .scan _ => some .direction

/-- The base of the port a command is for, from its address operand (R35): the operand less the register's offset. -/
def portBase (i : Instr) (addr : Nat) : Nat :=
  match addressed i with
  | some k => addr - regOffset k
  | none => addr

/-- An address of the register space: below 2^AW (R30). -/
def inSpace (aw a : Nat) : Bool := a.blt (2 ^ aw)

/-- The greatest address a command with this operand form must keep inside the space: base + 2 where the operand is the base,
the operand itself otherwise (R35, 92 D21). -/
def highestAddr (k : PortReg) (addr : Nat) : Nat :=
  match k with
  | .direction => addr + Config.offIn
  | .output => addr
  | .input => addr

/-- IN's view: driven pins read back OUT, input pins read the environment's level (R15). -/
def inView (dir out levels : Byte) : Byte := (out &&& dir) ||| (levels &&& ~~~dir)

/-- The level `IdealMatrix(P)` puts on pin n (R18): a column pin reads 0 when a pressed key joins it to a row that is an output
driven low, and 1 otherwise; pins that are no columns read 1. -/
def idealHigh (desc : Descriptor) (pressed : List (Nat × Nat)) (dir out : Byte) (n : Nat) : Bool :=
  if rowsOf desc ≤ n ∧ n < rowsOf desc + colsOf desc then
    !(pressed.any fun k => k.2 == n - rowsOf desc && dir.getLsbD k.1 && !out.getLsbD k.1)
  else true

/-- The byte of levels of the reference environment `IdealMatrix(P)` (R18). -/
def idealLevels (desc : Descriptor) (pressed : List (Nat × Nat)) (dir out : Byte) : Byte :=
  (List.range Config.portWidth).foldl
    (fun acc n => if idealHigh desc pressed dir out n then acc ||| bit n else acc) 0#8

end Sys2Proof.Machine
end

