-- ==== Sys2Proof/WellFormed.lean ====
section
/-! DEFINITION. Which instructions have operands inside the domain the spec gives them (R6, R161). Every instruction can be encoded;
this says for which operands its rule has a meaning. -/

namespace Sys2Proof

open Sys2Proof.Machine

/-- Operands inside the domain (R70, R71, R72, R80, R90, R91, R100, R102, R120). For ASSERT_ROW_LOW it is `row_index <= 7`, where R91
writes its pseudocode. -/
def Instr.wellFormed : Instr → Bool
  | .encode rows cols => legalShape rows.toNat cols.toNat
  | .decodeRows _ => true
  | .decodeCols _ => true
  | .configure rows cols => legalShape rows.toNat cols.toNat
  | .resetRows desc => wfDescriptor desc
  | .assertRowLow rowIndex => rowIndex.toNat.blt Config.portWidth
  | .readColumns desc => wfDescriptor desc
  | .readColumnsDebounced desc => wfDescriptor desc
  | .scan desc => wfDescriptor desc

end Sys2Proof
end

