-- ==== Sys2Proof/Machine/Ops.lean ====
section
/-! DEFINITION. The named operations every meaning is written over: memory, the port primitives, the environment, Wait, and the
acceptance, completion and reset of the block. The block takes no exception and returns from none (R130, R134, R135), so no operation here
does. -/

namespace Sys2Proof.Machine

/-- What an address no write has listed reads as. DESIGN CHOICE, log entry 7: the platform's reset value of DIR and OUT is unknown (R28). -/
def Memory.unlisted : Byte := 0#8

/-- The byte at an address. -/
def Memory.get : List Host.Cell → Nat → Byte
  | [], _ => Memory.unlisted
  | (b, w) :: m, a => if a = b then w else Memory.get m a

/-- A cell put in front of a memory whose addresses are all above it; none if the address reads so anyway. -/
def Memory.push (a : Nat) (v : Byte) (m : List Host.Cell) : List Host.Cell :=
  if v = Memory.unlisted then m else (a, v) :: m

/-- A one-byte write that keeps the canonical form. -/
def Memory.set : List Host.Cell → Nat → Byte → List Host.Cell
  | [], a, v => Memory.push a v []
  | (b, w) :: m, a, v =>
    if a < b then Memory.push a v ((b, w) :: m)
    else if a = b then Memory.push a v m
    else (b, w) :: Memory.set m a v

/-- The canonical form: addresses strictly rising from `lo`, and no entry equal to what an unlisted address reads as. -/
def Memory.wfFrom : Nat → List Host.Cell → Bool
  | _, [] => true
  | lo, (b, w) :: m => decide (lo ≤ b) && decide (w ≠ Memory.unlisted) && Memory.wfFrom (b + 1) m

/-- The canonical form. -/
def Memory.wf (m : List Host.Cell) : Bool := Memory.wfFrom 0 m

/-- DIR of the port at `base` (R13). -/
def State.dir (s : State) (base : Nat) : Byte := Memory.get s.mem (storedAddr base .dir)

/-- OUT of the port at `base` (R14). -/
def State.out (s : State) (base : Nat) : Byte := Memory.get s.mem (storedAddr base .out)

/-- One event is added to the history. -/
def State.record (e : Event) (s : State) : State := { s with history := e :: s.history }

/-- `PortRead` of DIR or OUT (R31): the stored byte; no side effect but the event. -/
def portRead (base : Nat) (k : StoredReg) (s : State) : Byte × State :=
  let v := Memory.get s.mem (storedAddr base k)
  (v, s.record (.read (storedAddr base k) v))

/-- `PortWrite` (R32). -/
def portWrite (base : Nat) (k : StoredReg) (v : Byte) (s : State) : State :=
  { s with
    mem := Memory.set s.mem (storedAddr base k) v
    history := .write (storedAddr base k) v :: s.history }

/-- The levels the environment puts on the pins at a read of IN, and the environment after it (R18). It takes no base: DESIGN CHOICE, log entry 20,
the platform has one environment, which answers a read of IN at whatever port is read. -/
def Env.next (env : Env) (draw : Nat) (dir out : Byte) : Byte × Env × Nat :=
  match env with
  | .free => (Config.freeLevels draw, .free, draw + 1)
  | .script [] => (Config.freeLevels draw, .script [], draw + 1)
  | .script (l :: ls) => (l, .script ls, draw)
  | .idealMatrix desc pressed => (idealLevels desc pressed dir out, .idealMatrix desc pressed, draw)

/-- `PortRead` of IN (R15, R31): the view of the pins at this moment, the input pins' levels drawn from the environment. -/
def portReadIn (base : Nat) (s : State) : Byte × State :=
  let d := s.env.next s.draw (s.dir base) (s.out base)
  let v := inView (s.dir base) (s.out base) d.1
  (v, { s with env := d.2.1, draw := d.2.2, history := .read (inAddr base) v :: s.history })

/-- `PortSetBit` (R33): a read, then a write of the value read with bit n set. -/
def portSetBit (base : Nat) (k : StoredReg) (n : Nat) (s : State) : State :=
  let r := portRead base k s
  portWrite base k (r.1 ||| bit n) r.2

/-- `PortClearBit` (R34): a read, then a write of the value read with bit n cleared. -/
def portClearBit (base : Nat) (k : StoredReg) (n : Nat) (s : State) : State :=
  let r := portRead base k s
  portWrite base k (r.1 &&& ~~~bit n) r.2

/-- `Wait(DEBOUNCE_INTERVAL_US)` (R9, R139): an event that changes no other state. -/
def wait (s : State) : State := s.record (.wait Config.debounceIntervalUs)

/-- ROW <- i. -/
def State.setRow (i : Nat) (s : State) : State := { s with row := BitVec.ofNat 3 i }

/-- COL <- j. -/
def State.setCol (j : Nat) (s : State) : State := { s with col := BitVec.ofNat 3 j }

/-- PHASE <- p. -/
def State.setPhase (p : Phase) (s : State) : State := { s with phase := p }

/-- `for i in [0, n)` (R7). -/
def forEach (n : Nat) (body : Nat → State → State) (s : State) : State :=
  (List.range n).foldl (fun s i => body i s) s

/-- The address the host offers beside the word (R22); 0 when no command is offered, where no step reads it. -/
def State.offeredAddr (s : State) : Nat :=
  match s.offers with
  | [] => 0
  | o :: _ => o.addr

/-- The first position of an operation's pseudocode (R23). -/
def firstPhase : Instr → Phase
  | .encode _ _ => .codec
  | .decodeRows _ => .codec
  | .decodeCols _ => .codec
  | .configure _ _ => .cfgDirRow (.rd 0)
  | .resetRows _ => .resetRow (.rd 0)
  | .assertRowLow rowIndex => .assertRow (.rd rowIndex.toNat)
  | .readColumns _ => .readColumns
  | .readColumnsDebounced _ => .dbFirst
  | .scan _ => .scReset0 (.rd 0)

/-- Acceptance (R23): the operands are latched, of the address the AW bits that `cmd_addr` carries (R22), BUSY <- 1, DONE <- 0,
PHASE <- the first position. The host takes the accepted command off the interface and offers its next one (log entry 8). -/
def accept (i : Instr) (s : State) : State :=
  { s.flagsAccepted with
    cmdOp := i.op, cmdB := i.b, cmdA := i.a, cmdAddr := s.offeredAddr % 2 ^ s.addrWidth
    phase := firstPhase i, offers := s.offers.tail }

/-- Completion (R24): RESULT <- the value if there is one, DONE <- 1, BUSY <- 0, PHASE <- IDLE. -/
def complete (v : Option Operand) (s : State) : State :=
  { s.flagsCompleted with
    result := v.getD s.result
    resultHeld := s.resultHeld || v.isSome
    phase := .idle
    history := .ret v :: s.history }

/-- `rst` (R28, R150, R151): the block's registers take their reset values; the platform, the inputs and the model's bookkeeping stay.
RESULT holds no value afterwards. -/
def blockReset (s : State) : State :=
  { s with
    phase := .idle, busy := false, done := false
    result := State.reset.result, resultHeld := false
    cmdOp := State.reset.cmdOp, cmdAddr := State.reset.cmdAddr, cmdA := State.reset.cmdA, cmdB := State.reset.cmdB
    row := State.reset.row, col := State.reset.col, sample := State.reset.sample
    cand := State.reset.cand, matchCount := State.reset.matchCount, iter := State.reset.iter }

/-- Why an address operand names no register of the expected kind, if it does not (R35, 92 D21, 93 U10, U16). -/
def addressRefusal (k : PortReg) (addr aw : Nat) (ports : List Nat) : Option Refusal :=
  if !inSpace aw (highestAddr k addr) then some .outsideAddressSpace
  else if (regOffset k).ble addr && ports.contains (addr - regOffset k) then none
  else some .wrongRegister

/-- Why the byte operands are outside the domain in which an operation has a meaning, if they are (93 U2, U3, U4). ENCODE has an effect on every
pair (93 U1). -/
def operandRefusal (i : Instr) : Option Refusal :=
  if i.wellFormed then none
  else match i with
    | .encode _ _ => none
    | .decodeRows _ => none
    | .decodeCols _ => none
    | .configure _ _ => some .illegalShape
    | .resetRows _ => some .malformedDescriptor
    | .assertRowLow _ => some .noSuchRowBit
    | .readColumns _ => some .malformedDescriptor
    | .readColumnsDebounced _ => some .malformedDescriptor
    | .scan _ => some .malformedDescriptor

/-- Why a command is outside the domain the spec gives a meaning, if it is (R161). -/
def domainRefusal (i : Instr) (addr aw : Nat) (ports : List Nat) : Option Refusal :=
  match operandRefusal i with
  | some r => some r
  | none =>
    match addressed i with
    | none => none
    | some k => addressRefusal k addr aw ports

/-- A command offered at `cmd_addr`: not accepted while BUSY = 1, with no effect (R23, 93 U14); refused outside its domain; otherwise accepted
and run by `body`. -/
def runCommand (i : Instr) (s : State) (body : State → Answer) : Answer :=
  if s.busy then .next s
  else match domainRefusal i s.offeredAddr s.addrWidth s.ports with
    | some r => .refused r
    | none => body (accept i s)

/-- An operation that waits completes only if every wait ends (R139, 93 U12). -/
def ifWaitsEnd (s : State) (after : State) : Answer :=
  if s.waitDone then .next after else .fault .waitNeverEnds

end Sys2Proof.Machine
end

