-- ==== Sys2Proof/Machine/Codec.lean ====
section
/-! DEFINITION. The descriptor codec: ENCODE, DECODE_ROWS, DECODE_COLS (R70 to R74). -/

namespace Sys2Proof.Machine

/-- ENCODE's value (R70): the descriptor of a legal shape; for any other pair a free draw of a byte (93 U1). -/
def encodeValue (rows cols : Operand) (draw : Nat) : Descriptor :=
  if legalShape rows.toNat cols.toNat then packDescriptor rows cols else Config.freeDescriptor draw

/-- A free draw is used up when ENCODE is outside its domain. -/
def encodeDraw (rows cols : Operand) (s : State) : State :=
  if legalShape rows.toNat cols.toNat then s else { s with draw := s.draw + 1 }

/-- The `return` of ENCODE (R70). -/
def encodeReturn (rows cols : Operand) (s : State) : State :=
  complete (some (encodeValue rows cols s.draw)) (encodeDraw rows cols s)

/-- ENCODE (R70). -/
def execEncode (rows cols : Operand) (s : State) : Answer :=
  runCommand (.encode rows cols) s fun s => .next (encodeReturn rows cols s)

/-- DECODE_ROWS (R71): total, by masking. -/
def execDecodeRows (desc : Descriptor) (s : State) : Answer :=
  runCommand (.decodeRows desc) s fun s => .next (complete (some (rowsField desc)) s)

/-- DECODE_COLS (R72): total, the mask before the shift. -/
def execDecodeCols (desc : Descriptor) (s : State) : Answer :=
  runCommand (.decodeCols desc) s fun s => .next (complete (some (colsField desc)) s)

end Sys2Proof.Machine
end

