-- ==== Sys2Proof/Machine/ColumnRead.lean ====
section
/-! DEFINITION. The column input sampler and the debounce state machine: READ_COLUMNS and READ_COLUMNS_DEBOUNCED (R100 to R107). -/

namespace Sys2Proof.Machine

/-- One instantaneous read (R100): SAMPLE <- PortRead of IN, and the priority encoder on that byte. -/
def readSample (base : Nat) (desc : Descriptor) (s : State) : BitVec 3 × State :=
  let r := portReadIn base s
  (colEnc r.1 desc, { r.2 with sample := r.1, col := colLeft r.1 desc })

/-- READ_COLUMNS (R100). -/
def execReadColumns (desc : Descriptor) (s : State) : Answer :=
  runCommand (.readColumns desc) s fun s =>
    let r := readSample (portBase (.readColumns desc) s.cmdAddr) desc s
    .next (complete (some (r.1.setWidth 8)) r.2)

/-- DB_FIRST (R102, R104): the initial sample becomes the candidate. -/
def debounceFirst (base : Nat) (desc : Descriptor) (s : State) : State :=
  let r := readSample base desc s
  { r.2 with cand := r.1, matchCount := 0#2, iter := 0#4 }

/-- DB_WAIT (R102, R104). -/
def debounceWait (s : State) : State := wait { s with iter := s.iter + 1#4 }

/-- The match counter after a sample `c` (R102, R104): one more on a match with the candidate, 0 on a mismatch. -/
def nextMatchCount (c cand : BitVec 3) (count : BitVec 2) : BitVec 2 :=
  if c = cand then count + 1#2 else 0#2

/-- DB_SAMPLE (R102, R104): a new sample is compared with the candidate, the match counter counts or starts again, and the sample
becomes the candidate. -/
def debounceSample (base : Nat) (desc : Descriptor) (s : State) : State :=
  let r := readSample base desc s
  { r.2 with
    matchCount := nextMatchCount r.1 s.cand s.matchCount
    cand := r.1 }

/-- The sample just taken confirms its value: MATCH exceeds DEBOUNCE_MATCH_LIMIT (R102). It does so only after a match. -/
def confirmed (s : State) : Bool := Config.debounceMatchLimit.blt s.matchCount.toNat

/-- The iterations that are left (R102): wait, sample, and return the value confirmed, or COL_SENTINEL when none is left. -/
def debounceLoop (base : Nat) (desc : Descriptor) : Nat → State → BitVec 3 × State
  | 0, s => (BitVec.ofNat 3 Config.colSentinel, s)
  | n + 1, s =>
    let t := debounceSample base desc (debounceWait s)
    if confirmed t then (t.cand, t) else debounceLoop base desc n t

/-- The debounced read (R102): its value, and the state after its last event. -/
def debounced (base : Nat) (desc : Descriptor) (s : State) : BitVec 3 × State :=
  debounceLoop base desc Config.debounceMaxIter (debounceFirst base desc s)

/-- READ_COLUMNS_DEBOUNCED (R102). -/
def execReadColumnsDebounced (desc : Descriptor) (s : State) : Answer :=
  runCommand (.readColumnsDebounced desc) s fun s =>
    let r := debounced (portBase (.readColumnsDebounced desc) s.cmdAddr) desc s
    ifWaitsEnd s (complete (some (r.1.setWidth 8)) r.2)

end Sys2Proof.Machine
end

