-- ==== Sys2Proof/Machine/PinConfig.lean ====
section
/-! DEFINITION. Pin configuration: CONFIGURE (R80 to R84). -/

namespace Sys2Proof.Machine

/-- CONFIGURE step 1: the rows become outputs (R80). -/
def configureRows (base rows : Nat) : State → State :=
  forEach rows fun i s => portSetBit base .dir i (s.setRow i)

/-- CONFIGURE step 2: the columns become inputs (R80). -/
def configureCols (base rows cols : Nat) : State → State :=
  forEach cols fun j s => portClearBit base .dir (rows + j) (s.setCol j)

/-- CONFIGURE step 3: the columns' pull-ups are disabled (R80). -/
def configurePulls (base rows cols : Nat) : State → State :=
  forEach cols fun j s => portClearBit base .out (rows + j) (s.setCol j)

/-- CONFIGURE's port accesses, steps 1 to 3 in order (R80). -/
def configurePins (base rows cols : Nat) (s : State) : State :=
  configurePulls base rows cols (configureCols base rows cols (configureRows base rows s))

/-- CONFIGURE (R80). -/
def execConfigure (rows cols : Operand) (s : State) : Answer :=
  runCommand (.configure rows cols) s fun s =>
    .next (complete (some (packDescriptor rows cols))
      (configurePins (portBase (.configure rows cols) s.cmdAddr) rows.toNat cols.toNat s))

end Sys2Proof.Machine
end

