-- ==== Sys2Proof/Machine/RowDrive.lean ====
section
/-! DEFINITION. The row multiplexer: RESET_ROWS and ASSERT_ROW_LOW (R90 to R93). -/

namespace Sys2Proof.Machine

/-- RESET_ROWS's loop (R90): bits 0 to rows - 1 of OUT set, one bit operation each, ROW the loop index. -/
def resetRowsLoop (base rows : Nat) : State → State :=
  forEach rows fun i s => portSetBit base .out i (s.setRow i)

/-- RESET_ROWS (R90). -/
def execResetRows (desc : Descriptor) (s : State) : Answer :=
  runCommand (.resetRows desc) s fun s =>
    .next (complete none (resetRowsLoop (portBase (.resetRows desc) s.cmdAddr) (rowsOf desc) s))

/-- ASSERT_ROW_LOW (R91): bit row_index of OUT cleared, a row's or not (93 U4). -/
def execAssertRowLow (rowIndex : Operand) (s : State) : Answer :=
  runCommand (.assertRowLow rowIndex) s fun s =>
    .next (complete none (portClearBit (portBase (.assertRowLow rowIndex) s.cmdAddr) .out rowIndex.toNat s))

end Sys2Proof.Machine
end

