-- ==== Sys2Proof/Machine/Scan.lean ====
section
/-! DEFINITION. The full scan and the linear key index encoder: SCAN (R120 to R127). -/

namespace Sys2Proof.Machine

/-- `ResetRows` inside SCAN (R120): RESET_ROWS's events, ROW kept for the scan's own row index (log entry 9). -/
def scanResetRows (base rows : Nat) : State → State :=
  forEach rows fun i s => portSetBit base .out i s

/-- `AssertRowLow` inside SCAN (R120), with ROW <- the row. -/
def scanAssertRow (base row : Nat) (s : State) : State :=
  portClearBit base .out row (s.setRow row)

/-- SCAN's loop (R120) with `n` rows left, `row` the next: assert the row, take the debounced read, and return the key index of a valid
column; otherwise reset the rows and go on; KEY_SENTINEL when no row is left. -/
def scanRows (base : Nat) (desc : Descriptor) : Nat → Nat → State → Operand × State
  | 0, _, s => (keySentinel desc, s)
  | n + 1, row, s =>
    let d := debounced base desc (scanAssertRow base row s)
    if d.1.toNat < colsOf desc then (keyIndex desc row d.1.toNat, d.2)
    else scanRows base desc n (row + 1) (scanResetRows base (rowsOf desc) d.2)

/-- SCAN's events (R120). -/
def scanKeys (base : Nat) (desc : Descriptor) (s : State) : Operand × State :=
  scanRows base desc (rowsOf desc) 0 (scanResetRows base (rowsOf desc) s)

/-- SCAN (R120). -/
def execScan (desc : Descriptor) (s : State) : Answer :=
  runCommand (.scan desc) s fun s =>
    let r := scanKeys (portBase (.scan desc) s.cmdAddr) desc s
    ifWaitsEnd s (complete (some r.1) r.2)

end Sys2Proof.Machine
end

