-- ==== Sys2Proof/Machine/Dispatch.lean ====
section
/-! DEFINITION. One arm per operation: the command, offered at the head of `offers`, run to its completion. -/

namespace Sys2Proof.Machine

def exec (i : Instr) (s : State) : Host.Outcome State Fault Refusal :=
  match i with
  | .encode rows cols => Sys2Proof.Machine.execEncode rows cols s
  | .decodeRows desc => Sys2Proof.Machine.execDecodeRows desc s
  | .decodeCols desc => Sys2Proof.Machine.execDecodeCols desc s
  | .configure rows cols => Sys2Proof.Machine.execConfigure rows cols s
  | .resetRows desc => Sys2Proof.Machine.execResetRows desc s
  | .assertRowLow rowIndex => Sys2Proof.Machine.execAssertRowLow rowIndex s
  | .readColumns desc => Sys2Proof.Machine.execReadColumns desc s
  | .readColumnsDebounced desc => Sys2Proof.Machine.execReadColumnsDebounced desc s
  | .scan desc => Sys2Proof.Machine.execScan desc s

end Sys2Proof.Machine
end

