-- ==== Sys2Proof/Machine/Sequencer.lean ====
section
/-! DEFINITION. The sequencer event by event (R20): what one step does to an operation in progress, from the pseudocode of its rule
and the phase tables of R104 and R121. The operation is the one the block latched (R19, R23). -/

namespace Sys2Proof.Machine

/-- The row count of an operation's shape. -/
def shapeRows : Instr → Nat
  | .encode rows _ => rows.toNat
  | .decodeRows desc => rowsOf desc
  | .decodeCols desc => rowsOf desc
  | .configure rows _ => rows.toNat
  | .resetRows desc => rowsOf desc
  | .assertRowLow _ => 0
  | .readColumns desc => rowsOf desc
  | .readColumnsDebounced desc => rowsOf desc
  | .scan desc => rowsOf desc

/-- The column count of an operation's shape. -/
def shapeCols : Instr → Nat
  | .encode _ cols => cols.toNat
  | .decodeRows desc => colsOf desc
  | .decodeCols desc => colsOf desc
  | .configure _ cols => cols.toNat
  | .resetRows desc => colsOf desc
  | .assertRowLow _ => 0
  | .readColumns desc => colsOf desc
  | .readColumnsDebounced desc => colsOf desc
  | .scan desc => colsOf desc

/-- The index a bit operation's half stands at. -/
def Half.index : Half → Nat
  | .rd i => i
  | .wr i _ => i

/-- The value a `return` phase may hold for an operation (R11, R24). -/
def returnFits (i : Instr) (v : Option Operand) : Bool :=
  match i with
  | .encode _ _ => false
  | .decodeRows _ => false
  | .decodeCols _ => false
  | .configure rows cols => v == some (packDescriptor rows cols)
  | .resetRows _ => v.isNone
  | .assertRowLow _ => v.isNone
  | .readColumns desc => v.any fun c => c.toNat.blt (colsOf desc) || c.toNat == Config.colSentinel
  | .readColumnsDebounced desc => v.any fun c => c.toNat.blt (colsOf desc) || c.toNat == Config.colSentinel
  | .scan desc => v.any fun k => k.toNat.ble (rowsOf desc * colsOf desc)

/-- The phase is a position of the operation's pseudocode (R20), its index in range. -/
def phaseFits (i : Instr) (p : Phase) : Bool :=
  match p with
  | .idle => false
  | .codec => match i with
    | .encode _ _ => true
    | .decodeRows _ => true
    | .decodeCols _ => true
    | _ => false
  | .cfgDirRow h => i.op == 3#4 && h.index.blt (shapeRows i)
  | .cfgDirCol h => i.op == 3#4 && h.index.blt (shapeCols i)
  | .cfgOutCol h => i.op == 3#4 && h.index.blt (shapeCols i)
  | .resetRow h => i.op == 4#4 && h.index.blt (shapeRows i)
  | .assertRow h => i.op == 5#4 && h.index == i.a.toNat
  | .readColumns => i.op == 6#4
  | .dbFirst => i.op == 7#4 || i.op == 8#4
  | .dbWait => i.op == 7#4 || i.op == 8#4
  | .dbSample => i.op == 7#4 || i.op == 8#4
  | .scReset0 h => i.op == 8#4 && h.index.blt (shapeRows i)
  | .scAssert h => i.op == 8#4 && h.index.blt (shapeRows i)
  | .scReset h => i.op == 8#4 && h.index.blt (shapeRows i)
  | .ret v => returnFits i v

/-- The read half of a bit operation: PHASE moves on to its write half, which holds the byte read. -/
def bitRead (base : Nat) (k : StoredReg) (at_ : Half → Phase) (i : Nat) (s : State) : State :=
  let r := portRead base k s
  r.2.setPhase (at_ (.wr i r.1))

/-- The write half of a bit operation, and the position after it: the next index of the loop, or what follows the loop. -/
def bitWrite (base : Nat) (k : StoredReg) (v : Byte) (next : Phase) (s : State) : State :=
  (portWrite base k v s).setPhase next

/-- The position after index `i` of a loop over `[0, n)`. -/
def loopNext (n i : Nat) (at_ : Half → Phase) (after : Phase) : Phase :=
  if i + 1 < n then at_ (.rd (i + 1)) else after

/-- The position after the debounced read's last sample, whose value is `c`: the `return` (DB_DONE, R104), or in SCAN what the check of the value
decides (SC_CHECK, R121). -/
def debounceExit (i : Instr) (row c : BitVec 3) : Phase :=
  match i with
  | .scan desc =>
    if c.toNat < colsOf desc then .ret (some (keyIndex desc row.toNat c.toNat)) else .scReset (.rd 0)
  | _ => .ret (some (c.setWidth 8))

/-- The position after a sample of the debounced read (R104): the end with the value confirmed, the end with COL_SENTINEL after the last
iteration, or another wait. -/
def afterSample (i : Instr) (s : State) : Phase :=
  if confirmed s then debounceExit i s.row s.cand
  else if Config.debounceMaxIter ≤ s.iter.toNat then debounceExit i s.row (BitVec.ofNat 3 Config.colSentinel)
  else .dbWait

/-- The position after SC_RESET (R121): the next row, or the end with KEY_SENTINEL. -/
def scanNext (i : Instr) (row : BitVec 3) : Phase :=
  if row.toNat + 1 < shapeRows i then .scAssert (.rd (row.toNat + 1))
  else .ret (some (BitVec.ofNat 8 (shapeRows i * shapeCols i)))

/-- The `return` of a codec operation (R70, R71, R72). -/
def codecReturn (i : Instr) (s : State) : State :=
  match i with
  | .encode rows cols => encodeReturn rows cols s
  | .decodeRows desc => complete (some (rowsField desc)) s
  | .decodeCols desc => complete (some (colsField desc)) s
  | _ => s

/-- One event of the operation in progress: the one PHASE stands at, with the register updates that go with it, and PHASE moved on (R20). -/
def event (i : Instr) (s : State) : State :=
  let base := portBase i s.cmdAddr
  let rows := shapeRows i
  let cols := shapeCols i
  match s.phase with
  | .idle => s
  | .codec => codecReturn i s
  | .cfgDirRow (.rd n) => bitRead base .dir .cfgDirRow n (s.setRow n)
  | .cfgDirRow (.wr n t) => bitWrite base .dir (t ||| bit n) (loopNext rows n .cfgDirRow (.cfgDirCol (.rd 0))) s
  | .cfgDirCol (.rd n) => bitRead base .dir .cfgDirCol n (s.setCol n)
  | .cfgDirCol (.wr n t) =>
    bitWrite base .dir (t &&& ~~~bit (rows + n)) (loopNext cols n .cfgDirCol (.cfgOutCol (.rd 0))) s
  | .cfgOutCol (.rd n) => bitRead base .out .cfgOutCol n (s.setCol n)
  | .cfgOutCol (.wr n t) =>
    bitWrite base .out (t &&& ~~~bit (rows + n))
      (loopNext cols n .cfgOutCol (.ret (some (packDescriptor i.a i.b)))) s
  | .resetRow (.rd n) => bitRead base .out .resetRow n (s.setRow n)
  | .resetRow (.wr n t) => bitWrite base .out (t ||| bit n) (loopNext rows n .resetRow (.ret none)) s
  | .assertRow (.rd n) => bitRead base .out .assertRow n s
  | .assertRow (.wr n t) => bitWrite base .out (t &&& ~~~bit n) (.ret none) s
  | .readColumns =>
    let r := readSample base i.a s
    r.2.setPhase (.ret (some (r.1.setWidth 8)))
  | .dbFirst => (debounceFirst base i.a s).setPhase .dbWait
  | .dbWait => (debounceWait s).setPhase .dbSample
  | .dbSample =>
    let t := debounceSample base i.a s
    t.setPhase (afterSample i t)
  | .scReset0 (.rd n) => bitRead base .out .scReset0 n s
  | .scReset0 (.wr n t) => bitWrite base .out (t ||| bit n) (loopNext rows n .scReset0 (.scAssert (.rd 0))) s
  | .scAssert (.rd n) => bitRead base .out .scAssert n (s.setRow n)
  | .scAssert (.wr n t) => bitWrite base .out (t &&& ~~~bit n) .dbFirst s
  | .scReset (.rd n) => bitRead base .out .scReset n s
  | .scReset (.wr n t) => bitWrite base .out (t ||| bit n) (loopNext rows n .scReset (scanNext i s.row)) s
  | .ret v => complete v s

/-- A step of an operation in progress. In DB_WAIT the block has no step until the delay collaborator answers (R26, R104): the state stays. A
latched command outside the domain, or a PHASE that is no position of it, is reached by no run and is refused. -/
def eventStep (s : State) : Answer :=
  match decodeWord (wordOf s.cmdOp s.cmdB s.cmdA) with
  | .reservedOpcode => .refused .reservedOpcode
  | .reservedOperand => .refused .reservedOperand
  | .instr i =>
    match domainRefusal i s.cmdAddr s.addrWidth s.ports with
    | some r => .refused r
    | none =>
      if !phaseFits i s.phase then .refused .unreachablePhase
      else if s.phase == .dbWait && !s.waitDone then .next s
      else .next (event i s)

/-- The step in which a command is accepted, when steps are single events (R23). -/
def acceptStep (i : Instr) (s : State) : Answer := runCommand i s fun s => .next s

/-- The instruction a command word stands for, handed on, or the refusal of a reserved word (R56, R57). -/
def withDecoded (w : CmdWord) (run : Instr → Answer) : Answer :=
  match decodeWord w with
  | .instr i => run i
  | .reservedOpcode => .refused .reservedOpcode
  | .reservedOperand => .refused .reservedOperand

end Sys2Proof.Machine
end

