-- ==== Sys2Proof/Machine/Step.lean ====
section
/-! DEFINITION. One step of the machine, and how a command is put on its interface. -/

namespace Sys2Proof.Machine

/-- One step. `rst` overrides everything (R133, R150, R151); an operation in progress makes its next event (R20), whatever is
offered (R23); an IDLE block takes the command offered: the whole operation, or its acceptance only, as `pace` says (log entry 2). With no command
offered an IDLE block stays as it is. -/
def step (s : State) : Host.Outcome State Fault Refusal :=
  if s.rst then .next (blockReset s)
  else if s.busy then eventStep s
  else match s.offers with
    | [] => .next s
    | o :: _ => withDecoded o.word fun i =>
      match s.pace with
      | .wholeCommand => exec i s
      | .oneEvent => acceptStep i s

/-- The address operand that names the right register of the platform's first port (R35). -/
def firstPortAddr (w : CmdWord) (ports : List Nat) : Nat :=
  let base := ports.headD 0
  match decodeWord w with
  | .instr i =>
    match addressed i with
    | some k => base + regOffset k
    | none => base
  | .reservedOpcode => base
  | .reservedOperand => base

/-- The command word put on the interface of an IDLE block, with the address of the first port's register, ahead of what is offered. -/
def State.withFetchWord (s : State) (nbits w : Nat) : State :=
  let word : CmdWord := BitVec.ofNat 20 (w % 2 ^ nbits)
  { s with
    offers := { word := word, addr := firstPortAddr word s.ports } :: s.offers
    phase := .idle, busy := false, rst := false, pace := .wholeCommand }

end Sys2Proof.Machine
end

