-- ==== Sys2Proof/Safety.lean ====
section
/-! DEFINITION. What a sound state is, what a safe step is, and what the host owes when it offers a command: the words the statements use. -/

namespace Sys2Proof.Machine

/-- The platform's ports, in rising order from `lo`, each three bytes apart at least and inside the address space (R12, R30). -/
def portsWfFrom (aw : Nat) : Nat → List Nat → Bool
  | _, [] => true
  | lo, b :: bs => lo.ble b && inSpace aw (inAddr b) && portsWfFrom aw (inAddr b + 1) bs

/-- The ports lie in the space and do not overlap. -/
def portsWf (aw : Nat) (ports : List Nat) : Bool := portsWfFrom aw 0 ports

/-- An address of a stored register of some port of the platform. -/
def isStoredReg (ports : List Nat) (a : Nat) : Bool :=
  ports.any fun b => a == storedAddr b .dir || a == storedAddr b .out

/-- Only DIR and OUT of the platform's ports are stored: IN is not, and nothing else is written (R15, R32). -/
def onlyPortRegs (mem : List Host.Cell) (ports : List Nat) : Bool := mem.all fun c => isStoredReg ports c.1

/-- The working registers are in the range R19 gives them at this position of the operation. -/
def countersFit (i : Instr) (s : State) : Bool :=
  let inScan := i.op != 8#4 || s.row.toNat.blt (shapeRows i)
  let candFits := s.cand.toNat.blt (shapeCols i) || s.cand.toNat == Config.colSentinel
  match s.phase with
  | .dbFirst => inScan
  | .dbWait => inScan && candFits && !confirmed s && s.iter.toNat.blt Config.debounceMaxIter
  | .dbSample =>
    inScan && candFits && !confirmed s && Nat.blt 0 s.iter.toNat && s.iter.toNat.ble Config.debounceMaxIter
  | .scAssert (.wr n _) => s.row.toNat == n
  | .scReset _ => inScan
  | _ => true

/-- The control state is sound (R20, R21): IDLE exactly when BUSY = 0; while an operation runs DONE = 0, the latched command is inside its
domain, PHASE is a position of it, and the working registers are in range. -/
def sequencerFits (s : State) : Bool :=
  match s.phase with
  | .idle => !s.busy
  | p =>
    s.busy && !s.done &&
    match decodeWord (wordOf s.cmdOp s.cmdB s.cmdA) with
    | .instr i => (domainRefusal i s.cmdAddr s.addrWidth s.ports).isNone && phaseFits i p && countersFit i s
    | .reservedOpcode => false
    | .reservedOperand => false

/-- The invariant of the machine: memory in canonical form, ports that do not overlap, nothing stored outside DIR and OUT, CMD_ADDR within its
AW bits (R19), and a sound control state. -/
def State.inv (s : State) : Bool :=
  Memory.wf s.mem && portsWf s.addrWidth s.ports && onlyPortRegs s.mem s.ports && inSpace s.addrWidth s.cmdAddr && sequencerFits s

/-- The host offers a command for the port at `base`, with the address operand R35 lists for register `k`, while the block is free
(R35, R40, R156, R161). -/
abbrev OfferedAt (k : PortReg) (base : Nat) (s : State) : Prop :=
  s.busy = false ∧ base ∈ s.ports ∧ inSpace s.addrWidth (inAddr base) = true ∧ s.offeredAddr = base + regOffset k

/-- A step that neither faults nor refuses. -/
def safeStep (s : State) : Bool :=
  match step s with
  | .next _ => true
  | .fault _ => false
  | .refused _ => false

/-- The reads of the register-port interface among some events (R25). -/
def countReads (es : List Event) : Nat :=
  es.countP fun e => match e with
    | .read _ _ => true
    | _ => false

/-- The writes of the register-port interface among some events (R25). -/
def countWrites (es : List Event) : Nat :=
  es.countP fun e => match e with
    | .write _ _ => true
    | _ => false

/-- The waits among some events (R26). -/
def countWaits (es : List Event) : Nat :=
  es.countP fun e => match e with
    | .wait _ => true
    | _ => false

/-- The address of a port access. -/
def accessAddr : Event → Option Nat
  | .read a _ => some a
  | .write a _ => some a
  | .wait _ => none
  | .ret _ => none

/-- The state after `k` reads of IN, with nothing else done. -/
def afterReads (base : Nat) : Nat → State → State
  | 0, s => s
  | k + 1, s => afterReads base k (portReadIn base s).2

/-- The k-th of the coming instantaneous reads of IN (R103: s_0, s_1, ...), as the environment will answer them. -/
def nthRead (base : Nat) (desc : Descriptor) (s : State) (k : Nat) : BitVec 3 :=
  colEnc (portReadIn base (afterReads base k s)).1 desc

/-- The byte of the k-th of the coming reads of IN. -/
def nthByte (base : Nat) (s : State) (k : Nat) : Byte := (portReadIn base (afterReads base k s)).1

/-- The debounced read after its initial sample and `k` iterations, if none of them returned (R102). -/
def afterIterations (base : Nat) (desc : Descriptor) : Nat → State → State
  | 0, s => debounceFirst base desc s
  | k + 1, s => debounceSample base desc (debounceWait (afterIterations base desc k s))

/-- The events of a run of bit operations on one register, in the order they are made: for each bit one read and one write (R33, R34, R46).
`f v n` is the byte written for bit `n` after a read that gave `v`. -/
def bitTrace (a : Nat) (f : Byte → Nat → Byte) : List Nat → Byte → List Event
  | [], _ => []
  | n :: ns, v => .read a v :: .write a (f v n) :: bitTrace a f ns (f v n)

/-- The events of a debounced read that ends after iteration `k`, in the order they are made (R103): read, wait, read, ..., wait, read. -/
def debounceTrace (base : Nat) (s : State) (k : Nat) : List Event :=
  (List.range k).flatMap (fun j => [.read (inAddr base) (nthByte base s j), .wait Config.debounceIntervalUs]) ++
    [.read (inAddr base) (nthByte base s k)]

/-- The state in which SCAN, accepted in `s`, has row `i` asserted, the rows before it having given no valid column (R120). -/
def scanRowState (base : Nat) (desc : Descriptor) (s : State) : Nat → State
  | 0 => scanAssertRow base 0 (scanResetRows base (rowsOf desc) s)
  | i + 1 => scanAssertRow base (i + 1) (scanResetRows base (rowsOf desc) (debounced base desc (scanRowState base desc s i)).2)

/-- Sample k ends a run of four equal samples (R105). -/
def runOfFour (f : Nat → BitVec 3) (k : Nat) : Bool :=
  Nat.ble 3 k && f k == f (k - 1) && f (k - 1) == f (k - 2) && f (k - 2) == f (k - 3)

end Sys2Proof.Machine
end

