-- ==== Sys2Proof/Certificates/Slice0/Obligations.lean ====
section
/-! DEFINITION. The statements for the provers. Each docstring names the rule of the spec it formalises, or says what it rests on. -/

open Sys2Proof Sys2Proof.Machine

/-! ### Encoding -/

/-- R56, whole: the decoder on every word, by the fields of R52, and that it is injective on the words it accepts. -/
def Obligations.DecoderFollowsFieldsAndIsInjective : Prop :=
  ∀ w : CmdWord,
    let op := w.extractLsb' 16 4
    let b := w.extractLsb' 8 8
    let a := w.extractLsb' 0 8
    (8 < op.toNat → decodeWord w = .reservedOpcode) ∧
    (op = 0#4 → decodeWord w = .instr (.encode a b)) ∧
    (op = 3#4 → decodeWord w = .instr (.configure a b)) ∧
    (op.toNat ≤ 8 → op ≠ 0#4 → op ≠ 3#4 → b ≠ 0#8 → decodeWord w = .reservedOperand) ∧
    (op = 1#4 → b = 0#8 → decodeWord w = .instr (.decodeRows a)) ∧
    (op = 2#4 → b = 0#8 → decodeWord w = .instr (.decodeCols a)) ∧
    (op = 4#4 → b = 0#8 → decodeWord w = .instr (.resetRows a)) ∧
    (op = 5#4 → b = 0#8 → decodeWord w = .instr (.assertRowLow a)) ∧
    (op = 6#4 → b = 0#8 → decodeWord w = .instr (.readColumns a)) ∧
    (op = 7#4 → b = 0#8 → decodeWord w = .instr (.readColumnsDebounced a)) ∧
    (op = 8#4 → b = 0#8 → decodeWord w = .instr (.scan a)) ∧
    (∀ w' i, decodeWord w = .instr i → decodeWord w' = .instr i → w = w')

/-- Every operation, with every byte operand the encoding admits, is decoded from the word that encodes it, and a word that decodes to an
operation is the word that encodes it (R52, R55, R56). -/
def Obligations.DecodeAndEncodeAgree : Prop :=
  (∀ i : Instr, decodeWord (encode i) = .instr i) ∧
  (∀ (w : CmdWord) (i : Instr), decodeWord w = .instr i → encode i = w)

/-- The command words of 95_test_vectors T1 and T2, and one word of every operation, written out from the table of R55, decode as they say. -/
def Obligations.WordsOfTheSpecDecode : Prop :=
  decodeWord 0x00303#20 = .instr (.encode 3#8 3#8) ∧
  decodeWord 0x00403#20 = .instr (.encode 3#8 4#8) ∧
  decodeWord 0x00503#20 = .instr (.encode 3#8 5#8) ∧
  decodeWord 0x00304#20 = .instr (.encode 4#8 3#8) ∧
  decodeWord 0x00404#20 = .instr (.encode 4#8 4#8) ∧
  decodeWord 0x00305#20 = .instr (.encode 5#8 3#8) ∧
  decodeWord 0x00405#20 = .instr (.encode 5#8 4#8) ∧
  decodeWord 0x00302#20 = .instr (.encode 2#8 3#8) ∧
  decodeWord 0x00804#20 = .instr (.encode 4#8 8#8) ∧
  decodeWord 0x10000#20 = .instr (.decodeRows 0x00#8) ∧
  decodeWord 0x100FF#20 = .instr (.decodeRows 0xFF#8) ∧
  decodeWord 0x1003C#20 = .instr (.decodeRows 0x3C#8) ∧
  decodeWord 0x10053#20 = .instr (.decodeRows 0x53#8) ∧
  decodeWord 0x20000#20 = .instr (.decodeCols 0x00#8) ∧
  decodeWord 0x200FF#20 = .instr (.decodeCols 0xFF#8) ∧
  decodeWord 0x200B4#20 = .instr (.decodeCols 0xB4#8) ∧
  decodeWord 0x20053#20 = .instr (.decodeCols 0x53#8) ∧
  decodeWord 0x30304#20 = .instr (.configure 4#8 3#8) ∧
  decodeWord 0x40034#20 = .instr (.resetRows 0x34#8) ∧
  decodeWord 0x50002#20 = .instr (.assertRowLow 2#8) ∧
  decodeWord 0x60034#20 = .instr (.readColumns 0x34#8) ∧
  decodeWord 0x70034#20 = .instr (.readColumnsDebounced 0x34#8) ∧
  decodeWord 0x80034#20 = .instr (.scan 0x34#8) ∧
  decodeWord 0x000FF#20 = .instr (.encode 255#8 0#8) ∧
  decodeWord 0x10134#20 = .reservedOperand ∧
  decodeWord 0x80134#20 = .reservedOperand ∧
  decodeWord 0x90000#20 = .reservedOpcode ∧
  decodeWord 0xFFFFF#20 = .reservedOpcode

/-- A step of an IDLE block whose interface carries a reserved word is refused, by name (R57, 93 U6). -/
def Obligations.ReservedWordIsRefused : Prop :=
  ∀ (s : State) (o : Offer) (rest : List Offer), s.rst = false → s.busy = false → s.offers = o :: rest →
    (9 ≤ (o.word.extractLsb' 16 4).toNat → step s = .refused .reservedOpcode) ∧
    (o.word.extractLsb' 16 4 ∈ [1#4, 2#4, 4#4, 5#4, 6#4, 7#4, 8#4] → o.word.extractLsb' 8 8 ≠ 0#8 →
      step s = .refused .reservedOperand)

/-! ### A step -/

/-- A step of an IDLE block runs the operation its interface's word decodes to: whole, or as far as its acceptance, as the pace says; with no
command offered it changes nothing. The pace is the model's own (log entry 2). Rests on R20 and R23. -/
def Obligations.StepRunsTheOfferedCommand : Prop :=
  (∀ (s : State) (o : Offer) (rest : List Offer) (i : Instr), s.rst = false → s.busy = false → s.offers = o :: rest →
    decodeWord o.word = .instr i →
    (s.pace = .wholeCommand → step s = exec i s) ∧
    (s.pace = .oneEvent → step s = acceptStep i s)) ∧
  (∀ s : State, s.rst = false → s.busy = false → s.offers = [] → step s = .next s)

/-- Acceptance latches the fields of the word and the address, sets BUSY, clears DONE and sets PHASE to the first position; while BUSY = 1
what is offered has no effect on what a step does (R23). The premise that the command is inside its domain is that of R161. The model's own
choices in it: steps that are single events (log entry 2), `cmd_addr` carrying the low AW bits of the host's number (log entry 1), an accepted
offer leaving the interface and no other being used up (log entry 8), and exec leaving a busy state as it is (log entry 19). -/
def Obligations.AcceptanceLatchesAndBusyIgnoresOffers : Prop :=
  (∀ (s : State) (o : Offer) (rest : List Offer) (i : Instr), s.rst = false → s.busy = false → s.pace = .oneEvent →
    s.offers = o :: rest → decodeWord o.word = .instr i → domainRefusal i o.addr s.addrWidth s.ports = none →
    step s = .next { s with
      cmdOp := o.word.extractLsb' 16 4, cmdB := o.word.extractLsb' 8 8, cmdA := o.word.extractLsb' 0 8
      cmdAddr := o.addr % 2 ^ s.addrWidth, busy := true, done := false, phase := firstPhase i, offers := rest }) ∧
  (∀ (s : State) (l : List Offer), s.rst = false → s.busy = true →
    (∀ t, step s = .next t → t.offers = s.offers ∧ step { s with offers := l } = .next { t with offers := l }) ∧
    (∀ r, step s = .refused r → step { s with offers := l } = .refused r) ∧
    (∀ i, exec i s = .next s))

/-- Each step of an operation in progress is exactly one event of the history, or the wait for the delay collaborator (R20, R26). -/
def Obligations.BusyStepIsOneEvent : Prop :=
  ∀ s t : State, s.inv = true → s.rst = false → s.busy = true → step s = .next t →
    (t = s ∧ s.phase = .dbWait ∧ s.waitDone = false) ∨ ∃ e, t.history = e :: s.history

/-- The completion step (R24): RESULT takes the value if there is one and is left unchanged otherwise, DONE <- 1, BUSY <- 0, PHASE <- IDLE, all in one
step; no port register and no working register changes. The mark that RESULT holds a value and the history are the model's own
(log entries 6 and 11). -/
def Obligations.CompletionStep : Prop :=
  ∀ (s : State) (v : Option Operand), s.inv = true → s.rst = false → s.phase = .ret v →
    step s = .next { s with
      result := match v with
        | some x => x
        | none => s.result
      resultHeld := s.resultHeld || v.isSome
      done := true, busy := false, phase := .idle, history := .ret v :: s.history }

/-- The phases of the debounce state machine (R104), for READ_COLUMNS_DEBOUNCED and inside SCAN, one step each. What COL holds after a sample is the
model's choice (log entry 9). So is, in SCAN, the position after the last sample: PHASE is then already the return or SC_RESET, where R121 puts
SC_CHECK, which has no event, in the step of the event that follows (log entry 17). -/
def Obligations.DebouncePhaseTable : Prop :=
  ∀ (s : State) (i : Instr) (desc : Descriptor), s.inv = true → s.rst = false →
    decodeWord (wordOf s.cmdOp s.cmdB s.cmdA) = .instr i → (i = .readColumnsDebounced desc ∨ i = .scan desc) →
    let base := portBase i s.cmdAddr
    let v := (portReadIn base s).1
    let c := colEnc v desc
    let m := if c = s.cand then s.matchCount + 1#2 else 0#2
    let after (value : BitVec 3) (t : State) : Prop :=
      (i = .readColumnsDebounced desc → t.phase = .ret (some (value.setWidth 8))) ∧
      (i = .scan desc → value.toNat < colsOf desc →
        t.phase = .ret (some (BitVec.ofNat 8 (s.row.toNat * colsOf desc + value.toNat)))) ∧
      (i = .scan desc → colsOf desc ≤ value.toNat → t.phase = .scReset (.rd 0))
    (s.phase = .dbFirst → step s = .next { (portReadIn base s).2 with
      sample := v, col := colLeft v desc, cand := c, matchCount := 0#2, iter := 0#4, phase := .dbWait }) ∧
    (s.phase = .dbWait → s.waitDone = true → step s = .next { s with
      iter := s.iter + 1#4, phase := .dbSample, history := .wait 1000 :: s.history }) ∧
    (s.phase = .dbWait → s.waitDone = false → step s = .next s) ∧
    (s.phase = .dbSample → ∃ t, step s = .next t ∧
      t = { (portReadIn base s).2 with sample := v, col := colLeft v desc, cand := c, matchCount := m, phase := t.phase } ∧
      (c = s.cand → 2 < m.toNat → after c t) ∧
      (¬ (c = s.cand ∧ 2 < m.toNat) → s.iter.toNat = 10 → after 5#3 t) ∧
      (¬ (c = s.cand ∧ 2 < m.toNat) → s.iter.toNat < 10 → t.phase = .dbWait))

/-- The two halves of every bit operation (R33, R34, R38), in CONFIGURE, RESET_ROWS, ASSERT_ROW_LOW and SCAN: the read half makes one read and holds
the byte it gave; the write half stores the byte held, changed in the one bit, whatever the register holds by then, so a write by another agent
in between is lost; no other byte of memory changes. -/
def Obligations.BitWriteHalfStoresTheValueRead : Prop :=
  ∀ (s : State) (i : Instr), s.inv = true → s.rst = false →
    decodeWord (wordOf s.cmdOp s.cmdB s.cmdA) = .instr i →
    let dirAddr := portBase i s.cmdAddr
    let outAddr := portBase i s.cmdAddr + 1
    let set := fun (v : Byte) (n : Nat) => v ||| (1#8 <<< n)
    let clear := fun (v : Byte) (n : Nat) => v &&& ~~~(1#8 <<< n)
    let reads := fun (position : Half → Phase) (a : Nat) => ∀ n, s.phase = position (.rd n) →
      ∃ t, step s = .next t ∧ t.phase = position (.wr n (Memory.get s.mem a)) ∧ t.mem = s.mem ∧
        t.history = .read a (Memory.get s.mem a) :: s.history
    let writes := fun (position : Half → Phase) (a : Nat) (f : Byte → Nat → Byte) => ∀ n v, s.phase = position (.wr n v) →
      ∃ t, step s = .next t ∧ Memory.get t.mem a = f v n ∧ (∀ x, x ≠ a → Memory.get t.mem x = Memory.get s.mem x) ∧
        t.history = .write a (f v n) :: s.history
    (reads .cfgDirRow dirAddr ∧ writes .cfgDirRow dirAddr set) ∧
    (reads .cfgDirCol dirAddr ∧ writes .cfgDirCol dirAddr fun v n => clear v (i.a.toNat + n)) ∧
    (reads .cfgOutCol outAddr ∧ writes .cfgOutCol outAddr fun v n => clear v (i.a.toNat + n)) ∧
    (reads .resetRow outAddr ∧ writes .resetRow outAddr set) ∧
    (reads .assertRow outAddr ∧ writes .assertRow outAddr clear) ∧
    (reads .scReset0 outAddr ∧ writes .scReset0 outAddr set) ∧
    (reads .scAssert outAddr ∧ writes .scAssert outAddr clear) ∧
    (reads .scReset outAddr ∧ writes .scReset outAddr set)

/-- An operation in progress never faults and is never refused (R130). -/
def Obligations.RunningOperationNeverStops : Prop :=
  ∀ s : State, s.inv = true → s.rst = false → s.busy = true → safeStep s = true

/-- Every operation in progress completes, wherever it stands, if every wait ends (R130, R139). The bound on the number of steps rests on the
granularity of 92 D1 and D10. -/
def Obligations.EveryOperationCompletes : Prop :=
  ∀ s : State, s.inv = true → s.rst = false → s.busy = true → s.waitDone = true →
    ∃ n t, n ≤ 200 ∧ Host.Core.run Sys2Proof.core n s = .next t ∧ t.busy = false ∧ t.done = true ∧ t.phase = .idle

/-- The operation run event by event ends where the whole command ends: same registers, same memory, same events (R20), after one step for its
acceptance and one for each event; the block is busy in between. The two paces are the model's own (log entry 2). -/
def Obligations.EventRunRefinesWholeCommand : Prop :=
  ∀ (i : Instr) (s t : State) (o : Offer) (rest : List Offer), s.rst = false → s.busy = false → s.pace = .oneEvent →
    s.offers = o :: rest → decodeWord o.word = .instr i → exec i s = .next t →
    Host.Core.run Sys2Proof.core (t.history.length - s.history.length + 1) s = .next t ∧
    s.history.length < t.history.length ∧
    ∀ k, 0 < k → k < t.history.length - s.history.length + 1 →
      ∃ u : State, Host.Core.run Sys2Proof.core k s = .next u ∧ u.busy = true

/-! ### Reset -/

/-- The state after reset as the spec gives it (R28, R150); the values the spec leaves unspecified are not stated, but for the clause that memory
lists nothing, which is the model's choice (log entry 7). That nothing is offered then is the model's too (log entry 8): the block makes no
event. -/
def Obligations.ResetStateIsIdle : Prop :=
  State.reset.phase = .idle ∧ State.reset.busy = false ∧ State.reset.done = false ∧
  State.reset.readResult = .fault ∧ State.reset.history = [] ∧ State.reset.mem = [] ∧
  step State.reset = .next State.reset

/-- A step with `rst` asserted (R133, R150, R151): it overrides everything; PHASE = IDLE, BUSY = 0, DONE = 0 and RESULT holds no value; nothing
of the port, the inputs and the events made so far changes. What the other registers of the block hold is not stated. -/
def Obligations.RstOverridesEverything : Prop :=
  ∀ s : State, s.rst = true → ∃ t, step s = .next t ∧ t.readResult = .fault ∧
    t = { s with
      phase := .idle, busy := false, done := false, resultHeld := false
      result := t.result, cmdOp := t.cmdOp, cmdAddr := t.cmdAddr, cmdA := t.cmdA, cmdB := t.cmdB
      row := t.row, col := t.col, sample := t.sample, cand := t.cand, matchCount := t.matchCount, iter := t.iter }

/-- The invariant holds at reset. Its clause on the platform's ports rests on log entries 1 and 3. -/
def Obligations.InvariantHoldsAtReset : Prop := State.reset.inv = true

/-- Every step keeps the invariant: memory in canonical form, only DIR and OUT of the ports stored, CMD_ADDR within its AW bits, and a sound
control state (R19, R20, R21, R32). -/
def Obligations.StepKeepsInvariant : Prop :=
  ∀ s t : State, s.inv = true → step s = .next t → t.inv = true

/-! ### The port primitives -/

/-- R33 and R34, whole: a read then a write; bit n becomes 1 (0), every other bit is written back; the write is made whether or not the bit
had that value. -/
def Obligations.BitOperationsReadThenWrite : Prop :=
  ∀ (base : Nat) (k : StoredReg) (n : Nat) (s : State), Memory.wf s.mem = true → n < 8 →
    let a := storedAddr base k
    let v := Memory.get s.mem a
    let set := portSetBit base k n s
    let clear := portClearBit base k n s
    (set.history = .write a (v ||| (1#8 <<< n)) :: .read a v :: s.history ∧
      (∀ m, m < 8 → (Memory.get set.mem a).getLsbD m = if m = n then true else v.getLsbD m) ∧
      (∀ x, x ≠ a → Memory.get set.mem x = Memory.get s.mem x) ∧
      (v.getLsbD n = true → Memory.get set.mem a = v) ∧
      set = { s with mem := set.mem, history := set.history }) ∧
    (clear.history = .write a (v &&& ~~~(1#8 <<< n)) :: .read a v :: s.history ∧
      (∀ m, m < 8 → (Memory.get clear.mem a).getLsbD m = if m = n then false else v.getLsbD m) ∧
      (∀ x, x ≠ a → Memory.get clear.mem x = Memory.get s.mem x) ∧
      (v.getLsbD n = false → Memory.get clear.mem a = v) ∧
      clear = { s with mem := clear.mem, history := clear.history })

/-- R46, whole: the net effect of a run of bit operations over a set of bits, in any order, and its |S| reads and |S| writes. -/
def Obligations.RunOfBitOperationsNetEffect : Prop :=
  ∀ (base : Nat) (k : StoredReg) (bits : List Nat) (s : State), Memory.wf s.mem = true → bits.Nodup → (∀ n ∈ bits, n < 8) →
    let a := storedAddr base k
    let old := Memory.get s.mem a
    let set := bits.foldl (fun s n => portSetBit base k n s) s
    let clear := bits.foldl (fun s n => portClearBit base k n s) s
    (∀ m, m < 8 → (Memory.get set.mem a).getLsbD m = (old.getLsbD m || decide (m ∈ bits))) ∧
    (∀ m, m < 8 → (Memory.get clear.mem a).getLsbD m = (old.getLsbD m && !decide (m ∈ bits))) ∧
    (∀ x, x ≠ a → Memory.get set.mem x = Memory.get s.mem x ∧ Memory.get clear.mem x = Memory.get s.mem x) ∧
    (∃ es, set.history = es ++ s.history ∧ es.length = 2 * bits.length ∧
      countReads es = bits.length ∧ countWrites es = bits.length) ∧
    (∃ es, clear.history = es ++ s.history ∧ es.length = 2 * bits.length ∧
      countReads es = bits.length ∧ countWrites es = bits.length)

/-- A write is seen by the next read of the same register and by the next read of IN; no other byte changes (R31, R32). -/
def Obligations.WriteIsSeenByNextReads : Prop :=
  ∀ (base : Nat) (k : StoredReg) (v : Byte) (s : State), Memory.wf s.mem = true →
    let t := portWrite base k v s
    (portRead base k t).1 = v ∧
    (∀ x, x ≠ storedAddr base k → Memory.get t.mem x = Memory.get s.mem x) ∧
    (k = .out → ∀ n, n < 8 → (s.dir base).getLsbD n = true → (portReadIn base t).1.getLsbD n = v.getLsbD n) ∧
    (k = .dir → ∀ n, n < 8 → v.getLsbD n = true → (portReadIn base t).1.getLsbD n = (s.out base).getLsbD n)

/-- The read of IN (R15, R18, R31): a pin that is an output reads back OUT, a pin that is an input reads what the environment puts on it,
which in the base contract is a free value, a fresh one at each read; nothing but the environment, the draws and the history changes. -/
def Obligations.ReadOfInputShowsPins : Prop :=
  ∀ (base : Nat) (s : State),
    let r := portReadIn base s
    let levels := (s.env.next s.draw (s.dir base) (s.out base)).1
    (∀ n, n < 8 → r.1.getLsbD n = if (s.dir base).getLsbD n then (s.out base).getLsbD n else levels.getLsbD n) ∧
    (s.env = .free → levels = Config.freeLevels s.draw ∧ r.2.draw = s.draw + 1) ∧
    r.2 = { s with env := r.2.env, draw := r.2.draw, history := .read (base + 2) r.1 :: s.history }

/-! ### The descriptor and its codec -/

/-- R51, whole: the six well-formed descriptors with the values derived from them (counts, row mask, column mask, the mask of the unrelated
bits, KEY_SENTINEL), each the descriptor its counts pack to; every other value is malformed. -/
def Obligations.DescriptorTable : Prop :=
  ([0x33#8, 0x43#8, 0x53#8, 0x34#8, 0x44#8, 0x35#8].map fun d =>
      (rowsOf d, colsOf d, rowMask (rowsOf d), colMask (rowsOf d) (colsOf d),
        ~~~(rowMask (rowsOf d) ||| colMask (rowsOf d) (colsOf d)), (keySentinel d).toNat)) =
    [(3, 3, 0x07#8, 0x38#8, 0xC0#8, 9), (3, 4, 0x07#8, 0x78#8, 0x80#8, 12), (3, 5, 0x07#8, 0xF8#8, 0x00#8, 15),
     (4, 3, 0x0F#8, 0x70#8, 0x80#8, 12), (4, 4, 0x0F#8, 0xF0#8, 0x00#8, 16), (5, 3, 0x1F#8, 0xE0#8, 0x00#8, 15)] ∧
  (∀ d ∈ [0x33#8, 0x43#8, 0x53#8, 0x34#8, 0x44#8, 0x35#8], packDescriptor (rowsField d) (colsField d) = d) ∧
  (∀ d : Descriptor, wfDescriptor d = true ↔ d ∈ [0x33#8, 0x43#8, 0x53#8, 0x34#8, 0x44#8, 0x35#8]) ∧
  (∀ d : Descriptor, wfDescriptor d = false ↔
    d.getLsbD 3 = true ∨ d.getLsbD 7 = true ∨ ¬ (3 ≤ rowsOf d ∧ rowsOf d ≤ 5) ∨ ¬ (3 ≤ colsOf d ∧ colsOf d ≤ 8 - rowsOf d))

/-- ENCODE (R70): completes on every pair of bytes and returns `(cols << 4) | rows` for a legal shape; for any other pair RESULT is a free value
(93 U1; the draw counter is the model's own, log entry 5). Nothing else changes but the latched command (of the address the low AW bits, log
entry 1), the flags, the history, and by the model's choice the offers (log entry 8) and the mark that RESULT holds a value (log entry 6). -/
def Obligations.EncodeReturnsDescriptor : Prop :=
  ∀ (s : State) (rows cols : Operand), s.busy = false →
    let legal := legalShape rows.toNat cols.toNat
    let v := if legal then (cols <<< 4) ||| rows else Config.freeDescriptor s.draw
    exec (.encode rows cols) s = .next { s with
      result := v, resultHeld := true, done := true, busy := false, phase := .idle
      cmdOp := 0#4, cmdAddr := s.offeredAddr % 2 ^ s.addrWidth, cmdA := rows, cmdB := cols, offers := s.offers.tail
      draw := if legal then s.draw else s.draw + 1
      history := .ret (some v) :: s.history }

/-- DECODE_ROWS and DECODE_COLS (R71, R72): on all 256 values `desc & 0x07` and `(desc & 0x70) >> 4`; nothing else changes but the latched
command (of the address the low AW bits, log entry 1), the flags, the history, and by the model's choice the offers (log entry 8) and the mark that RESULT holds a value (log entry 6). -/
def Obligations.DecodesMaskEveryByte : Prop :=
  ∀ (s : State) (desc : Descriptor), s.busy = false →
    exec (.decodeRows desc) s = .next { s with
      result := desc &&& 0x07#8, resultHeld := true, done := true, busy := false, phase := .idle
      cmdOp := 1#4, cmdAddr := s.offeredAddr % 2 ^ s.addrWidth, cmdA := desc, cmdB := 0#8, offers := s.offers.tail
      history := .ret (some (desc &&& 0x07#8)) :: s.history } ∧
    exec (.decodeCols desc) s = .next { s with
      result := (desc &&& 0x70#8) >>> 4, resultHeld := true, done := true, busy := false, phase := .idle
      cmdOp := 2#4, cmdAddr := s.offeredAddr % 2 ^ s.addrWidth, cmdA := desc, cmdB := 0#8, offers := s.offers.tail
      history := .ret (some ((desc &&& 0x70#8) >>> 4)) :: s.history }

/-- The round trip (R73): for a legal shape ENCODE then DECODE_ROWS then DECODE_COLS give the counts back; for a descriptor that decodes to a
legal shape, ENCODE of its counts is that descriptor exactly when it is well formed. -/
def Obligations.CodecRoundTrip : Prop :=
  (∀ (s : State) (rows cols : Operand), s.busy = false → legalShape rows.toNat cols.toNat = true →
    ∃ t u v, exec (.encode rows cols) s = .next t ∧ exec (.decodeRows t.result) t = .next u ∧ u.result = rows ∧
      exec (.decodeCols t.result) u = .next v ∧ v.result = cols) ∧
  (∀ (s : State) (d : Descriptor), s.busy = false → legalShape (rowsOf d) (colsOf d) = true →
    ∃ t u v, exec (.decodeRows d) s = .next t ∧ exec (.decodeCols d) t = .next u ∧
      exec (.encode t.result u.result) u = .next v ∧ (v.result = d ↔ wfDescriptor d = true))

/-! ### Pin configuration -/

/-- The end state of CONFIGURE for a legal shape (R81), with its frame, in which the offers are log entry 8's and the mark that RESULT
holds a value log entry 6's. -/
def Obligations.ConfigureEndState : Prop :=
  ∀ (s : State) (base : Nat) (rows cols : Operand), OfferedAt .direction base s → Memory.wf s.mem = true →
    legalShape rows.toNat cols.toNat = true →
    let rowmask := (1#8 <<< rows.toNat) - 1#8
    let colmask := ((1#8 <<< cols.toNat) - 1#8) <<< rows.toNat
    ∃ t, exec (.configure rows cols) s = .next t ∧
      t.dir base = (s.dir base ||| rowmask) &&& ~~~colmask ∧
      t.out base = s.out base &&& ~~~colmask ∧
      t.result = (cols <<< 4) ||| rows ∧
      t.dir base &&& ~~~(rowmask ||| colmask) = s.dir base &&& ~~~(rowmask ||| colmask) ∧
      t.out base &&& ~~~colmask = s.out base &&& ~~~colmask ∧
      (∀ n, n < rows.toNat → (t.dir base).getLsbD n = true ∧ (t.out base).getLsbD n = (s.out base).getLsbD n) ∧
      (∀ a, a ≠ base → a ≠ base + 1 → Memory.get t.mem a = Memory.get s.mem a) ∧
      (∃ es, t.history = es ++ s.history ∧ ∀ e ∈ es, accessAddr e ≠ some (base + 2)) ∧
      t = { s with
        mem := t.mem, history := t.history, row := t.row, col := t.col
        result := t.result, resultHeld := true, done := true, busy := false, phase := .idle
        cmdOp := 3#4, cmdAddr := base, cmdA := rows, cmdB := cols, offers := s.offers.tail }

/-- CONFIGURE's port accesses in the order made (R80): one read and one write per bit, rows of DIR, then columns of DIR, then columns of OUT,
2 x rows + 4 x cols of them. The granularity is 92 D10. -/
def Obligations.ConfigureAccessesInOrder : Prop :=
  ∀ (s : State) (base : Nat) (rows cols : Operand), OfferedAt .direction base s → Memory.wf s.mem = true →
    legalShape rows.toNat cols.toNat = true →
    let set := fun (v : Byte) n => v ||| (1#8 <<< n)
    let clear := fun (v : Byte) n => v &&& ~~~(1#8 <<< (rows.toNat + n))
    let es := bitTrace base set (List.range rows.toNat) (s.dir base) ++
      bitTrace base clear (List.range cols.toNat) (s.dir base ||| rowMask rows.toNat) ++
      bitTrace (base + 1) clear (List.range cols.toNat) (s.out base)
    es.length = 2 * rows.toNat + 4 * cols.toNat ∧
    ∃ t, exec (.configure rows cols) s = .next t ∧
      t.history = .ret (some ((cols <<< 4) ||| rows)) :: es.reverse ++ s.history

/-- A second CONFIGURE with the same operands changes nothing and returns the same descriptor, making as many accesses (R83). -/
def Obligations.ConfigureTwiceIsRedundant : Prop :=
  ∀ (s : State) (base : Nat) (rows cols : Operand), OfferedAt .direction base s → Memory.wf s.mem = true →
    legalShape rows.toNat cols.toNat = true →
    ∃ t u, exec (.configure rows cols) s = .next t ∧ exec (.configure rows cols) { t with offers := s.offers } = .next u ∧
      u.mem = t.mem ∧ u.result = t.result ∧
      u.history.length - t.history.length = t.history.length - s.history.length

/-! ### The row multiplexer -/

/-- RESET_ROWS (R90) on a well-formed descriptor: OUT | rowmask, nothing else of memory and not RESULT; one read and one write of OUT per row in
ascending order; with its frame, in which the offers are log entry 8's. -/
def Obligations.ResetRowsEndState : Prop :=
  ∀ (s : State) (base : Nat) (desc : Descriptor), OfferedAt .output base s → Memory.wf s.mem = true → wfDescriptor desc = true →
    ∃ t, exec (.resetRows desc) s = .next t ∧
      t.out base = s.out base ||| ((1#8 <<< rowsOf desc) - 1#8) ∧
      (∀ a, a ≠ base + 1 → Memory.get t.mem a = Memory.get s.mem a) ∧
      t.history = .ret none ::
        (bitTrace (base + 1) (fun v n => v ||| (1#8 <<< n)) (List.range (rowsOf desc)) (s.out base)).reverse ++ s.history ∧
      t = { s with
        mem := t.mem, history := t.history, row := t.row, done := true, busy := false, phase := .idle
        cmdOp := 4#4, cmdAddr := base + 1, cmdA := desc, cmdB := 0#8, offers := s.offers.tail }

/-- ASSERT_ROW_LOW (R91) for every row_index up to 7, a row's or not: that bit of OUT is cleared, every other bit, DIR and RESULT are unchanged;
one read and one write; with its frame, in which the offers are log entry 8's. -/
def Obligations.AssertRowLowClearsOneBit : Prop :=
  ∀ (s : State) (base : Nat) (n : Byte), OfferedAt .output base s → Memory.wf s.mem = true → n.toNat < 8 →
    let v := s.out base &&& ~~~(1#8 <<< n.toNat)
    ∃ t, exec (.assertRowLow n) s = .next t ∧
      t.out base = v ∧
      (∀ a, a ≠ base + 1 → Memory.get t.mem a = Memory.get s.mem a) ∧
      t = { s with
        mem := t.mem, done := true, busy := false, phase := .idle
        cmdOp := 5#4, cmdAddr := base + 1, cmdA := n, cmdB := 0#8, offers := s.offers.tail
        history := .ret none :: .write (base + 1) v :: .read (base + 1) (s.out base) :: s.history }

/-- R92, whole: a second RESET_ROWS leaves OUT as the first left it, and makes its accesses, every write storing the value just read; ASSERT_ROW_LOW
is idempotent in the same sense. -/
def Obligations.ResetRowsAndAssertRowLowAreIdempotent : Prop :=
  (∀ (s : State) (base : Nat) (desc : Descriptor), OfferedAt .output base s → Memory.wf s.mem = true → wfDescriptor desc = true →
    ∃ t u, exec (.resetRows desc) s = .next t ∧ exec (.resetRows desc) { t with offers := s.offers } = .next u ∧
      t.out base = s.out base ||| rowMask (rowsOf desc) ∧ u.out base = t.out base ∧ u.mem = t.mem ∧
      (∀ n, rowsOf desc ≤ n → (u.out base).getLsbD n = (s.out base).getLsbD n) ∧
      u.history = .ret none ::
        (bitTrace (base + 1) (fun v _ => v) (List.range (rowsOf desc)) (t.out base)).reverse ++ t.history) ∧
  (∀ (s : State) (base : Nat) (n : Byte), OfferedAt .output base s → Memory.wf s.mem = true → n.toNat < 8 →
    ∃ t u, exec (.assertRowLow n) s = .next t ∧ exec (.assertRowLow n) { t with offers := s.offers } = .next u ∧
      u.out base = t.out base ∧ u.mem = t.mem ∧
      u.history = .ret none :: .write (base + 1) (t.out base) :: .read (base + 1) (t.out base) :: t.history)

/-- R93, whole: after RESET_ROWS and then ASSERT_ROW_LOW of a row of the shape, exactly that row is low, every other bit of OUT is as it was,
and, where the rows are outputs, IN reads the same pattern back. -/
def Obligations.OnlyOneRowIsAsserted : Prop :=
  ∀ (s : State) (base : Nat) (desc i : Byte), OfferedAt .output base s → Memory.wf s.mem = true → wfDescriptor desc = true →
    i.toNat < rowsOf desc →
    ∃ t u, exec (.resetRows desc) s = .next t ∧ exec (.assertRowLow i) { t with offers := s.offers } = .next u ∧
      (∀ r, r < rowsOf desc → (u.out base).getLsbD r = decide (r ≠ i.toNat)) ∧
      (∀ n, rowsOf desc ≤ n → (u.out base).getLsbD n = (s.out base).getLsbD n) ∧
      (∀ r, r < rowsOf desc → (s.dir base).getLsbD r = true → (portReadIn base u).1.getLsbD r = decide (r ≠ i.toNat))

/-! ### The column sampler and the debounce -/

/-- R101, whole: ColEnc is the least column whose bit is 0, else 5, and is 5 exactly when the column bits of the table are all 1; 5 is no column
of any legal shape. -/
def Obligations.ColEncIsLeastActiveColumn : Prop :=
  ∀ (v : Byte) (desc : Descriptor), wfDescriptor desc = true →
    ((∃ j, j < colsOf desc ∧ (colEnc v desc).toNat = j ∧ v.getLsbD (rowsOf desc + j) = false ∧
        ∀ j', j' < j → v.getLsbD (rowsOf desc + j') = true) ∨
      ((colEnc v desc).toNat = 5 ∧ ∀ j, j < colsOf desc → v.getLsbD (rowsOf desc + j) = true)) ∧
    ¬ 5 < colsOf desc ∧
    (desc = 0x33#8 → (colEnc v desc = 5#3 ↔ v &&& 0x38#8 = 0x38#8)) ∧
    (desc = 0x43#8 → (colEnc v desc = 5#3 ↔ v &&& 0x78#8 = 0x78#8)) ∧
    (desc = 0x53#8 → (colEnc v desc = 5#3 ↔ v &&& 0xF8#8 = 0xF8#8)) ∧
    (desc = 0x34#8 → (colEnc v desc = 5#3 ↔ v &&& 0x70#8 = 0x70#8)) ∧
    (desc = 0x44#8 → (colEnc v desc = 5#3 ↔ v &&& 0xF0#8 = 0xF0#8)) ∧
    (desc = 0x35#8 → (colEnc v desc = 5#3 ↔ v &&& 0xE0#8 = 0xE0#8))

/-- READ_COLUMNS (R100): one read of IN, no write; RESULT is ColEnc of the sampled byte; only the column bits of the sample affect it; with its
frame. COL's last value is the model's choice (log entry 9) and is not stated; in the frame the offers are log entry 8's and the mark that
RESULT holds a value log entry 6's. -/
def Obligations.ReadColumnsSamplesOnce : Prop :=
  (∀ (s : State) (base : Nat) (desc : Descriptor), OfferedAt .input base s → wfDescriptor desc = true →
    let r := portReadIn base s
    ∃ t, exec (.readColumns desc) s = .next t ∧
      t = { s with
        result := (colEnc r.1 desc).setWidth 8, resultHeld := true, done := true, busy := false, phase := .idle
        cmdOp := 6#4, cmdAddr := base + 2, cmdA := desc, cmdB := 0#8, offers := s.offers.tail
        sample := r.1, col := t.col, env := r.2.env, draw := r.2.draw
        history := .ret (some ((colEnc r.1 desc).setWidth 8)) :: .read (base + 2) r.1 :: s.history }) ∧
  (∀ desc v v' : Byte, wfDescriptor desc = true →
    (∀ j, j < colsOf desc → v.getLsbD (rowsOf desc + j) = v'.getLsbD (rowsOf desc + j)) → colEnc v desc = colEnc v' desc)

/-- READ_COLUMNS_DEBOUNCED completes if every wait ends (R139), and its frame (R102): no byte of memory changes; what changes is RESULT, the working
registers of the sampler and the debounce, the environment, the draws, the history, and by the model's choice the offers (log entry 8) and the
mark that RESULT holds a value (log entry 6). -/
def Obligations.DebouncedReadCompletesAndWritesNothing : Prop :=
  ∀ (s : State) (base : Nat) (desc : Descriptor), OfferedAt .input base s → wfDescriptor desc = true → s.waitDone = true →
    ∃ t, exec (.readColumnsDebounced desc) s = .next t ∧
      ((t.result.toNat < colsOf desc) ∨ t.result = 5#8) ∧
      t = { s with
        result := t.result, resultHeld := true, done := true, busy := false, phase := .idle
        cmdOp := 7#4, cmdAddr := base + 2, cmdA := desc, cmdB := 0#8, offers := s.offers.tail
        sample := t.sample, col := t.col, cand := t.cand, matchCount := t.matchCount, iter := t.iter
        env := t.env, draw := t.draw, history := t.history }

/-- R105, whole: the debounced read returns the value of the earliest run of four equal consecutive samples among the first eleven, or 5 if there is
none, and reads no further; after iteration k, MATCH is the length of the run ending at s_k, less 1, and never passes 3. -/
def Obligations.DebouncedReadReturnsEarliestRunOfFour : Prop :=
  ∀ (s : State) (base : Nat) (desc : Descriptor), OfferedAt .input base s → wfDescriptor desc = true → s.waitDone = true →
    let f := nthRead base desc s
    (∃ t es, exec (.readColumnsDebounced desc) s = .next t ∧ t.history = es ++ s.history ∧
      (∀ k, k ≤ 10 → runOfFour f k = true → (∀ j, j < k → runOfFour f j = false) →
        t.result = (f k).setWidth 8 ∧ countReads es = k + 1) ∧
      ((∀ k, k ≤ 10 → runOfFour f k = false) → t.result = 5#8 ∧ countReads es = 11)) ∧
    (∀ k, k ≤ 10 → (∀ j, j < k → runOfFour f j = false) →
      let m := (afterIterations base desc k (accept (.readColumnsDebounced desc) s)).matchCount.toNat
      m ≤ 3 ∧ m ≤ k ∧ (∀ j, j < m → f (k - j) = f (k - j - 1)) ∧ (m < k → f (k - m) ≠ f (k - m - 1)))

/-- R103, whole: a debounced read that returns in iteration k makes k + 1 reads and k waits, strictly alternating from a read to a read; one that
runs out of iterations makes 11 and 10; the least is 4 and 3. -/
def Obligations.DebouncedReadAlternatesReadsAndWaits : Prop :=
  ∀ (s : State) (base : Nat) (desc : Descriptor), OfferedAt .input base s → wfDescriptor desc = true → s.waitDone = true →
    ∃ t k, exec (.readColumnsDebounced desc) s = .next t ∧ 3 ≤ k ∧ k ≤ 10 ∧
      t.history = .ret (some t.result) :: (debounceTrace base s k).reverse ++ s.history ∧
      countReads (debounceTrace base s k) = k + 1 ∧ countWaits (debounceTrace base s k) = k ∧
      (runOfFour (nthRead base desc s) k = false → k = 10)

/-- R107, whole: a value stable over the first four samples is returned; a signal that changes at every sample gives 5 after 11 reads, MATCH staying
0 throughout. -/
def Obligations.StableFourConfirmsAndChangingNeverSettles : Prop :=
  ∀ (s : State) (base : Nat) (desc : Descriptor), OfferedAt .input base s → wfDescriptor desc = true → s.waitDone = true →
    let f := nthRead base desc s
    ∃ t es, exec (.readColumnsDebounced desc) s = .next t ∧ t.history = es ++ s.history ∧
      (f 1 = f 0 → f 2 = f 0 → f 3 = f 0 → t.result = (f 0).setWidth 8 ∧ countReads es = 4) ∧
      ((∀ k, 1 ≤ k → k ≤ 10 → f k ≠ f (k - 1)) → t.result = 5#8 ∧ countReads es = 11 ∧
        ∀ k, k ≤ 10 → (afterIterations base desc k (accept (.readColumnsDebounced desc) s)).matchCount = 0#2)

/-! ### The scan -/

/-- The end state of SCAN (R122), with its frame: RESULT and OUT for a key found and for none; the bits of OUT outside rowmask and DIR are unchanged. In the
frame the offers are log entry 8's and the mark that RESULT holds a value log entry 6's. -/
def Obligations.ScanEndState : Prop :=
  ∀ (s : State) (base : Nat) (desc : Descriptor), OfferedAt .direction base s → Memory.wf s.mem = true → wfDescriptor desc = true →
    s.waitDone = true →
    let rowmask := (1#8 <<< rowsOf desc) - 1#8
    ∃ t, exec (.scan desc) s = .next t ∧
      ((∃ i c, i < rowsOf desc ∧ c < colsOf desc ∧ t.result.toNat = i * colsOf desc + c ∧
          t.out base = (s.out base ||| rowmask) &&& ~~~(1#8 <<< i)) ∨
        (t.result.toNat = rowsOf desc * colsOf desc ∧ t.out base = s.out base ||| rowmask)) ∧
      t.out base &&& ~~~rowmask = s.out base &&& ~~~rowmask ∧
      t.dir base = s.dir base ∧
      (∀ a, a ≠ base + 1 → Memory.get t.mem a = Memory.get s.mem a) ∧
      t = { s with
        mem := t.mem, history := t.history, env := t.env, draw := t.draw
        row := t.row, col := t.col, sample := t.sample, cand := t.cand, matchCount := t.matchCount, iter := t.iter
        result := t.result, resultHeld := true, done := true, busy := false, phase := .idle
        cmdOp := 8#4, cmdAddr := base, cmdA := desc, cmdB := 0#8, offers := s.offers.tail }

/-- SCAN's choice (R120, R124): it returns the key index of the first row, in ascending order, whose debounced read is a valid column, and the
key sentinel if no row has one. -/
def Obligations.ScanReportsFirstRowWithColumn : Prop :=
  ∀ (s : State) (base : Nat) (desc : Descriptor), OfferedAt .direction base s → wfDescriptor desc = true → s.waitDone = true →
    let value := fun i => (debounced base desc (scanRowState base desc (accept (.scan desc) s) i)).1.toNat
    ∃ t, exec (.scan desc) s = .next t ∧
      (∀ i, i < rowsOf desc → value i < colsOf desc → (∀ j, j < i → colsOf desc ≤ value j) →
        t.result.toNat = i * colsOf desc + value i) ∧
      ((∀ i, i < rowsOf desc → colsOf desc ≤ value i) → t.result.toNat = rowsOf desc * colsOf desc)

/-- Under the reference environment `IdealMatrix(P)` of R18, on a port configured for the shape, SCAN reports the pressed key with the least linear
index, and the key sentinel when none is pressed (R124, R127). It is a statement about that environment only; that the keyboard stands at the port
the command reads is the model's choice (log entry 20). -/
def Obligations.ScanReportsLeastPressedKey : Prop :=
  ∀ (s : State) (base : Nat) (desc : Descriptor) (pressed : List (Nat × Nat)), OfferedAt .direction base s → Memory.wf s.mem = true →
    wfDescriptor desc = true → s.waitDone = true → s.env = .idealMatrix desc pressed →
    (∀ k ∈ pressed, k.1 < rowsOf desc ∧ k.2 < colsOf desc) →
    s.dir base &&& rowMask (rowsOf desc) = rowMask (rowsOf desc) →
    s.dir base &&& colMask (rowsOf desc) (colsOf desc) = 0#8 →
    ∃ t, exec (.scan desc) s = .next t ∧
      (pressed = [] → t.result.toNat = rowsOf desc * colsOf desc) ∧
      (pressed ≠ [] → ∃ k ∈ pressed, t.result.toNat = k.1 * colsOf desc + k.2 ∧
        ∀ k' ∈ pressed, t.result.toNat ≤ k'.1 * colsOf desc + k'.2)

/-- With columns that are inputs and never read active, SCAN 0x34 returns 12: in every row every instantaneous read gives 5 and the debounced read
confirms 5 after four reads (R127), with three waits (R125). Stated for every well-formed descriptor, beyond R127's one shape. The form is the
model's choice: the levels are handed in as a script, among the inputs of a step, which the reads use up in their order (log entries 4 and 20). -/
def Obligations.ScanOfIdleKeyboardReturnsSentinel : Prop :=
  ∀ (s : State) (base : Nat) (desc : Descriptor) (levels : List Byte), OfferedAt .direction base s → Memory.wf s.mem = true →
    wfDescriptor desc = true → s.waitDone = true → s.env = .script levels → 4 * rowsOf desc ≤ levels.length →
    (∀ l ∈ levels, l &&& colMask (rowsOf desc) (colsOf desc) = colMask (rowsOf desc) (colsOf desc)) →
    s.dir base &&& colMask (rowsOf desc) (colsOf desc) = 0#8 →
    ∃ t es, exec (.scan desc) s = .next t ∧ t.history = es ++ s.history ∧
      t.result.toNat = rowsOf desc * colsOf desc ∧ (desc = 0x34#8 → t.result = 12#8) ∧
      countWaits es = 3 * rowsOf desc ∧
      t.env = .script (levels.drop (4 * rowsOf desc)) ∧
      ∀ i, i < rowsOf desc →
        let r := scanRowState base desc (accept (.scan desc) s) i
        let d := debounced base desc r
        (∀ j, j < 4 → nthRead base desc r j = 5#3) ∧ d.1 = 5#3 ∧ ¬ d.1.toNat < colsOf desc ∧
        d.2.history = (debounceTrace base r 3).reverse ++ r.history ∧ countReads (debounceTrace base r 3) = 4

/-- The counts of SCAN's port accesses and waits (R125): at least a steady key in row 0, at most an unsettled debounce in every row. They rest on the
granularity of 92 D10. -/
def Obligations.ScanEventCounts : Prop :=
  ∀ (s : State) (base : Nat) (desc : Descriptor), OfferedAt .direction base s → wfDescriptor desc = true → s.waitDone = true →
    let rows := rowsOf desc
    ∃ t es, exec (.scan desc) s = .next t ∧ t.history = es ++ s.history ∧
      2 * rows + 6 ≤ countReads es + countWrites es ∧
      countReads es + countWrites es ≤ 2 * rows + rows * (13 + 2 * rows) ∧
      3 ≤ countWaits es ∧ countWaits es ≤ 10 * rows

/-- The key index encoder (R126, R8): a bijection between the keys of a shape and 0 .. rows * cols - 1, row-major, at most 15. -/
def Obligations.KeyIndexIsABijection : Prop :=
  ∀ desc : Descriptor, wfDescriptor desc = true →
    (∀ i c, i < rowsOf desc → c < colsOf desc →
      let n := (keyIndex desc i c).toNat
      n = i * colsOf desc + c ∧ n < rowsOf desc * colsOf desc ∧ n ≤ 15 ∧ n / colsOf desc = i ∧ n % colsOf desc = c) ∧
    (∀ n, n < rowsOf desc * colsOf desc → ∃ i c, i < rowsOf desc ∧ c < colsOf desc ∧ (keyIndex desc i c).toNat = n)

/-! ### All operations -/

/-- Every accepted command runs to its `return` (R130), if every wait ends (R139): each of the nine operations, on every operand inside its domain (for
ENCODE on every operand), with the address operand R35 lists. That the accepted offer is used up is log entry 8's. -/
def Obligations.EveryCommandInDomainCompletes : Prop :=
  ∀ (i : Instr) (s : State) (base : Nat), s.busy = false → s.waitDone = true →
    (i.wellFormed = true ∨ i.op = 0#4) →
    (∀ k, addressed i = some k → OfferedAt k base s) →
    ∃ t, exec i s = .next t ∧ t.busy = false ∧ t.done = true ∧ t.phase = .idle ∧
      t.cmdOp = i.op ∧ t.offers = s.offers.tail ∧ ∃ v es, t.history = .ret v :: es ++ s.history

/-- Where a command stops, by name (93 U2, U3, U4, U10, U12, U16): operands outside the domain; address operands that pass the end of the space; address
operands that name no register of the kind at any port; and waits that never end. That the refusals come before acceptance, operands named ahead of
addresses, is log entry 13's (DEDUCED), base + 2 for CONFIGURE log entry 14's (DEDUCED), and the fault for a wait log entry 10's. -/
def Obligations.CommandStopsOnlyOutsideDomain : Prop :=
  ∀ (s : State), s.busy = false →
    (∀ rows cols : Operand, legalShape rows.toNat cols.toNat = false → exec (.configure rows cols) s = .refused .illegalShape) ∧
    (∀ desc : Descriptor, wfDescriptor desc = false →
      exec (.resetRows desc) s = .refused .malformedDescriptor ∧ exec (.readColumns desc) s = .refused .malformedDescriptor ∧
      exec (.readColumnsDebounced desc) s = .refused .malformedDescriptor ∧ exec (.scan desc) s = .refused .malformedDescriptor) ∧
    (∀ n : Byte, 8 ≤ n.toNat → exec (.assertRowLow n) s = .refused .noSuchRowBit) ∧
    (∀ i k, i.wellFormed = true → addressed i = some k →
      (2 ^ s.addrWidth ≤ highestAddr k s.offeredAddr → exec i s = .refused .outsideAddressSpace) ∧
      (highestAddr k s.offeredAddr < 2 ^ s.addrWidth → (∀ b ∈ s.ports, s.offeredAddr ≠ b + regOffset k) →
        exec i s = .refused .wrongRegister) ∧
      (highestAddr k s.offeredAddr < 2 ^ s.addrWidth → (∃ b ∈ s.ports, s.offeredAddr = b + regOffset k) →
        (∃ t, exec i s = .next t) ∨
        (exec i s = .fault .waitNeverEnds ∧ s.waitDone = false ∧ (i.op = 7#4 ∨ i.op = 8#4)))) ∧
    (∀ i, addressed i = none → ∃ t, exec i s = .next t)

/-- With a delay collaborator that never answers, the two operations that wait do not complete (R139, 93 U12). That the whole command then ends
in the fault waitNeverEnds, where the spec says a hang, is the model's choice (log entry 10). -/
def Obligations.OperationsHangIfWaitsNeverEnd : Prop :=
  ∀ (s : State) (base : Nat) (desc : Descriptor), wfDescriptor desc = true → s.waitDone = false →
    (OfferedAt .input base s → exec (.readColumnsDebounced desc) s = .fault .waitNeverEnds) ∧
    (OfferedAt .direction base s → exec (.scan desc) s = .fault .waitNeverEnds)

/-- The addresses an operation accesses are those of the table of R35, and IN is never written (R32). -/
def Obligations.AccessesFollowTheAddressTable : Prop :=
  ∀ (i : Instr) (s t : State) (base : Nat), s.busy = false → (∀ k, addressed i = some k → OfferedAt k base s) →
    exec i s = .next t →
    ∃ es, t.history = es ++ s.history ∧
      (∀ e ∈ es, ∀ a, accessAddr e = some a →
        (i.op = 3#4 ∧ (a = base ∨ a = base + 1)) ∨ ((i.op = 4#4 ∨ i.op = 5#4) ∧ a = base + 1) ∨
        ((i.op = 6#4 ∨ i.op = 7#4) ∧ a = base + 2) ∨ (i.op = 8#4 ∧ (a = base + 1 ∨ a = base + 2))) ∧
      (∀ a v, .write a v ∈ es → a ≠ base + 2)

/-- No operation changes a byte of memory but DIR and OUT of the port its address operand names; a codec operation or a read of the columns
changes none (R32, R35). Stated for every state, with the address the meaning computes. -/
def Obligations.MemoryChangesOnlyAtThePort : Prop :=
  ∀ (i : Instr) (s t : State), Memory.wf s.mem = true → exec i s = .next t →
    (∀ a, a ≠ storedAddr (portBase i s.offeredAddr) .dir → a ≠ storedAddr (portBase i s.offeredAddr) .out →
      Memory.get t.mem a = Memory.get s.mem a) ∧
    (i.op ∉ [3#4, 4#4, 5#4, 8#4] → t.mem = s.mem) ∧
    (i.op ≠ 3#4 → t.dir (portBase i s.offeredAddr) = s.dir (portBase i s.offeredAddr))

/-- The unrelated bits of a port are kept by every operation with a well-formed descriptor or legal shape, and by ASSERT_ROW_LOW of a row of a
shape (R16). -/
def Obligations.UnrelatedBitsAreKept : Prop :=
  ∀ (i : Instr) (desc : Descriptor) (s t : State) (base n : Nat), s.busy = false → Memory.wf s.mem = true →
    (∀ k, addressed i = some k → OfferedAt k base s) → wfDescriptor desc = true →
    (i = .configure (rowsField desc) (colsField desc) ∨ i = .resetRows desc ∨ i = .readColumns desc ∨
      i = .readColumnsDebounced desc ∨ i = .scan desc ∨ ∃ r : Byte, r.toNat < rowsOf desc ∧ i = .assertRowLow r) →
    rowsOf desc + colsOf desc ≤ n → exec i s = .next t →
    (t.dir base).getLsbD n = (s.dir base).getLsbD n ∧ (t.out base).getLsbD n = (s.out base).getLsbD n

/-- What the working registers hold between operations is not observable (R24): two IDLE states that differ in them only give next states that
differ in them only. -/
def Obligations.WorkingRegistersAreNotObservable : Prop :=
  ∀ (i : Instr) (s s' t : State), s.busy = false →
    s' = { s with row := s'.row, col := s'.col, sample := s'.sample, cand := s'.cand, matchCount := s'.matchCount, iter := s'.iter } →
    exec i s = .next t →
    ∃ t', exec i s' = .next t' ∧
      t' = { t with row := t'.row, col := t'.col, sample := t'.sample, cand := t'.cand, matchCount := t'.matchCount, iter := t'.iter }

/-- What the host may read of RESULT (R21, R28, R163): after an operation that returns a value it holds that value and is valid; after RESET_ROWS and
ASSERT_ROW_LOW it is what it was, and is not new. -/
def Obligations.ResultIsValidAfterValueOperations : Prop :=
  ∀ (i : Instr) (s t : State), s.busy = false → exec i s = .next t →
    (i.op ≠ 4#4 → i.op ≠ 5#4 → t.resultValid = true ∧ t.readResult = .value t.result ∧
      ∃ es, t.history = .ret (some t.result) :: es ++ s.history) ∧
    ((i.op = 4#4 ∨ i.op = 5#4) → t.resultValid = false ∧ t.result = s.result ∧ t.readResult = s.readResult ∧
      ∃ es, t.history = .ret none :: es ++ s.history)

/-- The values returned (R8, R11): a column index of the shape or 5, a key index or rows * cols, at most 16; a count at most 7; a well-formed descriptor
for a legal shape. -/
def Obligations.ReturnedValuesAreInRange : Prop :=
  ∀ (i : Instr) (s t : State), s.busy = false → exec i s = .next t →
    (∀ d, (i = .readColumns d ∨ i = .readColumnsDebounced d) → t.result.toNat < colsOf d ∨ t.result = 5#8) ∧
    (∀ d, i = .scan d → t.result.toNat ≤ rowsOf d * colsOf d ∧ t.result.toNat ≤ 16) ∧
    (∀ d, (i = .decodeRows d ∨ i = .decodeCols d) → t.result.toNat ≤ 7) ∧
    (∀ r c, (i = .configure r c ∨ (i = .encode r c ∧ legalShape r.toNat c.toNat = true)) → wfDescriptor t.result = true)

/-! ### The inputs of a step -/

/-- The inputs of a step are not the machine's (R29): a step changes none of them but by using them up, the first offer when a command is
accepted and the coming levels when IN is read. How the inputs stand beside the machine is the model's choice (log entries 4 and 8). -/
def Obligations.InputsAreOnlyUsedUp : Prop :=
  ∀ s t : State, step s = .next t →
    t.addrWidth = s.addrWidth ∧ t.ports = s.ports ∧ t.rst = s.rst ∧ t.waitDone = s.waitDone ∧ (t.offers = s.offers ∨ t.offers = s.offers.tail) ∧
    (s.env = .free → t.env = .free) ∧
    (∀ desc pressed, s.env = .idealMatrix desc pressed → t.env = .idealMatrix desc pressed) ∧
    (∀ levels, s.env = .script levels → ∃ k, t.env = .script (levels.drop k))

/-- An operation that makes no read of IN gives the same machine and the same events whatever the environment, and leaves the environment as it is
(R18, R29, R31, R35). That the environment stands beside the machine in State is the model's choice (log entry 4). -/
def Obligations.LevelsMatterOnlyToReads : Prop :=
  ∀ (i : Instr) (s t : State) (env : Env), i.op ∉ [6#4, 7#4, 8#4] → exec i s = .next t →
    t.env = s.env ∧ exec i { s with env := env } = .next { t with env := env }
end

