-- ==== Sys2Proof/Laws/Memory.lean ====
section
/-! SUPPORT. The laws of memory: a read after a write, and the canonical form that every write keeps. -/

namespace Sys2Proof.Machine

theorem Memory.get_below {lo : Nat} {m : List Host.Cell} (h : Memory.wfFrom lo m = true) {a : Nat} (ha : a < lo) :
    Memory.get m a = Memory.unlisted := by
  induction m generalizing lo with
  | nil => rfl
  | cons c m ih =>
    obtain ⟨b, w⟩ := c
    simp only [Memory.wfFrom, Bool.and_eq_true, decide_eq_true_eq] at h
    rw [Memory.get, if_neg (by omega), ih h.2 (by omega)]

theorem Memory.wfFrom_mono {lo lo' : Nat} {m : List Host.Cell} (h : Memory.wfFrom lo m = true) (hl : lo' ≤ lo) :
    Memory.wfFrom lo' m = true := by
  cases m with
  | nil => rfl
  | cons c m =>
    obtain ⟨b, w⟩ := c
    simp only [Memory.wfFrom, Bool.and_eq_true, decide_eq_true_eq] at h ⊢
    exact ⟨⟨by omega, h.1.2⟩, h.2⟩

theorem Memory.get_push {lo : Nat} {m : List Host.Cell} (h : Memory.wfFrom lo m = true) {a : Nat} (ha : a < lo)
    (v : Byte) (x : Nat) : Memory.get (Memory.push a v m) x = if x = a then v else Memory.get m x := by
  unfold Memory.push
  split
  · rename_i hv
    split
    · rename_i hx; rw [hx, Memory.get_below h ha, hv]
    · rfl
  · rfl

/-- What a byte reads as after a write: the written byte at the address written, the old byte elsewhere. -/
theorem Memory.get_set_wfFrom {lo : Nat} {m : List Host.Cell} (h : Memory.wfFrom lo m = true) (a : Nat) (v : Byte) (x : Nat) :
    Memory.get (Memory.set m a v) x = if x = a then v else Memory.get m x := by
  induction m generalizing lo with
  | nil => exact Memory.get_push (lo := a + 1) (m := []) rfl (by omega) v x
  | cons c m ih =>
    obtain ⟨b, w⟩ := c
    simp only [Memory.wfFrom, Bool.and_eq_true, decide_eq_true_eq] at h
    unfold Memory.set
    split
    · rename_i hab
      have hw : Memory.wfFrom (a + 1) ((b, w) :: m) = true := by
        simp only [Memory.wfFrom, Bool.and_eq_true, decide_eq_true_eq]
        exact ⟨⟨by omega, h.1.2⟩, h.2⟩
      exact Memory.get_push hw (by omega) v x
    · split
      · rename_i hab
        rw [Memory.get_push h.2 (by omega) v x]
        by_cases hx : x = a
        · simp [hx]
        · rw [if_neg hx, if_neg hx, Memory.get, if_neg (by omega)]
      · by_cases hx : x = b
        · subst hx
          rw [Memory.get, if_pos rfl, if_neg (by omega), Memory.get, if_pos rfl]
        · rw [Memory.get, if_neg hx, ih h.2, Memory.get, if_neg hx]

theorem Memory.wfFrom_push {lo lo' : Nat} {m : List Host.Cell} (h : Memory.wfFrom lo' m = true) {a : Nat} (ha : a < lo')
    (hl : lo ≤ a) (v : Byte) : Memory.wfFrom lo (Memory.push a v m) = true := by
  unfold Memory.push
  split
  · exact Memory.wfFrom_mono h (by omega)
  · rename_i hv
    simp only [Memory.wfFrom, Bool.and_eq_true, decide_eq_true_eq]
    exact ⟨⟨hl, hv⟩, Memory.wfFrom_mono h (by omega)⟩

theorem Memory.wfFrom_set {lo : Nat} {m : List Host.Cell} (h : Memory.wfFrom lo m = true) {a : Nat} (hl : lo ≤ a) (v : Byte) :
    Memory.wfFrom lo (Memory.set m a v) = true := by
  induction m generalizing lo with
  | nil => exact Memory.wfFrom_push (lo' := a + 1) rfl (by omega) hl v
  | cons c m ih =>
    obtain ⟨b, w⟩ := c
    have h' := h
    simp only [Memory.wfFrom, Bool.and_eq_true, decide_eq_true_eq] at h'
    unfold Memory.set
    split
    · refine Memory.wfFrom_push (lo' := a + 1) ?_ (by omega) hl v
      simp only [Memory.wfFrom, Bool.and_eq_true, decide_eq_true_eq]
      exact ⟨⟨by omega, h'.1.2⟩, h'.2⟩
    · split
      · exact Memory.wfFrom_push h'.2 (by omega) hl v
      · simp only [Memory.wfFrom, Bool.and_eq_true, decide_eq_true_eq]
        exact ⟨h'.1, ih h'.2 (by omega)⟩

/-- Every write keeps the canonical form. -/
theorem Memory.wf_set {m : List Host.Cell} (h : Memory.wf m = true) (a : Nat) (v : Byte) :
    Memory.wf (Memory.set m a v) = true := Memory.wfFrom_set h (Nat.zero_le a) v

/-- Read after write, for a memory in canonical form. -/
theorem Memory.get_set {m : List Host.Cell} (h : Memory.wf m = true) (a : Nat) (v : Byte) (x : Nat) :
    Memory.get (Memory.set m a v) x = if x = a then v else Memory.get m x := Memory.get_set_wfFrom h a v x

end Sys2Proof.Machine
end

