-- ==== Sys2Proof/Laws/State.lean ====
section
/-! SUPPORT. One lemma per field per update of State, each true by rfl, so that no proof unfolds a record update. -/

namespace Sys2Proof.Machine

@[simp] theorem State.setRow_phase (i : Nat) (s : State) :
    (s.setRow i).phase = s.phase := rfl
@[simp] theorem State.setRow_busy (i : Nat) (s : State) :
    (s.setRow i).busy = s.busy := rfl
@[simp] theorem State.setRow_done (i : Nat) (s : State) :
    (s.setRow i).done = s.done := rfl
@[simp] theorem State.setRow_result (i : Nat) (s : State) :
    (s.setRow i).result = s.result := rfl
@[simp] theorem State.setRow_cmdOp (i : Nat) (s : State) :
    (s.setRow i).cmdOp = s.cmdOp := rfl
@[simp] theorem State.setRow_cmdAddr (i : Nat) (s : State) :
    (s.setRow i).cmdAddr = s.cmdAddr := rfl
@[simp] theorem State.setRow_cmdA (i : Nat) (s : State) :
    (s.setRow i).cmdA = s.cmdA := rfl
@[simp] theorem State.setRow_cmdB (i : Nat) (s : State) :
    (s.setRow i).cmdB = s.cmdB := rfl
@[simp] theorem State.setRow_row (i : Nat) (s : State) :
    (s.setRow i).row = BitVec.ofNat 3 i := rfl
@[simp] theorem State.setRow_col (i : Nat) (s : State) :
    (s.setRow i).col = s.col := rfl
@[simp] theorem State.setRow_sample (i : Nat) (s : State) :
    (s.setRow i).sample = s.sample := rfl
@[simp] theorem State.setRow_cand (i : Nat) (s : State) :
    (s.setRow i).cand = s.cand := rfl
@[simp] theorem State.setRow_matchCount (i : Nat) (s : State) :
    (s.setRow i).matchCount = s.matchCount := rfl
@[simp] theorem State.setRow_iter (i : Nat) (s : State) :
    (s.setRow i).iter = s.iter := rfl
@[simp] theorem State.setRow_addrWidth (i : Nat) (s : State) :
    (s.setRow i).addrWidth = s.addrWidth := rfl
@[simp] theorem State.setRow_ports (i : Nat) (s : State) :
    (s.setRow i).ports = s.ports := rfl
@[simp] theorem State.setRow_mem (i : Nat) (s : State) :
    (s.setRow i).mem = s.mem := rfl
@[simp] theorem State.setRow_offers (i : Nat) (s : State) :
    (s.setRow i).offers = s.offers := rfl
@[simp] theorem State.setRow_rst (i : Nat) (s : State) :
    (s.setRow i).rst = s.rst := rfl
@[simp] theorem State.setRow_waitDone (i : Nat) (s : State) :
    (s.setRow i).waitDone = s.waitDone := rfl
@[simp] theorem State.setRow_env (i : Nat) (s : State) :
    (s.setRow i).env = s.env := rfl
@[simp] theorem State.setRow_resultHeld (i : Nat) (s : State) :
    (s.setRow i).resultHeld = s.resultHeld := rfl
@[simp] theorem State.setRow_draw (i : Nat) (s : State) :
    (s.setRow i).draw = s.draw := rfl
@[simp] theorem State.setRow_history (i : Nat) (s : State) :
    (s.setRow i).history = s.history := rfl
@[simp] theorem State.setRow_pace (i : Nat) (s : State) :
    (s.setRow i).pace = s.pace := rfl

@[simp] theorem State.setCol_phase (j : Nat) (s : State) :
    (s.setCol j).phase = s.phase := rfl
@[simp] theorem State.setCol_busy (j : Nat) (s : State) :
    (s.setCol j).busy = s.busy := rfl
@[simp] theorem State.setCol_done (j : Nat) (s : State) :
    (s.setCol j).done = s.done := rfl
@[simp] theorem State.setCol_result (j : Nat) (s : State) :
    (s.setCol j).result = s.result := rfl
@[simp] theorem State.setCol_cmdOp (j : Nat) (s : State) :
    (s.setCol j).cmdOp = s.cmdOp := rfl
@[simp] theorem State.setCol_cmdAddr (j : Nat) (s : State) :
    (s.setCol j).cmdAddr = s.cmdAddr := rfl
@[simp] theorem State.setCol_cmdA (j : Nat) (s : State) :
    (s.setCol j).cmdA = s.cmdA := rfl
@[simp] theorem State.setCol_cmdB (j : Nat) (s : State) :
    (s.setCol j).cmdB = s.cmdB := rfl
@[simp] theorem State.setCol_row (j : Nat) (s : State) :
    (s.setCol j).row = s.row := rfl
@[simp] theorem State.setCol_col (j : Nat) (s : State) :
    (s.setCol j).col = BitVec.ofNat 3 j := rfl
@[simp] theorem State.setCol_sample (j : Nat) (s : State) :
    (s.setCol j).sample = s.sample := rfl
@[simp] theorem State.setCol_cand (j : Nat) (s : State) :
    (s.setCol j).cand = s.cand := rfl
@[simp] theorem State.setCol_matchCount (j : Nat) (s : State) :
    (s.setCol j).matchCount = s.matchCount := rfl
@[simp] theorem State.setCol_iter (j : Nat) (s : State) :
    (s.setCol j).iter = s.iter := rfl
@[simp] theorem State.setCol_addrWidth (j : Nat) (s : State) :
    (s.setCol j).addrWidth = s.addrWidth := rfl
@[simp] theorem State.setCol_ports (j : Nat) (s : State) :
    (s.setCol j).ports = s.ports := rfl
@[simp] theorem State.setCol_mem (j : Nat) (s : State) :
    (s.setCol j).mem = s.mem := rfl
@[simp] theorem State.setCol_offers (j : Nat) (s : State) :
    (s.setCol j).offers = s.offers := rfl
@[simp] theorem State.setCol_rst (j : Nat) (s : State) :
    (s.setCol j).rst = s.rst := rfl
@[simp] theorem State.setCol_waitDone (j : Nat) (s : State) :
    (s.setCol j).waitDone = s.waitDone := rfl
@[simp] theorem State.setCol_env (j : Nat) (s : State) :
    (s.setCol j).env = s.env := rfl
@[simp] theorem State.setCol_resultHeld (j : Nat) (s : State) :
    (s.setCol j).resultHeld = s.resultHeld := rfl
@[simp] theorem State.setCol_draw (j : Nat) (s : State) :
    (s.setCol j).draw = s.draw := rfl
@[simp] theorem State.setCol_history (j : Nat) (s : State) :
    (s.setCol j).history = s.history := rfl
@[simp] theorem State.setCol_pace (j : Nat) (s : State) :
    (s.setCol j).pace = s.pace := rfl

@[simp] theorem State.setPhase_phase (p : Phase) (s : State) :
    (s.setPhase p).phase = p := rfl
@[simp] theorem State.setPhase_busy (p : Phase) (s : State) :
    (s.setPhase p).busy = s.busy := rfl
@[simp] theorem State.setPhase_done (p : Phase) (s : State) :
    (s.setPhase p).done = s.done := rfl
@[simp] theorem State.setPhase_result (p : Phase) (s : State) :
    (s.setPhase p).result = s.result := rfl
@[simp] theorem State.setPhase_cmdOp (p : Phase) (s : State) :
    (s.setPhase p).cmdOp = s.cmdOp := rfl
@[simp] theorem State.setPhase_cmdAddr (p : Phase) (s : State) :
    (s.setPhase p).cmdAddr = s.cmdAddr := rfl
@[simp] theorem State.setPhase_cmdA (p : Phase) (s : State) :
    (s.setPhase p).cmdA = s.cmdA := rfl
@[simp] theorem State.setPhase_cmdB (p : Phase) (s : State) :
    (s.setPhase p).cmdB = s.cmdB := rfl
@[simp] theorem State.setPhase_row (p : Phase) (s : State) :
    (s.setPhase p).row = s.row := rfl
@[simp] theorem State.setPhase_col (p : Phase) (s : State) :
    (s.setPhase p).col = s.col := rfl
@[simp] theorem State.setPhase_sample (p : Phase) (s : State) :
    (s.setPhase p).sample = s.sample := rfl
@[simp] theorem State.setPhase_cand (p : Phase) (s : State) :
    (s.setPhase p).cand = s.cand := rfl
@[simp] theorem State.setPhase_matchCount (p : Phase) (s : State) :
    (s.setPhase p).matchCount = s.matchCount := rfl
@[simp] theorem State.setPhase_iter (p : Phase) (s : State) :
    (s.setPhase p).iter = s.iter := rfl
@[simp] theorem State.setPhase_addrWidth (p : Phase) (s : State) :
    (s.setPhase p).addrWidth = s.addrWidth := rfl
@[simp] theorem State.setPhase_ports (p : Phase) (s : State) :
    (s.setPhase p).ports = s.ports := rfl
@[simp] theorem State.setPhase_mem (p : Phase) (s : State) :
    (s.setPhase p).mem = s.mem := rfl
@[simp] theorem State.setPhase_offers (p : Phase) (s : State) :
    (s.setPhase p).offers = s.offers := rfl
@[simp] theorem State.setPhase_rst (p : Phase) (s : State) :
    (s.setPhase p).rst = s.rst := rfl
@[simp] theorem State.setPhase_waitDone (p : Phase) (s : State) :
    (s.setPhase p).waitDone = s.waitDone := rfl
@[simp] theorem State.setPhase_env (p : Phase) (s : State) :
    (s.setPhase p).env = s.env := rfl
@[simp] theorem State.setPhase_resultHeld (p : Phase) (s : State) :
    (s.setPhase p).resultHeld = s.resultHeld := rfl
@[simp] theorem State.setPhase_draw (p : Phase) (s : State) :
    (s.setPhase p).draw = s.draw := rfl
@[simp] theorem State.setPhase_history (p : Phase) (s : State) :
    (s.setPhase p).history = s.history := rfl
@[simp] theorem State.setPhase_pace (p : Phase) (s : State) :
    (s.setPhase p).pace = s.pace := rfl

@[simp] theorem State.record_phase (e : Event) (s : State) :
    (s.record e).phase = s.phase := rfl
@[simp] theorem State.record_busy (e : Event) (s : State) :
    (s.record e).busy = s.busy := rfl
@[simp] theorem State.record_done (e : Event) (s : State) :
    (s.record e).done = s.done := rfl
@[simp] theorem State.record_result (e : Event) (s : State) :
    (s.record e).result = s.result := rfl
@[simp] theorem State.record_cmdOp (e : Event) (s : State) :
    (s.record e).cmdOp = s.cmdOp := rfl
@[simp] theorem State.record_cmdAddr (e : Event) (s : State) :
    (s.record e).cmdAddr = s.cmdAddr := rfl
@[simp] theorem State.record_cmdA (e : Event) (s : State) :
    (s.record e).cmdA = s.cmdA := rfl
@[simp] theorem State.record_cmdB (e : Event) (s : State) :
    (s.record e).cmdB = s.cmdB := rfl
@[simp] theorem State.record_row (e : Event) (s : State) :
    (s.record e).row = s.row := rfl
@[simp] theorem State.record_col (e : Event) (s : State) :
    (s.record e).col = s.col := rfl
@[simp] theorem State.record_sample (e : Event) (s : State) :
    (s.record e).sample = s.sample := rfl
@[simp] theorem State.record_cand (e : Event) (s : State) :
    (s.record e).cand = s.cand := rfl
@[simp] theorem State.record_matchCount (e : Event) (s : State) :
    (s.record e).matchCount = s.matchCount := rfl
@[simp] theorem State.record_iter (e : Event) (s : State) :
    (s.record e).iter = s.iter := rfl
@[simp] theorem State.record_addrWidth (e : Event) (s : State) :
    (s.record e).addrWidth = s.addrWidth := rfl
@[simp] theorem State.record_ports (e : Event) (s : State) :
    (s.record e).ports = s.ports := rfl
@[simp] theorem State.record_mem (e : Event) (s : State) :
    (s.record e).mem = s.mem := rfl
@[simp] theorem State.record_offers (e : Event) (s : State) :
    (s.record e).offers = s.offers := rfl
@[simp] theorem State.record_rst (e : Event) (s : State) :
    (s.record e).rst = s.rst := rfl
@[simp] theorem State.record_waitDone (e : Event) (s : State) :
    (s.record e).waitDone = s.waitDone := rfl
@[simp] theorem State.record_env (e : Event) (s : State) :
    (s.record e).env = s.env := rfl
@[simp] theorem State.record_resultHeld (e : Event) (s : State) :
    (s.record e).resultHeld = s.resultHeld := rfl
@[simp] theorem State.record_draw (e : Event) (s : State) :
    (s.record e).draw = s.draw := rfl
@[simp] theorem State.record_history (e : Event) (s : State) :
    (s.record e).history = e :: s.history := rfl
@[simp] theorem State.record_pace (e : Event) (s : State) :
    (s.record e).pace = s.pace := rfl

@[simp] theorem wait_phase (s : State) :
    (wait s).phase = s.phase := rfl
@[simp] theorem wait_busy (s : State) :
    (wait s).busy = s.busy := rfl
@[simp] theorem wait_done (s : State) :
    (wait s).done = s.done := rfl
@[simp] theorem wait_result (s : State) :
    (wait s).result = s.result := rfl
@[simp] theorem wait_cmdOp (s : State) :
    (wait s).cmdOp = s.cmdOp := rfl
@[simp] theorem wait_cmdAddr (s : State) :
    (wait s).cmdAddr = s.cmdAddr := rfl
@[simp] theorem wait_cmdA (s : State) :
    (wait s).cmdA = s.cmdA := rfl
@[simp] theorem wait_cmdB (s : State) :
    (wait s).cmdB = s.cmdB := rfl
@[simp] theorem wait_row (s : State) :
    (wait s).row = s.row := rfl
@[simp] theorem wait_col (s : State) :
    (wait s).col = s.col := rfl
@[simp] theorem wait_sample (s : State) :
    (wait s).sample = s.sample := rfl
@[simp] theorem wait_cand (s : State) :
    (wait s).cand = s.cand := rfl
@[simp] theorem wait_matchCount (s : State) :
    (wait s).matchCount = s.matchCount := rfl
@[simp] theorem wait_iter (s : State) :
    (wait s).iter = s.iter := rfl
@[simp] theorem wait_addrWidth (s : State) :
    (wait s).addrWidth = s.addrWidth := rfl
@[simp] theorem wait_ports (s : State) :
    (wait s).ports = s.ports := rfl
@[simp] theorem wait_mem (s : State) :
    (wait s).mem = s.mem := rfl
@[simp] theorem wait_offers (s : State) :
    (wait s).offers = s.offers := rfl
@[simp] theorem wait_rst (s : State) :
    (wait s).rst = s.rst := rfl
@[simp] theorem wait_waitDone (s : State) :
    (wait s).waitDone = s.waitDone := rfl
@[simp] theorem wait_env (s : State) :
    (wait s).env = s.env := rfl
@[simp] theorem wait_resultHeld (s : State) :
    (wait s).resultHeld = s.resultHeld := rfl
@[simp] theorem wait_draw (s : State) :
    (wait s).draw = s.draw := rfl
@[simp] theorem wait_history (s : State) :
    (wait s).history = .wait Config.debounceIntervalUs :: s.history := rfl
@[simp] theorem wait_pace (s : State) :
    (wait s).pace = s.pace := rfl

@[simp] theorem portRead_phase (b : Nat) (k : StoredReg) (s : State) :
    (portRead b k s).2.phase = s.phase := rfl
@[simp] theorem portRead_busy (b : Nat) (k : StoredReg) (s : State) :
    (portRead b k s).2.busy = s.busy := rfl
@[simp] theorem portRead_done (b : Nat) (k : StoredReg) (s : State) :
    (portRead b k s).2.done = s.done := rfl
@[simp] theorem portRead_result (b : Nat) (k : StoredReg) (s : State) :
    (portRead b k s).2.result = s.result := rfl
@[simp] theorem portRead_cmdOp (b : Nat) (k : StoredReg) (s : State) :
    (portRead b k s).2.cmdOp = s.cmdOp := rfl
@[simp] theorem portRead_cmdAddr (b : Nat) (k : StoredReg) (s : State) :
    (portRead b k s).2.cmdAddr = s.cmdAddr := rfl
@[simp] theorem portRead_cmdA (b : Nat) (k : StoredReg) (s : State) :
    (portRead b k s).2.cmdA = s.cmdA := rfl
@[simp] theorem portRead_cmdB (b : Nat) (k : StoredReg) (s : State) :
    (portRead b k s).2.cmdB = s.cmdB := rfl
@[simp] theorem portRead_row (b : Nat) (k : StoredReg) (s : State) :
    (portRead b k s).2.row = s.row := rfl
@[simp] theorem portRead_col (b : Nat) (k : StoredReg) (s : State) :
    (portRead b k s).2.col = s.col := rfl
@[simp] theorem portRead_sample (b : Nat) (k : StoredReg) (s : State) :
    (portRead b k s).2.sample = s.sample := rfl
@[simp] theorem portRead_cand (b : Nat) (k : StoredReg) (s : State) :
    (portRead b k s).2.cand = s.cand := rfl
@[simp] theorem portRead_matchCount (b : Nat) (k : StoredReg) (s : State) :
    (portRead b k s).2.matchCount = s.matchCount := rfl
@[simp] theorem portRead_iter (b : Nat) (k : StoredReg) (s : State) :
    (portRead b k s).2.iter = s.iter := rfl
@[simp] theorem portRead_addrWidth (b : Nat) (k : StoredReg) (s : State) :
    (portRead b k s).2.addrWidth = s.addrWidth := rfl
@[simp] theorem portRead_ports (b : Nat) (k : StoredReg) (s : State) :
    (portRead b k s).2.ports = s.ports := rfl
@[simp] theorem portRead_mem (b : Nat) (k : StoredReg) (s : State) :
    (portRead b k s).2.mem = s.mem := rfl
@[simp] theorem portRead_offers (b : Nat) (k : StoredReg) (s : State) :
    (portRead b k s).2.offers = s.offers := rfl
@[simp] theorem portRead_rst (b : Nat) (k : StoredReg) (s : State) :
    (portRead b k s).2.rst = s.rst := rfl
@[simp] theorem portRead_waitDone (b : Nat) (k : StoredReg) (s : State) :
    (portRead b k s).2.waitDone = s.waitDone := rfl
@[simp] theorem portRead_env (b : Nat) (k : StoredReg) (s : State) :
    (portRead b k s).2.env = s.env := rfl
@[simp] theorem portRead_resultHeld (b : Nat) (k : StoredReg) (s : State) :
    (portRead b k s).2.resultHeld = s.resultHeld := rfl
@[simp] theorem portRead_draw (b : Nat) (k : StoredReg) (s : State) :
    (portRead b k s).2.draw = s.draw := rfl
@[simp] theorem portRead_history (b : Nat) (k : StoredReg) (s : State) :
    (portRead b k s).2.history = .read (storedAddr b k) (Memory.get s.mem (storedAddr b k)) :: s.history := rfl
@[simp] theorem portRead_pace (b : Nat) (k : StoredReg) (s : State) :
    (portRead b k s).2.pace = s.pace := rfl

@[simp] theorem portWrite_phase (b : Nat) (k : StoredReg) (v : Byte) (s : State) :
    (portWrite b k v s).phase = s.phase := rfl
@[simp] theorem portWrite_busy (b : Nat) (k : StoredReg) (v : Byte) (s : State) :
    (portWrite b k v s).busy = s.busy := rfl
@[simp] theorem portWrite_done (b : Nat) (k : StoredReg) (v : Byte) (s : State) :
    (portWrite b k v s).done = s.done := rfl
@[simp] theorem portWrite_result (b : Nat) (k : StoredReg) (v : Byte) (s : State) :
    (portWrite b k v s).result = s.result := rfl
@[simp] theorem portWrite_cmdOp (b : Nat) (k : StoredReg) (v : Byte) (s : State) :
    (portWrite b k v s).cmdOp = s.cmdOp := rfl
@[simp] theorem portWrite_cmdAddr (b : Nat) (k : StoredReg) (v : Byte) (s : State) :
    (portWrite b k v s).cmdAddr = s.cmdAddr := rfl
@[simp] theorem portWrite_cmdA (b : Nat) (k : StoredReg) (v : Byte) (s : State) :
    (portWrite b k v s).cmdA = s.cmdA := rfl
@[simp] theorem portWrite_cmdB (b : Nat) (k : StoredReg) (v : Byte) (s : State) :
    (portWrite b k v s).cmdB = s.cmdB := rfl
@[simp] theorem portWrite_row (b : Nat) (k : StoredReg) (v : Byte) (s : State) :
    (portWrite b k v s).row = s.row := rfl
@[simp] theorem portWrite_col (b : Nat) (k : StoredReg) (v : Byte) (s : State) :
    (portWrite b k v s).col = s.col := rfl
@[simp] theorem portWrite_sample (b : Nat) (k : StoredReg) (v : Byte) (s : State) :
    (portWrite b k v s).sample = s.sample := rfl
@[simp] theorem portWrite_cand (b : Nat) (k : StoredReg) (v : Byte) (s : State) :
    (portWrite b k v s).cand = s.cand := rfl
@[simp] theorem portWrite_matchCount (b : Nat) (k : StoredReg) (v : Byte) (s : State) :
    (portWrite b k v s).matchCount = s.matchCount := rfl
@[simp] theorem portWrite_iter (b : Nat) (k : StoredReg) (v : Byte) (s : State) :
    (portWrite b k v s).iter = s.iter := rfl
@[simp] theorem portWrite_addrWidth (b : Nat) (k : StoredReg) (v : Byte) (s : State) :
    (portWrite b k v s).addrWidth = s.addrWidth := rfl
@[simp] theorem portWrite_ports (b : Nat) (k : StoredReg) (v : Byte) (s : State) :
    (portWrite b k v s).ports = s.ports := rfl
@[simp] theorem portWrite_mem (b : Nat) (k : StoredReg) (v : Byte) (s : State) :
    (portWrite b k v s).mem = Memory.set s.mem (storedAddr b k) v := rfl
@[simp] theorem portWrite_offers (b : Nat) (k : StoredReg) (v : Byte) (s : State) :
    (portWrite b k v s).offers = s.offers := rfl
@[simp] theorem portWrite_rst (b : Nat) (k : StoredReg) (v : Byte) (s : State) :
    (portWrite b k v s).rst = s.rst := rfl
@[simp] theorem portWrite_waitDone (b : Nat) (k : StoredReg) (v : Byte) (s : State) :
    (portWrite b k v s).waitDone = s.waitDone := rfl
@[simp] theorem portWrite_env (b : Nat) (k : StoredReg) (v : Byte) (s : State) :
    (portWrite b k v s).env = s.env := rfl
@[simp] theorem portWrite_resultHeld (b : Nat) (k : StoredReg) (v : Byte) (s : State) :
    (portWrite b k v s).resultHeld = s.resultHeld := rfl
@[simp] theorem portWrite_draw (b : Nat) (k : StoredReg) (v : Byte) (s : State) :
    (portWrite b k v s).draw = s.draw := rfl
@[simp] theorem portWrite_history (b : Nat) (k : StoredReg) (v : Byte) (s : State) :
    (portWrite b k v s).history = .write (storedAddr b k) v :: s.history := rfl
@[simp] theorem portWrite_pace (b : Nat) (k : StoredReg) (v : Byte) (s : State) :
    (portWrite b k v s).pace = s.pace := rfl

@[simp] theorem accept_phase (i : Instr) (s : State) :
    (accept i s).phase = firstPhase i := rfl
@[simp] theorem accept_busy (i : Instr) (s : State) :
    (accept i s).busy = true := rfl
@[simp] theorem accept_done (i : Instr) (s : State) :
    (accept i s).done = false := rfl
@[simp] theorem accept_result (i : Instr) (s : State) :
    (accept i s).result = s.result := rfl
@[simp] theorem accept_cmdOp (i : Instr) (s : State) :
    (accept i s).cmdOp = i.op := rfl
@[simp] theorem accept_cmdAddr (i : Instr) (s : State) :
    (accept i s).cmdAddr = s.offeredAddr % 2 ^ s.addrWidth := rfl
@[simp] theorem accept_cmdA (i : Instr) (s : State) :
    (accept i s).cmdA = i.a := rfl
@[simp] theorem accept_cmdB (i : Instr) (s : State) :
    (accept i s).cmdB = i.b := rfl
@[simp] theorem accept_row (i : Instr) (s : State) :
    (accept i s).row = s.row := rfl
@[simp] theorem accept_col (i : Instr) (s : State) :
    (accept i s).col = s.col := rfl
@[simp] theorem accept_sample (i : Instr) (s : State) :
    (accept i s).sample = s.sample := rfl
@[simp] theorem accept_cand (i : Instr) (s : State) :
    (accept i s).cand = s.cand := rfl
@[simp] theorem accept_matchCount (i : Instr) (s : State) :
    (accept i s).matchCount = s.matchCount := rfl
@[simp] theorem accept_iter (i : Instr) (s : State) :
    (accept i s).iter = s.iter := rfl
@[simp] theorem accept_addrWidth (i : Instr) (s : State) :
    (accept i s).addrWidth = s.addrWidth := rfl
@[simp] theorem accept_ports (i : Instr) (s : State) :
    (accept i s).ports = s.ports := rfl
@[simp] theorem accept_mem (i : Instr) (s : State) :
    (accept i s).mem = s.mem := rfl
@[simp] theorem accept_offers (i : Instr) (s : State) :
    (accept i s).offers = s.offers.tail := rfl
@[simp] theorem accept_rst (i : Instr) (s : State) :
    (accept i s).rst = s.rst := rfl
@[simp] theorem accept_waitDone (i : Instr) (s : State) :
    (accept i s).waitDone = s.waitDone := rfl
@[simp] theorem accept_env (i : Instr) (s : State) :
    (accept i s).env = s.env := rfl
@[simp] theorem accept_resultHeld (i : Instr) (s : State) :
    (accept i s).resultHeld = s.resultHeld := rfl
@[simp] theorem accept_draw (i : Instr) (s : State) :
    (accept i s).draw = s.draw := rfl
@[simp] theorem accept_history (i : Instr) (s : State) :
    (accept i s).history = s.history := rfl
@[simp] theorem accept_pace (i : Instr) (s : State) :
    (accept i s).pace = s.pace := rfl

@[simp] theorem complete_phase (v : Option Operand) (s : State) :
    (complete v s).phase = .idle := rfl
@[simp] theorem complete_busy (v : Option Operand) (s : State) :
    (complete v s).busy = false := rfl
@[simp] theorem complete_done (v : Option Operand) (s : State) :
    (complete v s).done = true := rfl
@[simp] theorem complete_result (v : Option Operand) (s : State) :
    (complete v s).result = v.getD s.result := rfl
@[simp] theorem complete_cmdOp (v : Option Operand) (s : State) :
    (complete v s).cmdOp = s.cmdOp := rfl
@[simp] theorem complete_cmdAddr (v : Option Operand) (s : State) :
    (complete v s).cmdAddr = s.cmdAddr := rfl
@[simp] theorem complete_cmdA (v : Option Operand) (s : State) :
    (complete v s).cmdA = s.cmdA := rfl
@[simp] theorem complete_cmdB (v : Option Operand) (s : State) :
    (complete v s).cmdB = s.cmdB := rfl
@[simp] theorem complete_row (v : Option Operand) (s : State) :
    (complete v s).row = s.row := rfl
@[simp] theorem complete_col (v : Option Operand) (s : State) :
    (complete v s).col = s.col := rfl
@[simp] theorem complete_sample (v : Option Operand) (s : State) :
    (complete v s).sample = s.sample := rfl
@[simp] theorem complete_cand (v : Option Operand) (s : State) :
    (complete v s).cand = s.cand := rfl
@[simp] theorem complete_matchCount (v : Option Operand) (s : State) :
    (complete v s).matchCount = s.matchCount := rfl
@[simp] theorem complete_iter (v : Option Operand) (s : State) :
    (complete v s).iter = s.iter := rfl
@[simp] theorem complete_addrWidth (v : Option Operand) (s : State) :
    (complete v s).addrWidth = s.addrWidth := rfl
@[simp] theorem complete_ports (v : Option Operand) (s : State) :
    (complete v s).ports = s.ports := rfl
@[simp] theorem complete_mem (v : Option Operand) (s : State) :
    (complete v s).mem = s.mem := rfl
@[simp] theorem complete_offers (v : Option Operand) (s : State) :
    (complete v s).offers = s.offers := rfl
@[simp] theorem complete_rst (v : Option Operand) (s : State) :
    (complete v s).rst = s.rst := rfl
@[simp] theorem complete_waitDone (v : Option Operand) (s : State) :
    (complete v s).waitDone = s.waitDone := rfl
@[simp] theorem complete_env (v : Option Operand) (s : State) :
    (complete v s).env = s.env := rfl
@[simp] theorem complete_resultHeld (v : Option Operand) (s : State) :
    (complete v s).resultHeld = (s.resultHeld || v.isSome) := rfl
@[simp] theorem complete_draw (v : Option Operand) (s : State) :
    (complete v s).draw = s.draw := rfl
@[simp] theorem complete_history (v : Option Operand) (s : State) :
    (complete v s).history = .ret v :: s.history := rfl
@[simp] theorem complete_pace (v : Option Operand) (s : State) :
    (complete v s).pace = s.pace := rfl

@[simp] theorem portReadIn_phase (b : Nat) (s : State) :
    (portReadIn b s).2.phase = s.phase := rfl
@[simp] theorem portReadIn_busy (b : Nat) (s : State) :
    (portReadIn b s).2.busy = s.busy := rfl
@[simp] theorem portReadIn_done (b : Nat) (s : State) :
    (portReadIn b s).2.done = s.done := rfl
@[simp] theorem portReadIn_result (b : Nat) (s : State) :
    (portReadIn b s).2.result = s.result := rfl
@[simp] theorem portReadIn_cmdOp (b : Nat) (s : State) :
    (portReadIn b s).2.cmdOp = s.cmdOp := rfl
@[simp] theorem portReadIn_cmdAddr (b : Nat) (s : State) :
    (portReadIn b s).2.cmdAddr = s.cmdAddr := rfl
@[simp] theorem portReadIn_cmdA (b : Nat) (s : State) :
    (portReadIn b s).2.cmdA = s.cmdA := rfl
@[simp] theorem portReadIn_cmdB (b : Nat) (s : State) :
    (portReadIn b s).2.cmdB = s.cmdB := rfl
@[simp] theorem portReadIn_row (b : Nat) (s : State) :
    (portReadIn b s).2.row = s.row := rfl
@[simp] theorem portReadIn_col (b : Nat) (s : State) :
    (portReadIn b s).2.col = s.col := rfl
@[simp] theorem portReadIn_sample (b : Nat) (s : State) :
    (portReadIn b s).2.sample = s.sample := rfl
@[simp] theorem portReadIn_cand (b : Nat) (s : State) :
    (portReadIn b s).2.cand = s.cand := rfl
@[simp] theorem portReadIn_matchCount (b : Nat) (s : State) :
    (portReadIn b s).2.matchCount = s.matchCount := rfl
@[simp] theorem portReadIn_iter (b : Nat) (s : State) :
    (portReadIn b s).2.iter = s.iter := rfl
@[simp] theorem portReadIn_addrWidth (b : Nat) (s : State) :
    (portReadIn b s).2.addrWidth = s.addrWidth := rfl
@[simp] theorem portReadIn_ports (b : Nat) (s : State) :
    (portReadIn b s).2.ports = s.ports := rfl
@[simp] theorem portReadIn_mem (b : Nat) (s : State) :
    (portReadIn b s).2.mem = s.mem := rfl
@[simp] theorem portReadIn_offers (b : Nat) (s : State) :
    (portReadIn b s).2.offers = s.offers := rfl
@[simp] theorem portReadIn_rst (b : Nat) (s : State) :
    (portReadIn b s).2.rst = s.rst := rfl
@[simp] theorem portReadIn_waitDone (b : Nat) (s : State) :
    (portReadIn b s).2.waitDone = s.waitDone := rfl
@[simp] theorem portReadIn_resultHeld (b : Nat) (s : State) :
    (portReadIn b s).2.resultHeld = s.resultHeld := rfl
@[simp] theorem portReadIn_history (b : Nat) (s : State) :
    (portReadIn b s).2.history = .read (inAddr b) (portReadIn b s).1 :: s.history := rfl
@[simp] theorem portReadIn_pace (b : Nat) (s : State) :
    (portReadIn b s).2.pace = s.pace := rfl

@[simp] theorem portRead_fst (b : Nat) (k : StoredReg) (s : State) :
    (portRead b k s).1 = Memory.get s.mem (storedAddr b k) := rfl

end Sys2Proof.Machine
end

