-- ==== Sys2Proof/Laws/Ops.lean ====
section
/-! SUPPORT. What each shared operation can do, said once: loops, bit operations, reads of IN, and the acceptance of a command. -/

namespace Sys2Proof.Machine

theorem storedAddr_ne (base : Nat) : storedAddr base .dir ≠ storedAddr base .out := by
  simp [storedAddr, Config.offDir, Config.offOut]

theorem forEach_zero (body : Nat → State → State) (s : State) : forEach 0 body s = s := rfl

theorem forEach_succ (n : Nat) (body : Nat → State → State) (s : State) :
    forEach (n + 1) body s = body n (forEach n body s) := by
  simp [forEach, List.range_succ]

/-- Anything that holds before a loop and that each pass carries on holds after it. -/
theorem forEach_induct {P : Nat → State → Prop} {body : Nat → State → State} {s : State} (n : Nat) (h0 : P 0 s)
    (hs : ∀ i t, i < n → P i t → P (i + 1) (body i t)) : P n (forEach n body s) := by
  induction n with
  | zero => exact h0
  | succ n ih =>
    rw [forEach_succ]
    exact hs n _ (by omega) (ih fun i t hi => hs i t (by omega))

/-- A bit operation is one write of the new value after one read (R33). -/
theorem portSetBit_eq (base : Nat) (k : StoredReg) (n : Nat) (s : State) :
    portSetBit base k n s =
      { s with
        mem := Memory.set s.mem (storedAddr base k) (Memory.get s.mem (storedAddr base k) ||| bit n)
        history := .write (storedAddr base k) (Memory.get s.mem (storedAddr base k) ||| bit n) ::
          .read (storedAddr base k) (Memory.get s.mem (storedAddr base k)) :: s.history } := rfl

/-- A bit operation is one write of the new value after one read (R34). -/
theorem portClearBit_eq (base : Nat) (k : StoredReg) (n : Nat) (s : State) :
    portClearBit base k n s =
      { s with
        mem := Memory.set s.mem (storedAddr base k) (Memory.get s.mem (storedAddr base k) &&& ~~~bit n)
        history := .write (storedAddr base k) (Memory.get s.mem (storedAddr base k) &&& ~~~bit n) ::
          .read (storedAddr base k) (Memory.get s.mem (storedAddr base k)) :: s.history } := rfl

/-- A read of IN changes only the environment, the draws and the history (R31). -/
theorem portReadIn_eq (base : Nat) (s : State) :
    (portReadIn base s).2 =
      { s with
        env := (s.env.next s.draw (s.dir base) (s.out base)).2.1
        draw := (s.env.next s.draw (s.dir base) (s.out base)).2.2
        history := .read (inAddr base) (portReadIn base s).1 :: s.history } := rfl

@[simp] theorem portReadIn_dir (base base' : Nat) (s : State) : ((portReadIn base s).2).dir base' = s.dir base' := rfl
@[simp] theorem portReadIn_out (base base' : Nat) (s : State) : ((portReadIn base s).2).out base' = s.out base' := rfl

theorem inSpace_iff (aw a : Nat) : inSpace aw a = true ↔ a < 2 ^ aw := by simp [inSpace]

theorem inSpace_mono {aw a b : Nat} (h : inSpace aw b = true) (hab : a ≤ b) : inSpace aw a = true := by
  rw [inSpace_iff] at h ⊢
  omega

/-- What acceptance latches of an address fits CMD_ADDR (R19). -/
theorem inSpace_mod (aw a : Nat) : inSpace aw (a % 2 ^ aw) = true :=
  (inSpace_iff _ _).2 (Nat.mod_lt _ (Nat.two_pow_pos aw))

/-- What a command does when it is accepted, and when it is not. -/
theorem runCommand_cases (i : Instr) (s : State) (body : State → Answer) :
    (s.busy = true ∧ runCommand i s body = .next s) ∨
    (s.busy = false ∧ ∃ r, domainRefusal i s.offeredAddr s.addrWidth s.ports = some r ∧ runCommand i s body = .refused r) ∨
    (s.busy = false ∧ domainRefusal i s.offeredAddr s.addrWidth s.ports = none ∧ runCommand i s body = body (accept i s)) := by
  unfold runCommand
  cases hb : s.busy with
  | true => simp
  | false =>
    cases hd : domainRefusal i s.offeredAddr s.addrWidth s.ports with
    | some r => simp
    | none => simp

theorem rowsOf_lt (d : Descriptor) : rowsOf d < 8 := by
  have : ∀ d : Descriptor, rowsOf d < 8 := by decide
  exact this d

theorem colsOf_lt (d : Descriptor) : colsOf d < 8 := by
  have : ∀ d : Descriptor, colsOf d < 8 := by decide
  exact this d

end Sys2Proof.Machine
end

