-- ==== Sys2Proof/Laws/Commands.lean ====
section
/-! SUPPORT. What a command inside its domain does, said once: its acceptance, the frame of the debounced read, the one fault of a step, what
writes keep of the invariant, and the unfolding of a run by one step. -/

namespace Sys2Proof.Machine

theorem operandRefusal_wellFormed {i : Instr} (h : i.wellFormed = true) : operandRefusal i = none := by
  unfold operandRefusal
  rw [if_pos h]

/-- ENCODE has an effect on every pair (R70). -/
theorem operandRefusal_encode (rows cols : Operand) : operandRefusal (.encode rows cols) = none := by
  unfold operandRefusal
  split <;> rfl

theorem addressRefusal_offered {k : PortReg} {base : Nat} {s : State} (h : OfferedAt k base s) :
    addressRefusal k s.offeredAddr s.addrWidth s.ports = none := by
  obtain ⟨-, hp, hs, ha⟩ := h
  have h1 : inSpace s.addrWidth (highestAddr k s.offeredAddr) = true := by
    refine inSpace_mono hs ?_
    rw [ha]
    cases k <;> simp [highestAddr, regOffset, inAddr]
  have h2 : s.ports.contains (s.offeredAddr - regOffset k) = true := by
    rw [ha]
    simpa using hp
  unfold addressRefusal
  simp only [h1, h2]
  simp [ha]

theorem domainRefusal_offered {i : Instr} {base : Nat} {s : State} (hb : operandRefusal i = none)
    (h : ∀ k, addressed i = some k → OfferedAt k base s) : domainRefusal i s.offeredAddr s.addrWidth s.ports = none := by
  unfold domainRefusal
  rw [hb]
  cases hk : addressed i with
  | none => rfl
  | some k => exact addressRefusal_offered (h k hk)

/-- A command inside its domain, offered to a free block, runs from its acceptance. -/
theorem runCommand_offered {i : Instr} {base : Nat} {s : State} (body : State → Answer) (hb : s.busy = false)
    (hw : operandRefusal i = none) (h : ∀ k, addressed i = some k → OfferedAt k base s) :
    runCommand i s body = body (accept i s) := by
  unfold runCommand
  rw [domainRefusal_offered hw h, hb]
  rfl

/-- CMD_ADDR holds the address operand of an accepted command whole (R23). -/
theorem accept_cmdAddr_offered {i : Instr} {k : PortReg} {base : Nat} {s : State} (h : OfferedAt k base s) :
    (accept i s).cmdAddr = base + regOffset k := by
  have hs : s.offeredAddr < 2 ^ s.addrWidth := by
    refine (inSpace_iff _ _).1 (inSpace_mono h.2.2.1 ?_)
    rw [h.2.2.2]
    cases k <;> simp [regOffset, inAddr]
  exact (Nat.mod_eq_of_lt hs).trans h.2.2.2

/-- A domain that refuses nothing has well-formed operands, but for ENCODE. -/
theorem wellFormed_of_domain {i : Instr} {addr aw : Nat} {ports : List Nat} (h : domainRefusal i addr aw ports = none)
    (hop : i.op ≠ 0#4) : i.wellFormed = true := by
  unfold domainRefusal at h
  split at h
  · cases h
  · rename_i ho
    unfold operandRefusal at ho
    split at ho
    · assumption
    · cases i <;> first | exact absurd rfl hop | (simp at ho; done) | (rename_i hn; exact absurd rfl hn)

/-- The base of an accepted command's port is a port of the platform. -/
theorem portBase_mem {i : Instr} {addr aw : Nat} {ports : List Nat} {k : PortReg} (h : domainRefusal i addr aw ports = none)
    (hk : addressed i = some k) : portBase i addr ∈ ports := by
  unfold domainRefusal at h
  split at h
  · cases h
  · rw [hk] at h
    simp only [addressRefusal] at h
    split at h
    · cases h
    · split at h
      · rename_i hc
        simp only [Bool.and_eq_true, List.contains_iff_mem] at hc
        simp only [portBase, hk]
        exact hc.2
      · cases h

/-- The address of an offered command's port is the base it names. -/
theorem portBase_offered {i : Instr} {k : PortReg} {base : Nat} {s : State} (hk : addressed i = some k) (h : OfferedAt k base s) :
    portBase i s.offeredAddr = base := by
  simp [portBase, hk, h.2.2.2]

/-- The legal shapes of R6, one by one. -/
theorem legalShape_cases {rows cols : Operand} (h : legalShape rows.toNat cols.toNat = true) :
    (rows, cols) ∈ [(3#8, 3#8), (3#8, 4#8), (3#8, 5#8), (4#8, 3#8), (4#8, 4#8), (5#8, 3#8)] := by
  have hb : 3 ≤ rows.toNat ∧ rows.toNat ≤ 5 ∧ 3 ≤ cols.toNat ∧ cols.toNat ≤ 8 - rows.toNat := by
    simpa [legalShape, Config.colsMax, and_assoc, Nat.ble_eq] using h
  have hr : rows = BitVec.ofNat 8 rows.toNat := by simp
  have hc : cols = BitVec.ofNat 8 cols.toNat := by simp
  have : (rows.toNat = 3 ∧ cols.toNat = 3) ∨ (rows.toNat = 3 ∧ cols.toNat = 4) ∨ (rows.toNat = 3 ∧ cols.toNat = 5) ∨
      (rows.toNat = 4 ∧ cols.toNat = 3) ∨ (rows.toNat = 4 ∧ cols.toNat = 4) ∨ (rows.toNat = 5 ∧ cols.toNat = 3) := by omega
  rcases this with ⟨h1, h2⟩ | ⟨h1, h2⟩ | ⟨h1, h2⟩ | ⟨h1, h2⟩ | ⟨h1, h2⟩ | ⟨h1, h2⟩ <;>
    rw [hr, hc, h1, h2] <;> decide

/-- `t` differs from `s` in what sampling and debouncing change (R100, R102) and in nothing else: the registers SAMPLE, COL, CAND, MATCH and
ITER, the environment, the draws and the history. -/
def SampledFrom (s t : State) : Prop :=
  t = { s with
    sample := t.sample, col := t.col, cand := t.cand, matchCount := t.matchCount, iter := t.iter
    env := t.env, draw := t.draw, history := t.history }

theorem SampledFrom.trans {s t u : State} (h : SampledFrom s t) (h' : SampledFrom t u) : SampledFrom s u := by
  unfold SampledFrom at *
  refine h'.trans ?_
  rw [h]

theorem debounceFirst_sampled (base : Nat) (desc : Descriptor) (s : State) : SampledFrom s (debounceFirst base desc s) := rfl

theorem debounceSample_sampled (base : Nat) (desc : Descriptor) (s : State) : SampledFrom s (debounceSample base desc s) := rfl

theorem debounceWait_sampled (s : State) : SampledFrom s (debounceWait s) := rfl

theorem debounceLoop_sampled (base : Nat) (desc : Descriptor) (n : Nat) (s : State) :
    SampledFrom s (debounceLoop base desc n s).2 := by
  induction n generalizing s with
  | zero => rfl
  | succ n ih =>
    have h := (debounceWait_sampled s).trans (debounceSample_sampled base desc (debounceWait s))
    unfold debounceLoop
    dsimp only
    split
    · exact h
    · exact h.trans (ih _)

/-- The debounced read is a sampling of the state it starts in: it writes no port register and not RESULT (R102). -/
theorem debounced_sampled (base : Nat) (desc : Descriptor) (s : State) : SampledFrom s (debounced base desc s).2 :=
  (debounceFirst_sampled base desc s).trans (debounceLoop_sampled base desc _ _)

theorem isStoredReg_port {ports : List Nat} {base : Nat} (k : StoredReg) (h : base ∈ ports) :
    isStoredReg ports (storedAddr base k) = true := by
  simp only [isStoredReg, List.any_eq_true]
  refine ⟨base, h, ?_⟩
  cases k <;> simp

theorem onlyPortRegs_push {ports : List Nat} {a : Nat} {v : Byte} {m : List Host.Cell} (h : onlyPortRegs m ports = true)
    (ha : isStoredReg ports a = true) : onlyPortRegs (Memory.push a v m) ports = true := by
  unfold Memory.push
  split
  · exact h
  · simp only [onlyPortRegs, List.all_cons, ha, Bool.true_and]
    exact h

/-- A write to DIR or OUT of a port keeps memory free of anything else (R32). -/
theorem onlyPortRegs_set {ports : List Nat} {a : Nat} {v : Byte} {m : List Host.Cell} (h : onlyPortRegs m ports = true)
    (ha : isStoredReg ports a = true) : onlyPortRegs (Memory.set m a v) ports = true := by
  induction m with
  | nil => exact onlyPortRegs_push h ha
  | cons c m ih =>
    obtain ⟨b, w⟩ := c
    have h' := h
    simp only [onlyPortRegs, List.all_cons, Bool.and_eq_true] at h'
    unfold Memory.set
    split
    · exact onlyPortRegs_push h ha
    · split
      · exact onlyPortRegs_push h'.2 ha
      · simp only [onlyPortRegs, List.all_cons, Bool.and_eq_true]
        exact ⟨h'.1, ih h'.2⟩

theorem runCommand_fault {i : Instr} {s : State} {body : State → Answer} {r : Fault} (h : runCommand i s body = .fault r) :
    body (accept i s) = .fault r := by
  rcases runCommand_cases i s body with ⟨_, q⟩ | ⟨_, _, _, q⟩ | ⟨_, _, q⟩ <;> rw [q] at h
  · cases h
  · cases h
  · exact h

/-- A whole command faults only where it waits and no wait ends (R130, R139). -/
theorem exec_fault {i : Instr} {s : State} {r : Fault} (h : exec i s = .fault r) :
    s.waitDone = false ∧ (i.op = 7#4 ∨ i.op = 8#4) := by
  cases i <;>
    simp only [exec, execEncode, execDecodeRows, execDecodeCols, execConfigure, execResetRows, execAssertRowLow, execReadColumns,
      execReadColumnsDebounced, execScan] at h <;>
    have h := runCommand_fault h
  case readColumnsDebounced | scan =>
    simp only [ifWaitsEnd] at h
    split at h
    · cases h
    · rename_i hw
      exact ⟨by simpa using hw, by simp [Instr.op]⟩
  all_goals cases h

/-- A step faults only as a whole command that waits while no wait ends; nothing else stops the machine with a fault. -/
theorem step_fault {s : State} {r : Fault} (h : step s = .fault r) : s.waitDone = false ∧ s.busy = false ∧ s.pace = .wholeCommand := by
  unfold step at h
  split at h
  · cases h
  split at h
  · unfold eventStep at h
    repeat' split at h
    all_goals cases h
  rename_i hb
  split at h
  · cases h
  unfold withDecoded at h
  split at h
  · split at h
    · exact ⟨(exec_fault h).1, by simpa using hb, by assumption⟩
    · cases runCommand_fault h
  · cases h
  · cases h

/-- A run of one step more. -/
theorem run_succ {n : Nat} {s t : State} (h : step s = .next t) :
    Host.Core.run Sys2Proof.core (n + 1) s = Host.Core.run Sys2Proof.core n t := by
  have e : Host.Core.run Sys2Proof.core (n + 1) s = _ := Host.Core.run.eq_2 Sys2Proof.core s n
  refine e.trans ?_
  have h' : Sys2Proof.core.step s = .next t := h
  rw [h']

end Sys2Proof.Machine
end

