-- ==== Sys2Proof/Laws/PerInstr.lean ====
section
/-! SUPPORT. What holds of each instruction as syntax, one lemma per constructor. -/

namespace Sys2Proof

theorem fieldOp_wordOf (op : BitVec 4) (b a : Operand) : fieldOp (wordOf op b a) = op := by
  apply BitVec.eq_of_getLsbD_eq
  intro i hi
  simp only [fieldOp, wordOf, BitVec.getLsbD_extractLsb', BitVec.getLsbD_append, Config.opWidth]
  rw [if_neg (by omega), if_neg (by omega)]
  simp [hi, show 16 + i - 8 - 8 = i by omega]

theorem fieldB_wordOf (op : BitVec 4) (b a : Operand) : fieldB (wordOf op b a) = b := by
  apply BitVec.eq_of_getLsbD_eq
  intro i (hi : i < 8)
  simp only [fieldB, wordOf, BitVec.getLsbD_extractLsb', BitVec.getLsbD_append, Config.opWidth]
  rw [if_neg (by omega), if_pos (by omega)]
  simp [hi]

theorem fieldA_wordOf (op : BitVec 4) (b a : Operand) : fieldA (wordOf op b a) = a := by
  apply BitVec.eq_of_getLsbD_eq
  intro i (hi : i < 8)
  simp only [fieldA, wordOf, BitVec.getLsbD_extractLsb', BitVec.getLsbD_append, Config.opWidth]
  rw [if_pos (by omega)]
  simp [hi]

/-- The encoder's word holds the opcode and the operands in the fields of R52, and b is 0 where R55 says so. -/
def Laws.EncodedFields.Statement (i : Instr) : Prop :=
  fieldOp (encode i) = i.op ∧ fieldB (encode i) = i.b ∧ fieldA (encode i) = i.a ∧ (i.op ≠ 0#4 → i.op ≠ 3#4 → i.b = 0#8)

theorem Laws.EncodedFields.encode (rows cols : Operand) : Laws.EncodedFields.Statement (.encode rows cols) :=
  ⟨fieldOp_wordOf _ _ _, fieldB_wordOf _ _ _, fieldA_wordOf _ _ _, fun h => absurd rfl h⟩

theorem Laws.EncodedFields.decodeRows (desc : Descriptor) : Laws.EncodedFields.Statement (.decodeRows desc) :=
  ⟨fieldOp_wordOf _ _ _, fieldB_wordOf _ _ _, fieldA_wordOf _ _ _, fun _ _ => rfl⟩

theorem Laws.EncodedFields.decodeCols (desc : Descriptor) : Laws.EncodedFields.Statement (.decodeCols desc) :=
  ⟨fieldOp_wordOf _ _ _, fieldB_wordOf _ _ _, fieldA_wordOf _ _ _, fun _ _ => rfl⟩

theorem Laws.EncodedFields.configure (rows cols : Operand) : Laws.EncodedFields.Statement (.configure rows cols) :=
  ⟨fieldOp_wordOf _ _ _, fieldB_wordOf _ _ _, fieldA_wordOf _ _ _, fun _ h => absurd rfl h⟩

theorem Laws.EncodedFields.resetRows (desc : Descriptor) : Laws.EncodedFields.Statement (.resetRows desc) :=
  ⟨fieldOp_wordOf _ _ _, fieldB_wordOf _ _ _, fieldA_wordOf _ _ _, fun _ _ => rfl⟩

theorem Laws.EncodedFields.assertRowLow (rowIndex : Operand) : Laws.EncodedFields.Statement (.assertRowLow rowIndex) :=
  ⟨fieldOp_wordOf _ _ _, fieldB_wordOf _ _ _, fieldA_wordOf _ _ _, fun _ _ => rfl⟩

theorem Laws.EncodedFields.readColumns (desc : Descriptor) : Laws.EncodedFields.Statement (.readColumns desc) :=
  ⟨fieldOp_wordOf _ _ _, fieldB_wordOf _ _ _, fieldA_wordOf _ _ _, fun _ _ => rfl⟩

theorem Laws.EncodedFields.readColumnsDebounced (desc : Descriptor) : Laws.EncodedFields.Statement (.readColumnsDebounced desc) :=
  ⟨fieldOp_wordOf _ _ _, fieldB_wordOf _ _ _, fieldA_wordOf _ _ _, fun _ _ => rfl⟩

theorem Laws.EncodedFields.scan (desc : Descriptor) : Laws.EncodedFields.Statement (.scan desc) :=
  ⟨fieldOp_wordOf _ _ _, fieldB_wordOf _ _ _, fieldA_wordOf _ _ _, fun _ _ => rfl⟩

end Sys2Proof
end

