-- ==== Sys2Proof/Tests/Slice0.lean ====
section
/-! SUPPORT. Small tests, each one command or one step, with results taken from 95_test_vectors or worked out from the rules; and for every
statement with hypotheses a witness that meets them. -/

namespace Sys2Proof.Tests

open Sys2Proof.Machine

/-- A platform whose port at 0x24 holds DIR and OUT, with a command for the register `k` on the interface. -/
def bench (dir out : Byte) (env : Env) (k : PortReg) : State :=
  { State.reset with
    mem := Memory.set (Memory.set [] 0x24 dir) 0x25 out
    env := env
    offers := [{ word := 0#20, addr := 0x24 + regOffset k }] }

/-- The same with a command word, steps being single events. -/
def offering (w : CmdWord) (k : PortReg) : State :=
  { bench 0x8F#8 0x80#8 .free k with
    offers := [{ word := w, addr := 0x24 + regOffset k }]
    pace := .oneEvent }

/-- An operation in progress at a position of its pseudocode. -/
def running (i : Instr) (k : PortReg) (p : Phase) : State :=
  { accept i (bench 0x8F#8 0x8E#8 (.script [0xEF#8, 0xDF#8]) k) with phase := p }

/-- An answer that is a next state with a property. -/
def nextWith (p : State → Bool) : Answer → Bool
  | .next t => p t
  | .fault _ => false
  | .refused _ => false

/-- An answer that is the refusal `r`. -/
def refusedAs (r : Refusal) : Answer → Bool
  | .next _ => false
  | .fault _ => false
  | .refused r' => r' == r

/-- Port accesses since reset. -/
def accesses (s : State) : Nat := countReads s.history + countWrites s.history

/-! ### Well-formedness: an ill-formed term for each check -/

theorem test_wellFormed_accepts :
    ((Instr.configure 4#8 3#8).wellFormed && (Instr.scan 0x34#8).wellFormed && (Instr.assertRowLow 7#8).wellFormed &&
      (Instr.decodeRows 0xFF#8).wellFormed && (Instr.decodeCols 0xFF#8).wellFormed) = true := by decide
theorem test_illFormed_rows_below_three : (Instr.configure 2#8 3#8).wellFormed = false := by decide
theorem test_illFormed_rows_above_five : (Instr.encode 6#8 3#8).wellFormed = false := by decide
theorem test_illFormed_cols_below_three : (Instr.encode 3#8 2#8).wellFormed = false := by decide
theorem test_illFormed_cols_above_eight_less_rows : (Instr.configure 5#8 4#8).wellFormed = false := by decide
theorem test_illFormed_reserved_bit_three : (Instr.resetRows 0x3C#8).wellFormed = false := by decide
theorem test_illFormed_reserved_bit_seven : (Instr.readColumns 0xB4#8).wellFormed = false := by decide
theorem test_illFormed_descriptor_rows : (Instr.readColumnsDebounced 0x32#8).wellFormed = false := by decide
theorem test_illFormed_descriptor_cols : (Instr.scan 0x54#8).wellFormed = false := by decide
theorem test_illFormed_row_index : (Instr.assertRowLow 8#8).wellFormed = false := by decide

/-! ### Words written out, `oooo bbbbbbbb aaaaaaaa` (R52, R55; T1, T2) -/

theorem test_word_encode : decodeWord 0b00000000001100000100#20 = .instr (.encode 4#8 3#8) := by decide
theorem test_word_decodeRows : decodeWord 0b00010000000000111100#20 = .instr (.decodeRows 0x3C#8) := by decide
theorem test_word_decodeCols : decodeWord 0b00100000000010110100#20 = .instr (.decodeCols 0xB4#8) := by decide
theorem test_word_configure : decodeWord 0b00110000001100000100#20 = .instr (.configure 4#8 3#8) := by decide
theorem test_word_resetRows : decodeWord 0b01000000000000110100#20 = .instr (.resetRows 0x34#8) := by decide
theorem test_word_assertRowLow : decodeWord 0b01010000000000000010#20 = .instr (.assertRowLow 2#8) := by decide
theorem test_word_readColumns : decodeWord 0b01100000000000110100#20 = .instr (.readColumns 0x34#8) := by decide
theorem test_word_readColumnsDebounced :
    decodeWord 0b01110000000000110100#20 = .instr (.readColumnsDebounced 0x34#8) := by decide
theorem test_word_scan : decodeWord 0b10000000000000110100#20 = .instr (.scan 0x34#8) := by decide
theorem test_word_reserved_operand : decodeWord 0b00010000000100110100#20 = .reservedOperand := by decide
theorem test_word_reserved_opcode : decodeWord 0b10010000000000000000#20 = .reservedOpcode := by decide
theorem test_encode_words :
    encode (.configure 4#8 3#8) = 0x30304#20 ∧ encode (.scan 0x34#8) = 0x80034#20 := by decide
theorem test_table_words :
    decodeTableWord 20 0x30305 = some (.configure 5#8 3#8) ∧ decodeTableWord 24 0x90000 = none ∧
      decodeTableWord 24 0x100000 = none := by decide

/-! ### The operations, one command each -/

/-- T1. -/
theorem test_encode_example :
    nextWith (fun t => t.result == 0x34#8 && t.resultValid) (exec (.encode 4#8 3#8) State.reset) = true := by decide
/-- T1: outside the domain the operation completes (U1). -/
theorem test_encode_outside_domain_completes :
    nextWith (fun t => t.done && !t.busy) (exec (.encode 5#8 4#8) State.reset) = true := by decide
/-- T1: reserved bit 3 is ignored. -/
theorem test_decodeRows_masks : nextWith (fun t => t.result == 4#8) (exec (.decodeRows 0x3C#8) State.reset) = true := by decide
/-- T1: reserved bit 7 is masked off before the shift. -/
theorem test_decodeCols_masks : nextWith (fun t => t.result == 3#8) (exec (.decodeCols 0xB4#8) State.reset) = true := by decide
/-- T3, first row. -/
theorem test_configure_first_row :
    nextWith (fun t => t.dir 0x24 == 0x8F#8 && t.out 0x24 == 0x85#8 && t.result == 0x34#8 && accesses t == 20)
      (exec (.configure 4#8 3#8) (bench 0xF0#8 0xF5#8 .free .direction)) = true := by decide
/-- T3, fourth row. -/
theorem test_configure_widest_row :
    nextWith (fun t => t.dir 0x24 == 0x07#8 && t.out 0x24 == 0x02#8 && t.result == 0x53#8 && accesses t == 26)
      (exec (.configure 3#8 5#8) (bench 0xA5#8 0x5A#8 .free .direction)) = true := by decide
/-- T4. -/
theorem test_resetRows_keeps_other_bits :
    nextWith (fun t => t.out 0x24 == 0x8F#8 && accesses t == 8 && !t.resultValid)
      (exec (.resetRows 0x34#8) (bench 0x8F#8 0x85#8 .free .output)) = true := by decide
/-- T4: cols field unused. -/
theorem test_resetRows_three_rows :
    nextWith (fun t => t.out 0x24 == 0x07#8 && accesses t == 6)
      (exec (.resetRows 0x53#8) (bench 0x07#8 0x02#8 .free .output)) = true := by decide
/-- T4. -/
theorem test_assertRowLow_row :
    nextWith (fun t => t.out 0x24 == 0x8B#8 &&
        t.history == [.ret none, .write 0x25 0x8B#8, .read 0x25 0x8F#8])
      (exec (.assertRowLow 2#8) (bench 0x8F#8 0x8F#8 .free .output)) = true := by decide
/-- T4: performed as written (U4). -/
theorem test_assertRowLow_unrelated_bit :
    nextWith (fun t => t.out 0x24 == 0x0F#8) (exec (.assertRowLow 7#8) (bench 0x8F#8 0x8F#8 .free .output)) = true := by decide
/-- P5, command 3. -/
theorem test_readColumns_program :
    nextWith (fun t => t.result == 2#8 && t.sample == 0xBD#8)
      (exec (.readColumns 0x34#8) (bench 0x8F#8 0x8D#8 (.idealMatrix 0x34#8 [(1, 2)]) .input)) = true := by decide
/-- T5: lowest column wins; nothing active gives 5. -/
theorem test_readColumns_priority :
    (colEnc 0x8F#8 0x33#8, colEnc 0x3F#8 0x43#8, colEnc 0x7F#8 0x53#8, colEnc 0xF7#8 0x34#8) = (1#3, 3#3, 4#3, 5#3) := by decide
/-- T6 e: three equal reads are not enough. -/
theorem test_debounced_key_released :
    nextWith (fun t => t.result == 5#8 && countReads t.history == 7 && countWaits t.history == 6)
      (exec (.readColumnsDebounced 0x34#8)
        (bench 0x8F#8 0x8E#8 (.script [0xDF#8, 0xDF#8, 0xDF#8, 0xFF#8, 0xFF#8, 0xFF#8, 0xFF#8]) .input)) = true := by decide
/-- T6 g: confirmed in the last iteration. -/
theorem test_debounced_last_iteration :
    nextWith (fun t => t.result == 2#8 && countReads t.history == 11 && countWaits t.history == 10)
      (exec (.readColumnsDebounced 0x34#8)
        (bench 0x8F#8 0x8E#8 (.script [0xEF#8, 0xDF#8, 0xEF#8, 0xDF#8, 0xEF#8, 0xDF#8, 0xEF#8, 0xBF#8, 0xBF#8, 0xBF#8, 0xBF#8])
          .input)) = true := by decide
/-- T7: the key (2,1); row 2 is left low. -/
theorem test_scan_finds_key :
    nextWith (fun t => t.result == 7#8 && t.out 0x24 == 0x8B#8 && accesses t == 42 && countWaits t.history == 9)
      (exec (.scan 0x34#8) (bench 0x8F#8 0x80#8 (.idealMatrix 0x34#8 [(2, 1)]) .direction)) = true := by decide
/-- T7: no key; the sentinel is 9 for (3,3), and bits 6 and 7 are kept. -/
theorem test_scan_sentinel :
    nextWith (fun t => t.result == 9#8 && t.out 0x24 == 0xC7#8 && accesses t == 42 && countWaits t.history == 9)
      (exec (.scan 0x33#8) (bench 0xC7#8 0xC0#8 (.idealMatrix 0x33#8 []) .direction)) = true := by decide

/-! ### Steps -/

/-- A program's first command after reset: the word the host offers is run by the very next step. -/
theorem test_step_runs_offered_word :
    nextWith (fun t => t.result == 0x34#8 && t.dir 0x24 == 0x0F#8) (step (State.reset.withFetchWord 20 0x30304)) = true := by decide
/-- R151: a reset between the read and the write of a bit operation loses it, and the block is idle. -/
theorem test_reset_abandons_operation :
    nextWith (fun t => t.phase == .idle && !t.busy && !t.done && t.out 0x24 == 0x8E#8)
      (step { running (.resetRows 0x34#8) .output (.resetRow (.wr 0 0x8E#8)) with rst := true }) = true := by decide
/-- R104: the read that confirms moves on to DB_DONE with its value. -/
theorem test_debounce_confirms :
    nextWith (fun t => t.phase == .ret (some 0#8) && t.matchCount == 3#2)
      (step { running (.readColumnsDebounced 0x34#8) .input .dbSample with
        cand := 0#3, matchCount := 2#2, iter := 3#4 }) = true := by decide
/-- R121: SC_CHECK of a valid column. -/
theorem test_scan_check_hit :
    nextWith (fun t => t.phase == .ret (some 6#8))
      (step { running (.scan 0x34#8) .direction .dbSample with
        row := 2#3, cand := 0#3, matchCount := 2#2, iter := 10#4 }) = true := by decide
/-- R57. -/
theorem test_step_refuses_reserved_word :
    refusedAs .reservedOpcode (step (State.reset.withFetchWord 20 0x90000)) = true := by decide

/-! ### Witnesses: a state and operands that meet the hypotheses of each statement -/

theorem witness_DecoderFollowsFieldsAndIsInjective :
    8 < (BitVec.extractLsb' 16 4 0x90000#20).toNat ∧ 8 < (BitVec.extractLsb' 16 4 0xFFFFF#20).toNat ∧
    BitVec.extractLsb' 16 4 0x00304#20 = 0#4 ∧ BitVec.extractLsb' 16 4 0x30304#20 = 3#4 ∧
    ((BitVec.extractLsb' 16 4 0x80134#20).toNat ≤ 8 ∧ BitVec.extractLsb' 16 4 0x80134#20 ≠ 0#4 ∧
      BitVec.extractLsb' 16 4 0x80134#20 ≠ 3#4 ∧ BitVec.extractLsb' 8 8 0x80134#20 ≠ 0#8) ∧
    (BitVec.extractLsb' 16 4 0x10034#20 = 1#4 ∧ BitVec.extractLsb' 8 8 0x10034#20 = 0#8) ∧
    (BitVec.extractLsb' 16 4 0x20034#20 = 2#4 ∧ BitVec.extractLsb' 8 8 0x20034#20 = 0#8) ∧
    (BitVec.extractLsb' 16 4 0x40034#20 = 4#4 ∧ BitVec.extractLsb' 8 8 0x40034#20 = 0#8) ∧
    (BitVec.extractLsb' 16 4 0x50002#20 = 5#4 ∧ BitVec.extractLsb' 8 8 0x50002#20 = 0#8) ∧
    (BitVec.extractLsb' 16 4 0x60034#20 = 6#4 ∧ BitVec.extractLsb' 8 8 0x60034#20 = 0#8) ∧
    (BitVec.extractLsb' 16 4 0x70034#20 = 7#4 ∧ BitVec.extractLsb' 8 8 0x70034#20 = 0#8) ∧
    (BitVec.extractLsb' 16 4 0x80034#20 = 8#4 ∧ BitVec.extractLsb' 8 8 0x80034#20 = 0#8) ∧
    decodeWord 0x80034#20 = .instr (.scan 0x34#8) := by decide

theorem witness_DecodeAndEncodeAgree : decodeWord 0x80034#20 = .instr (.scan 0x34#8) := by decide

theorem witness_ReservedWordIsRefused :
    (offering 0x90000#20 .direction).rst = false ∧ (offering 0x90000#20 .direction).busy = false ∧
    (offering 0x90000#20 .direction).offers = { word := 0x90000#20, addr := 0x24 } :: [] ∧
    9 ≤ (BitVec.extractLsb' 16 4 0x90000#20).toNat ∧
    (offering 0x80134#20 .direction).offers = { word := 0x80134#20, addr := 0x24 } :: [] ∧
    BitVec.extractLsb' 16 4 0x80134#20 ∈ [1#4, 2#4, 4#4, 5#4, 6#4, 7#4, 8#4] ∧ BitVec.extractLsb' 8 8 0x80134#20 ≠ 0#8 := by decide

theorem witness_StepRunsTheOfferedCommand :
    (offering 0x80034#20 .direction).rst = false ∧ (offering 0x80034#20 .direction).busy = false ∧
    (offering 0x80034#20 .direction).offers = { word := 0x80034#20, addr := 0x24 } :: [] ∧
    decodeWord 0x80034#20 = .instr (.scan 0x34#8) ∧ (offering 0x80034#20 .direction).pace = .oneEvent ∧
    { offering 0x80034#20 .direction with pace := .wholeCommand }.pace = .wholeCommand ∧
    State.reset.rst = false ∧ State.reset.busy = false ∧ State.reset.offers = [] := by decide

theorem witness_AcceptanceLatchesAndBusyIgnoresOffers :
    (offering 0x80034#20 .direction).rst = false ∧ (offering 0x80034#20 .direction).busy = false ∧
    (offering 0x80034#20 .direction).pace = .oneEvent ∧
    (offering 0x80034#20 .direction).offers = { word := 0x80034#20, addr := 0x24 } :: [] ∧
    decodeWord 0x80034#20 = .instr (.scan 0x34#8) ∧
    domainRefusal (.scan 0x34#8) 0x24 (offering 0x80034#20 .direction).addrWidth (offering 0x80034#20 .direction).ports = none ∧
    (running (.scan 0x34#8) .direction (.scReset0 (.rd 0))).rst = false ∧
    (running (.scan 0x34#8) .direction (.scReset0 (.rd 0))).busy = true ∧
    nextWith (fun _ => true) (step (running (.scan 0x34#8) .direction (.scReset0 (.rd 0)))) = true ∧
    refusedAs .unreachablePhase (step (running (.scan 0x34#8) .direction .readColumns)) = true := by decide

theorem witness_BusyStepIsOneEvent :
    (running (.scan 0x34#8) .direction (.scReset0 (.rd 3))).inv = true ∧
    (running (.scan 0x34#8) .direction (.scReset0 (.rd 3))).rst = false ∧
    (running (.scan 0x34#8) .direction (.scReset0 (.rd 3))).busy = true ∧
    nextWith (fun _ => true) (step (running (.scan 0x34#8) .direction (.scReset0 (.rd 3)))) = true ∧
    { running (.readColumnsDebounced 0x34#8) .input .dbWait with waitDone := false }.inv = true ∧
    nextWith (fun _ => true) (step { running (.readColumnsDebounced 0x34#8) .input .dbWait with waitDone := false }) = true := by
  decide

theorem witness_CompletionStep :
    (running (.scan 0x34#8) .direction (.ret (some 12#8))).inv = true ∧
    (running (.scan 0x34#8) .direction (.ret (some 12#8))).rst = false ∧
    (running (.resetRows 0x34#8) .output (.ret none)).inv = true := by decide

/-- A sample that matches with MATCH 2 confirms; one in iteration 10 that does not ends the loop; one before that goes on. -/
theorem witness_DebouncePhaseTable :
    decodeWord (wordOf (running (.readColumnsDebounced 0x34#8) .input .dbFirst).cmdOp
      (running (.readColumnsDebounced 0x34#8) .input .dbFirst).cmdB
      (running (.readColumnsDebounced 0x34#8) .input .dbFirst).cmdA) = .instr (.readColumnsDebounced 0x34#8) ∧
    (running (.readColumnsDebounced 0x34#8) .input .dbFirst).inv = true ∧
    (running (.readColumnsDebounced 0x34#8) .input .dbFirst).rst = false ∧
    (running (.readColumnsDebounced 0x34#8) .input .dbWait).inv = true ∧
    (running (.readColumnsDebounced 0x34#8) .input .dbWait).waitDone = true ∧
    { running (.readColumnsDebounced 0x34#8) .input .dbWait with waitDone := false }.inv = true ∧
    { running (.scan 0x34#8) .direction .dbSample with row := 3#3, matchCount := 2#2, iter := 10#4 }.inv = true ∧
    colEnc (portReadIn 0x24 (running (.scan 0x34#8) .direction .dbSample)).1 0x34#8 = 0#3 ∧
    (0#3).toNat < colsOf 0x34#8 ∧ colsOf 0x34#8 ≤ (5#3).toNat ∧ 2 < (2#2 + 1#2).toNat ∧
    { running (.scan 0x34#8) .direction .dbSample with cand := 1#3, matchCount := 2#2, iter := 10#4 }.inv = true ∧
    ¬ (0#3 = 1#3 ∧ 2 < (0#2).toNat) ∧
    { running (.scan 0x34#8) .direction .dbSample with cand := 1#3, matchCount := 2#2, iter := 9#4 }.inv = true := by decide

/-- An operation, the register its address names, and a position, each half of each bit operation at its last index: for every clause one. -/
def halves : List (Instr × PortReg × Phase) :=
  [(.configure 5#8 3#8, .direction, .cfgDirRow (.rd 4)), (.configure 5#8 3#8, .direction, .cfgDirRow (.wr 4 0x55#8)),
   (.configure 5#8 3#8, .direction, .cfgDirCol (.rd 2)), (.configure 5#8 3#8, .direction, .cfgDirCol (.wr 2 0x55#8)),
   (.configure 3#8 5#8, .direction, .cfgOutCol (.rd 4)), (.configure 3#8 5#8, .direction, .cfgOutCol (.wr 4 0x55#8)),
   (.resetRows 0x34#8, .output, .resetRow (.rd 3)), (.resetRows 0x34#8, .output, .resetRow (.wr 3 0x55#8)),
   (.assertRowLow 7#8, .output, .assertRow (.rd 7)), (.assertRowLow 7#8, .output, .assertRow (.wr 7 0x55#8)),
   (.scan 0x34#8, .direction, .scReset0 (.rd 3)), (.scan 0x34#8, .direction, .scReset0 (.wr 3 0x55#8)),
   (.scan 0x34#8, .direction, .scAssert (.rd 3)), (.scan 0x34#8, .direction, .scAssert (.wr 0 0x55#8)),
   (.scan 0x34#8, .direction, .scReset (.rd 3)), (.scan 0x34#8, .direction, .scReset (.wr 3 0x55#8))]

theorem witness_BitWriteHalfStoresTheValueRead :
    ∀ h ∈ halves, (running h.1 h.2.1 h.2.2).inv = true ∧ (running h.1 h.2.1 h.2.2).rst = false ∧
      decodeWord (wordOf (running h.1 h.2.1 h.2.2).cmdOp (running h.1 h.2.1 h.2.2).cmdB (running h.1 h.2.1 h.2.2).cmdA) =
        .instr h.1 ∧ (running h.1 h.2.1 h.2.2).phase = h.2.2 := by decide

theorem witness_RunningOperationNeverStops :
    (running (.configure 5#8 3#8) .direction (.cfgOutCol (.wr 2 0xFF#8))).inv = true ∧
    (running (.configure 5#8 3#8) .direction (.cfgOutCol (.wr 2 0xFF#8))).rst = false ∧
    (running (.configure 5#8 3#8) .direction (.cfgOutCol (.wr 2 0xFF#8))).busy = true := by decide

theorem witness_EveryOperationCompletes :
    (running (.scan 0x35#8) .direction (.scReset0 (.rd 0))).inv = true ∧
    (running (.scan 0x35#8) .direction (.scReset0 (.rd 0))).rst = false ∧
    (running (.scan 0x35#8) .direction (.scReset0 (.rd 0))).busy = true ∧
    (running (.scan 0x35#8) .direction (.scReset0 (.rd 0))).waitDone = true := by decide

theorem witness_EventRunRefinesWholeCommand :
    (offering 0x50002#20 .output).rst = false ∧ (offering 0x50002#20 .output).busy = false ∧
    (offering 0x50002#20 .output).pace = .oneEvent ∧
    (offering 0x50002#20 .output).offers = { word := 0x50002#20, addr := 0x25 } :: [] ∧
    decodeWord 0x50002#20 = .instr (.assertRowLow 2#8) ∧
    nextWith (fun _ => true) (exec (.assertRowLow 2#8) (offering 0x50002#20 .output)) = true := by decide

theorem witness_RstOverridesEverything :
    { running (.scan 0x34#8) .direction .dbWait with rst := true }.rst = true := by decide

theorem witness_StepKeepsInvariant :
    (offering 0x30304#20 .direction).inv = true ∧ nextWith (fun _ => true) (step (offering 0x30304#20 .direction)) = true ∧
    (running (.scan 0x34#8) .direction (.scAssert (.rd 3))).inv = true ∧
    nextWith (fun _ => true) (step (running (.scan 0x34#8) .direction (.scAssert (.rd 3)))) = true := by decide

theorem witness_BitOperationsReadThenWrite :
    Memory.wf (bench 0x8F#8 0x80#8 .free .output).mem = true ∧ 7 < 8 ∧
    (Memory.get (bench 0x8F#8 0x80#8 .free .output).mem (storedAddr 0x24 .out)).getLsbD 7 = true ∧
    (Memory.get (bench 0x8F#8 0x80#8 .free .output).mem (storedAddr 0x24 .out)).getLsbD 0 = false := by decide

theorem witness_RunOfBitOperationsNetEffect :
    Memory.wf (bench 0x8F#8 0x80#8 .free .output).mem = true ∧ [7, 0, 3].Nodup ∧ (∀ n ∈ [7, 0, 3], n < 8) := by decide

theorem witness_WriteIsSeenByNextReads :
    Memory.wf (bench 0x8F#8 0x80#8 .free .output).mem = true ∧
    ((bench 0x8F#8 0x80#8 .free .output).dir 0x24).getLsbD 7 = true ∧ (0x80#8).getLsbD 7 = true := by decide

theorem witness_ReadOfInputShowsPins : (bench 0x8F#8 0x80#8 .free .input).env = .free := by decide

theorem witness_EncodeReturnsDescriptor : State.reset.busy = false := by decide

theorem witness_DecodesMaskEveryByte : State.reset.busy = false := by decide

theorem witness_CodecRoundTrip :
    State.reset.busy = false ∧ legalShape (5#8).toNat (3#8).toNat = true ∧
    legalShape (rowsOf 0xBC#8) (colsOf 0xBC#8) = true ∧ legalShape (rowsOf 0x34#8) (colsOf 0x34#8) = true := by decide

theorem witness_ConfigureEndState :
    OfferedAt .direction 0x24 (bench 0xF0#8 0xF5#8 .free .direction) ∧
    Memory.wf (bench 0xF0#8 0xF5#8 .free .direction).mem = true ∧ legalShape (3#8).toNat (5#8).toNat = true := by decide

theorem witness_ConfigureAccessesInOrder :
    OfferedAt .direction 0x24 (bench 0xF0#8 0xF5#8 .free .direction) ∧
    Memory.wf (bench 0xF0#8 0xF5#8 .free .direction).mem = true ∧ legalShape (4#8).toNat (4#8).toNat = true := by decide

theorem witness_ConfigureTwiceIsRedundant :
    OfferedAt .direction 0x24 (bench 0xF0#8 0xF5#8 .free .direction) ∧
    Memory.wf (bench 0xF0#8 0xF5#8 .free .direction).mem = true ∧ legalShape (5#8).toNat (3#8).toNat = true := by decide

theorem witness_ResetRowsEndState :
    OfferedAt .output 0x24 (bench 0x8F#8 0x85#8 .free .output) ∧ Memory.wf (bench 0x8F#8 0x85#8 .free .output).mem = true ∧
    wfDescriptor 0x35#8 = true := by decide

/-- The rows of a shape, and a bit that is no row's. -/
theorem witness_AssertRowLowClearsOneBit :
    OfferedAt .output 0x24 (bench 0x8F#8 0x85#8 .free .output) ∧ Memory.wf (bench 0x8F#8 0x85#8 .free .output).mem = true ∧
    (0#8).toNat < 8 ∧ (7#8).toNat < 8 := by decide

theorem witness_ResetRowsAndAssertRowLowAreIdempotent :
    OfferedAt .output 0x24 (bench 0x8F#8 0x85#8 .free .output) ∧ Memory.wf (bench 0x8F#8 0x85#8 .free .output).mem = true ∧
    wfDescriptor 0x33#8 = true ∧ (7#8).toNat < 8 := by decide

theorem witness_OnlyOneRowIsAsserted :
    OfferedAt .output 0x24 (bench 0x8F#8 0x85#8 .free .output) ∧ Memory.wf (bench 0x8F#8 0x85#8 .free .output).mem = true ∧
    wfDescriptor 0x34#8 = true ∧ (3#8).toNat < rowsOf 0x34#8 ∧
    (∀ r, r < rowsOf 0x34#8 → ((bench 0x8F#8 0x85#8 .free .output).dir 0x24).getLsbD r = true) := by decide

theorem witness_ColEncIsLeastActiveColumn : wfDescriptor 0x53#8 = true ∧ wfDescriptor 0x35#8 = true := by decide

/-- Two bytes that differ in the row bits and in bit 7 only agree on the columns of 0x34. -/
theorem witness_ReadColumnsSamplesOnce :
    OfferedAt .input 0x24 (bench 0x8F#8 0x8E#8 .free .input) ∧ wfDescriptor 0x34#8 = true ∧
    (∀ j, j < colsOf 0x34#8 → (0xDE#8).getLsbD (rowsOf 0x34#8 + j) = (0x51#8).getLsbD (rowsOf 0x34#8 + j)) := by decide

theorem witness_DebouncedReadCompletesAndWritesNothing :
    OfferedAt .input 0x24 (bench 0x8F#8 0x8E#8 .free .input) ∧ wfDescriptor 0x34#8 = true ∧
    (bench 0x8F#8 0x8E#8 .free .input).waitDone = true := by decide

/-- The reads of T6 g: the earliest run of four ends at the last sample; and of T6 c: there is none. -/
def lastRun : State :=
  bench 0x8F#8 0x8E#8
    (.script [0xEF#8, 0xDF#8, 0xEF#8, 0xDF#8, 0xEF#8, 0xDF#8, 0xEF#8, 0xBF#8, 0xBF#8, 0xBF#8, 0xBF#8]) .input
/-- T6 c. -/
def noRun : State :=
  bench 0x8F#8 0x8E#8
    (.script [0xEF#8, 0xDF#8, 0xEF#8, 0xDF#8, 0xEF#8, 0xDF#8, 0xEF#8, 0xDF#8, 0xEF#8, 0xDF#8, 0xEF#8]) .input
/-- T6 a. -/
def firstRun : State := bench 0x8F#8 0x8E#8 (.script [0xDF#8, 0xDF#8, 0xDF#8, 0xDF#8]) .input

theorem witness_DebouncedReadReturnsEarliestRunOfFour :
    OfferedAt .input 0x24 lastRun ∧ wfDescriptor 0x34#8 = true ∧ lastRun.waitDone = true ∧
    runOfFour (nthRead 0x24 0x34#8 lastRun) 10 = true ∧
    (∀ j, j < 10 → runOfFour (nthRead 0x24 0x34#8 lastRun) j = false) ∧
    OfferedAt .input 0x24 noRun ∧ (∀ k, k ≤ 10 → runOfFour (nthRead 0x24 0x34#8 noRun) k = false) ∧
    OfferedAt .input 0x24 firstRun ∧ runOfFour (nthRead 0x24 0x34#8 firstRun) 3 = true := by decide

theorem witness_DebouncedReadAlternatesReadsAndWaits :
    OfferedAt .input 0x24 noRun ∧ wfDescriptor 0x34#8 = true ∧ noRun.waitDone = true := by decide

theorem witness_StableFourConfirmsAndChangingNeverSettles :
    OfferedAt .input 0x24 firstRun ∧ wfDescriptor 0x34#8 = true ∧ firstRun.waitDone = true ∧
    (nthRead 0x24 0x34#8 firstRun 1 = nthRead 0x24 0x34#8 firstRun 0 ∧
      nthRead 0x24 0x34#8 firstRun 2 = nthRead 0x24 0x34#8 firstRun 0 ∧
      nthRead 0x24 0x34#8 firstRun 3 = nthRead 0x24 0x34#8 firstRun 0) ∧
    OfferedAt .input 0x24 noRun ∧
    (∀ k, k < 11 → 1 ≤ k → nthRead 0x24 0x34#8 noRun k ≠ nthRead 0x24 0x34#8 noRun (k - 1)) := by decide

/-- An idle keyboard, as CONFIGURE leaves the port of the shape (4,3). -/
def idleKeyboard : State := bench 0x8F#8 0x80#8 (.idealMatrix 0x34#8 []) .direction
/-- The keys (1,0), (1,2) and (3,1) of T7. -/
def threeKeys : State := bench 0x8F#8 0x8F#8 (.idealMatrix 0x34#8 [(3, 1), (1, 2), (1, 0)]) .direction

theorem witness_ScanEndState :
    OfferedAt .direction 0x24 idleKeyboard ∧ Memory.wf idleKeyboard.mem = true ∧ wfDescriptor 0x34#8 = true ∧
    idleKeyboard.waitDone = true := by decide

/-- A key in row 1 only, and none in any row. -/
theorem witness_ScanReportsFirstRowWithColumn :
    OfferedAt .direction 0x24 threeKeys ∧ wfDescriptor 0x34#8 = true ∧ threeKeys.waitDone = true ∧
    (debounced 0x24 0x34#8 (scanRowState 0x24 0x34#8 (accept (.scan 0x34#8) threeKeys) 1)).1.toNat < colsOf 0x34#8 ∧
    colsOf 0x34#8 ≤ (debounced 0x24 0x34#8 (scanRowState 0x24 0x34#8 (accept (.scan 0x34#8) threeKeys) 0)).1.toNat ∧
    OfferedAt .direction 0x24 idleKeyboard ∧
    (∀ i, i < rowsOf 0x34#8 → colsOf 0x34#8 ≤
      (debounced 0x24 0x34#8 (scanRowState 0x24 0x34#8 (accept (.scan 0x34#8) idleKeyboard) i)).1.toNat) := by decide

theorem witness_ScanReportsLeastPressedKey :
    OfferedAt .direction 0x24 threeKeys ∧ Memory.wf threeKeys.mem = true ∧ wfDescriptor 0x34#8 = true ∧
    threeKeys.waitDone = true ∧ threeKeys.env = .idealMatrix 0x34#8 [(3, 1), (1, 2), (1, 0)] ∧
    (∀ k ∈ [(3, 1), (1, 2), (1, 0)], k.1 < rowsOf 0x34#8 ∧ k.2 < colsOf 0x34#8) ∧
    threeKeys.dir 0x24 &&& rowMask (rowsOf 0x34#8) = rowMask (rowsOf 0x34#8) ∧
    threeKeys.dir 0x24 &&& colMask (rowsOf 0x34#8) (colsOf 0x34#8) = 0#8 ∧
    OfferedAt .direction 0x24 idleKeyboard ∧ idleKeyboard.env = .idealMatrix 0x34#8 [] := by decide

/-- Sixteen reads that never read active: the least number a scan of four rows takes. -/
def quiet : List Byte := List.replicate 16 0xFF#8

theorem witness_ScanOfIdleKeyboardReturnsSentinel :
    OfferedAt .direction 0x24 (bench 0x8F#8 0x80#8 (.script quiet) .direction) ∧
    Memory.wf (bench 0x8F#8 0x80#8 (.script quiet) .direction).mem = true ∧ wfDescriptor 0x34#8 = true ∧
    (bench 0x8F#8 0x80#8 (.script quiet) .direction).waitDone = true ∧
    (bench 0x8F#8 0x80#8 (.script quiet) .direction).env = .script quiet ∧ 4 * rowsOf 0x34#8 ≤ quiet.length ∧
    (∀ l ∈ quiet, l &&& colMask (rowsOf 0x34#8) (colsOf 0x34#8) = colMask (rowsOf 0x34#8) (colsOf 0x34#8)) ∧
    (bench 0x8F#8 0x80#8 (.script quiet) .direction).dir 0x24 &&& colMask (rowsOf 0x34#8) (colsOf 0x34#8) = 0#8 := by decide

theorem witness_ScanEventCounts :
    OfferedAt .direction 0x24 idleKeyboard ∧ wfDescriptor 0x34#8 = true ∧ idleKeyboard.waitDone = true := by decide

theorem witness_KeyIndexIsABijection :
    wfDescriptor 0x44#8 = true ∧ 3 < rowsOf 0x44#8 ∧ 3 < colsOf 0x44#8 ∧ 15 < rowsOf 0x44#8 * colsOf 0x44#8 := by decide

theorem witness_EveryCommandInDomainCompletes :
    idleKeyboard.busy = false ∧ idleKeyboard.waitDone = true ∧ (Instr.scan 0x34#8).wellFormed = true ∧
    (∀ k, addressed (.scan 0x34#8) = some k → OfferedAt k 0x24 idleKeyboard) ∧ (Instr.encode 5#8 4#8).op = 0#4 := by
  refine ⟨by decide, by decide, by decide, ?_, by decide⟩
  intro k hk
  cases hk
  decide

/-- A platform of AW bits with one port at `base`, and a command for the register `k` of it on the interface. -/
def platform (aw base : Nat) (k : PortReg) : State :=
  { State.reset with addrWidth := aw, ports := [base], offers := [{ word := 0#20, addr := base + regOffset k }] }

/-- The last base that fits and the first that does not, in the spaces of 8, 5 and 2 bits; a number that is no address; an address at no
port; one at a port. -/
theorem witness_CommandStopsOnlyOutsideDomain :
    State.reset.busy = false ∧ legalShape (2#8).toNat (3#8).toNat = false ∧ wfDescriptor 0x3C#8 = false ∧ 8 ≤ (8#8).toNat ∧
    ((Instr.scan 0x34#8).wellFormed = true ∧ addressed (.scan 0x34#8) = some .direction ∧
      2 ^ (platform 8 254 .direction).addrWidth ≤ highestAddr .direction (platform 8 254 .direction).offeredAddr ∧
      2 ^ (platform 5 30 .direction).addrWidth ≤ highestAddr .direction (platform 5 30 .direction).offeredAddr ∧
      2 ^ (platform 0 0 .direction).addrWidth ≤ highestAddr .direction (platform 0 0 .direction).offeredAddr) ∧
    ((Instr.resetRows 0x34#8).wellFormed = true ∧ addressed (.resetRows 0x34#8) = some .output ∧
      2 ^ (platform 8 255 .output).addrWidth ≤ highestAddr .output (platform 8 255 .output).offeredAddr) ∧
    (highestAddr .output (bench 0#8 0#8 .free .direction).offeredAddr < 2 ^ (bench 0#8 0#8 .free .direction).addrWidth ∧
      ∀ b ∈ (bench 0#8 0#8 .free .direction).ports, (bench 0#8 0#8 .free .direction).offeredAddr ≠ b + regOffset .output) ∧
    (highestAddr .direction (platform 8 253 .direction).offeredAddr < 2 ^ (platform 8 253 .direction).addrWidth ∧
      ∃ b ∈ (platform 8 253 .direction).ports, (platform 8 253 .direction).offeredAddr = b + regOffset .direction) ∧
    (highestAddr .direction (platform 2 1 .direction).offeredAddr < 2 ^ (platform 2 1 .direction).addrWidth ∧
      ∃ b ∈ (platform 2 1 .direction).ports, (platform 2 1 .direction).offeredAddr = b + regOffset .direction) ∧
    addressed (.encode 4#8 3#8) = none := by decide

/-- D21 at a narrow AW: the port of the examples lies outside a space of 5 bits. -/
theorem test_narrow_space_refuses :
    refusedAs .outsideAddressSpace (exec (.configure 4#8 3#8) (platform 5 0x24 .direction)) = true := by decide
/-- R22: `cmd_addr` carries AW bits; an operation that uses no address runs in any space. -/
theorem test_latch_takes_the_address_bits :
    nextWith (fun t => t.cmdAddr == 4 && t.result == 0x34#8) (exec (.encode 4#8 3#8) (platform 5 0x24 .direction)) = true := by decide

theorem witness_OperationsHangIfWaitsNeverEnd :
    wfDescriptor 0x34#8 = true ∧ { idleKeyboard with waitDone := false }.waitDone = false ∧
    OfferedAt .direction 0x24 { idleKeyboard with waitDone := false } ∧
    OfferedAt .input 0x24 { firstRun with waitDone := false } := by decide

theorem witness_AccessesFollowTheAddressTable :
    idleKeyboard.busy = false ∧ (∀ k, addressed (.scan 0x34#8) = some k → OfferedAt k 0x24 idleKeyboard) ∧
    nextWith (fun _ => true) (exec (.scan 0x34#8) idleKeyboard) = true := by
  refine ⟨by decide, ?_, by decide⟩
  intro k hk
  cases hk
  decide

theorem witness_MemoryChangesOnlyAtThePort :
    Memory.wf idleKeyboard.mem = true ∧ nextWith (fun _ => true) (exec (.scan 0x34#8) idleKeyboard) = true ∧
    nextWith (fun _ => true) (exec (.readColumns 0x34#8) firstRun) = true ∧
    (Instr.readColumns 0x34#8).op ∉ [3#4, 4#4, 5#4, 8#4] ∧ (Instr.scan 0x34#8).op ≠ 3#4 := by decide

/-- For the shape (4,3) bit 7 is unrelated. -/
theorem witness_UnrelatedBitsAreKept :
    idleKeyboard.busy = false ∧ Memory.wf idleKeyboard.mem = true ∧
    (∀ k, addressed (.scan 0x34#8) = some k → OfferedAt k 0x24 idleKeyboard) ∧ wfDescriptor 0x34#8 = true ∧
    rowsOf 0x34#8 + colsOf 0x34#8 ≤ 7 ∧ nextWith (fun _ => true) (exec (.scan 0x34#8) idleKeyboard) = true ∧
    (3#8).toNat < rowsOf 0x34#8 := by
  refine ⟨by decide, by decide, ?_, by decide, by decide, by decide, by decide⟩
  intro k hk
  cases hk
  decide

theorem witness_WorkingRegistersAreNotObservable :
    firstRun.busy = false ∧ nextWith (fun _ => true) (exec (.readColumnsDebounced 0x34#8) firstRun) = true ∧
    { firstRun with row := 5#3, cand := 1#3, matchCount := 3#2 } = { firstRun with
      row := 5#3, col := firstRun.col, sample := firstRun.sample, cand := 1#3, matchCount := 3#2, iter := firstRun.iter } := by
  decide

theorem witness_ResultIsValidAfterValueOperations :
    idleKeyboard.busy = false ∧ nextWith (fun _ => true) (exec (.scan 0x34#8) idleKeyboard) = true ∧
    (Instr.scan 0x34#8).op ≠ 4#4 ∧ (Instr.scan 0x34#8).op ≠ 5#4 ∧
    nextWith (fun _ => true) (exec (.assertRowLow 3#8) (bench 0#8 0#8 .free .output)) = true ∧
    (Instr.assertRowLow 3#8).op = 5#4 := by decide

theorem witness_ReturnedValuesAreInRange :
    firstRun.busy = false ∧ nextWith (fun _ => true) (exec (.readColumnsDebounced 0x34#8) firstRun) = true ∧
    nextWith (fun _ => true) (exec (.decodeRows 0xFF#8) State.reset) = true ∧
    nextWith (fun _ => true) (exec (.scan 0x34#8) idleKeyboard) = true ∧
    nextWith (fun _ => true) (exec (.encode 5#8 3#8) State.reset) = true ∧ legalShape (5#8).toNat (3#8).toNat = true := by decide

/-- Every environment, and a step that uses up offers or levels. -/
theorem witness_InputsAreOnlyUsedUp :
    nextWith (fun t => t.offers == []) (step (offering 0x80034#20 .direction)) = true ∧
    (offering 0x80034#20 .direction).env = .free ∧
    nextWith (fun t => t.env == .script [0xDF#8]) (step (running (.scan 0x34#8) .direction .dbFirst)) = true ∧
    (running (.scan 0x34#8) .direction .dbFirst).env = .script [0xEF#8, 0xDF#8] ∧
    nextWith (fun t => t.env == .idealMatrix 0x34#8 [])
      (step { idleKeyboard with offers := [{ word := 0x80034#20, addr := 0x24 }] }) = true ∧
    idleKeyboard.env = .idealMatrix 0x34#8 [] := by decide

theorem witness_LevelsMatterOnlyToReads :
    (Instr.configure 4#8 3#8).op ∉ [6#4, 7#4, 8#4] ∧
    nextWith (fun _ => true) (exec (.configure 4#8 3#8) (bench 0xF0#8 0xF5#8 .free .direction)) = true := by decide

end Sys2Proof.Tests
end

section
/-! PROOF. The values the operations return (R8, R11): what a command that completes has done, and the ranges of the column encoder, the debounced
read and the scan. -/

namespace Sys2Proof.Machine

/-- A command offered to a free block that completes is inside its domain, and its body has run from its acceptance (R23). -/
theorem runCommand_next {i : Instr} {s t : State} {body : State → Answer} (hb : s.busy = false) (h : runCommand i s body = .next t) :
    domainRefusal i s.offeredAddr s.addrWidth s.ports = none ∧ body (accept i s) = .next t := by
  rcases runCommand_cases i s body with ⟨hbusy, -⟩ | ⟨-, r, -, hrun⟩ | ⟨-, hd, hrun⟩
  · simp [hb] at hbusy
  · simp [hrun] at h
  · exact ⟨hd, hrun ▸ h⟩

/-- An operation that waits and completes ends in the state after its waits (R139). -/
theorem ifWaitsEnd_next {s after t : State} (h : ifWaitsEnd s after = .next t) : s.waitDone = true ∧ t = after := by
  unfold ifWaitsEnd at h
  split at h
  · rename_i hw
    cases h
    exact ⟨hw, rfl⟩
  · cases h

/-- A result of a column read: an index of a column of the shape, or COL_SENTINEL (R11, R101). -/
def IsColumnResult (desc : Descriptor) (c : BitVec 3) : Prop := c.toNat < colsOf desc ∨ c = 5#3

theorem colEnc_isColumnResult (v : Byte) (desc : Descriptor) : IsColumnResult desc (colEnc v desc) := by
  unfold colEnc
  cases h : activeColumn v desc with
  | none => exact .inr rfl
  | some j =>
    have hj : j < colsOf desc := List.mem_range.1 (List.mem_of_find?_eq_some h)
    have hc := colsOf_lt desc
    refine .inl ?_
    rw [Option.getD_some, BitVec.toNat_ofNat, Nat.mod_eq_of_lt (by omega)]
    exact hj

/-- The loop returns a value it has just sampled, or COL_SENTINEL (R102). -/
theorem debounceLoop_isColumnResult (base : Nat) (desc : Descriptor) (n : Nat) (s : State) :
    IsColumnResult desc (debounceLoop base desc n s).1 := by
  induction n generalizing s with
  | zero => exact .inr rfl
  | succ n ih =>
    unfold debounceLoop
    dsimp only
    split
    · exact colEnc_isColumnResult _ desc
    · exact ih _

theorem debounced_isColumnResult (base : Nat) (desc : Descriptor) (s : State) : IsColumnResult desc (debounced base desc s).1 :=
  debounceLoop_isColumnResult base desc _ _

/-- RESULT holds a column result on eight bits (R11). -/
theorem IsColumnResult.setWidth {desc : Descriptor} {c : BitVec 3} (h : IsColumnResult desc c) :
    (c.setWidth 8).toNat < colsOf desc ∨ c.setWidth 8 = 5#8 := by
  rcases h with hlt | rfl
  · left
    rwa [BitVec.toNat_setWidth_of_le (by decide)]
  · exact .inr rfl

/-- What holds of each of the six shapes of R6 holds of every legal shape. -/
theorem legalShape_forall {P : Operand × Operand → Prop} {rows cols : Operand} (h : legalShape rows.toNat cols.toNat = true)
    (hP : List.Forall P [(3#8, 3#8), (3#8, 4#8), (3#8, 5#8), (4#8, 3#8), (4#8, 4#8), (5#8, 3#8)]) : P (rows, cols) :=
  List.forall_iff_forall_mem.1 hP _ (legalShape_cases h)

/-- A keyboard of a legal shape has at most 16 keys (R8). -/
theorem keyCount_le_of_wf {desc : Descriptor} (h : wfDescriptor desc = true) : rowsOf desc * colsOf desc ≤ 16 := by
  have hshape : legalShape (rowsOf desc) (colsOf desc) = true := by
    simp only [wfDescriptor, Bool.and_eq_true] at h
    exact h.2
  exact legalShape_forall (P := fun p => p.1.toNat * p.2.toNat ≤ 16) hshape (by decide)

/-- KEY_SENTINEL does not pass the number of keys (R123). -/
theorem keySentinel_le (desc : Descriptor) : (keySentinel desc).toNat ≤ rowsOf desc * colsOf desc :=
  BitVec.toNat_ofNat _ _ ▸ Nat.mod_le _ _

/-- The key index of a key of the shape does not pass the number of keys (R126). -/
theorem keyIndex_le {desc : Descriptor} {row c : Nat} (hr : row < rowsOf desc) (hc : c < colsOf desc) :
    (keyIndex desc row c).toNat ≤ rowsOf desc * colsOf desc :=
  calc (keyIndex desc row c).toNat
    _ ≤ row * colsOf desc + c := BitVec.toNat_ofNat _ _ ▸ Nat.mod_le _ _
    _ ≤ (row + 1) * colsOf desc := by rw [Nat.succ_mul]; omega
    _ ≤ rowsOf desc * colsOf desc := Nat.mul_le_mul_right _ hr

/-- With `n` rows left of the shape's, the scan's loop returns the index of a key or the number of keys (R120, R123). -/
theorem scanRows_le (base : Nat) (desc : Descriptor) (n row : Nat) (s : State) (hn : row + n ≤ rowsOf desc) :
    (scanRows base desc n row s).1.toNat ≤ rowsOf desc * colsOf desc := by
  induction n generalizing row s with
  | zero => exact keySentinel_le desc
  | succ n ih =>
    unfold scanRows
    dsimp only
    split
    · rename_i hc
      exact keyIndex_le (by omega) hc
    · exact ih _ _ (by omega)

theorem scanKeys_le (base : Nat) (desc : Descriptor) (s : State) : (scanKeys base desc s).1.toNat ≤ rowsOf desc * colsOf desc :=
  scanRows_le base desc _ 0 _ (by omega)

/-- The descriptor of a legal shape is well formed (R50, R51, R70). -/
theorem wfDescriptor_packDescriptor {rows cols : Operand} (h : legalShape rows.toNat cols.toNat = true) :
    wfDescriptor (packDescriptor rows cols) = true :=
  legalShape_forall (P := fun p => wfDescriptor (packDescriptor p.1 p.2) = true) h (by decide)

/-! RESULT after each operation that returns a value, run whole from a free block. -/
section CompletedCommands

variable {s t : State}

theorem execReadColumns_result {desc : Descriptor} (hb : s.busy = false) (h : exec (.readColumns desc) s = .next t) :
    t.result.toNat < colsOf desc ∨ t.result = 5#8 := by
  simp only [exec, execReadColumns] at h
  obtain ⟨-, hbody⟩ := runCommand_next hb h
  cases hbody
  exact (colEnc_isColumnResult _ desc).setWidth

theorem execReadColumnsDebounced_result {desc : Descriptor} (hb : s.busy = false)
    (h : exec (.readColumnsDebounced desc) s = .next t) : t.result.toNat < colsOf desc ∨ t.result = 5#8 := by
  simp only [exec, execReadColumnsDebounced] at h
  obtain ⟨-, hbody⟩ := runCommand_next hb h
  obtain ⟨-, rfl⟩ := ifWaitsEnd_next hbody
  exact (debounced_isColumnResult _ desc _).setWidth

theorem execScan_result {desc : Descriptor} (hb : s.busy = false) (h : exec (.scan desc) s = .next t) :
    t.result.toNat ≤ rowsOf desc * colsOf desc ∧ t.result.toNat ≤ 16 := by
  simp only [exec, execScan] at h
  obtain ⟨hdom, hbody⟩ := runCommand_next hb h
  obtain ⟨-, rfl⟩ := ifWaitsEnd_next hbody
  have hwf : wfDescriptor desc = true := wellFormed_of_domain hdom (by simp [Instr.op])
  have hle := scanKeys_le (portBase (.scan desc) (accept (.scan desc) s).cmdAddr) desc (accept (.scan desc) s)
  exact ⟨hle, hle.trans (keyCount_le_of_wf hwf)⟩

theorem execDecodeRows_result {desc : Descriptor} (hb : s.busy = false) (h : exec (.decodeRows desc) s = .next t) :
    t.result.toNat = rowsOf desc := by
  simp only [exec, execDecodeRows] at h
  obtain ⟨-, hbody⟩ := runCommand_next hb h
  cases hbody
  rfl

theorem execDecodeCols_result {desc : Descriptor} (hb : s.busy = false) (h : exec (.decodeCols desc) s = .next t) :
    t.result.toNat = colsOf desc := by
  simp only [exec, execDecodeCols] at h
  obtain ⟨-, hbody⟩ := runCommand_next hb h
  cases hbody
  rfl

theorem execConfigure_result {rows cols : Operand} (hb : s.busy = false) (h : exec (.configure rows cols) s = .next t) :
    legalShape rows.toNat cols.toNat = true ∧ t.result = packDescriptor rows cols := by
  simp only [exec, execConfigure] at h
  obtain ⟨hdom, hbody⟩ := runCommand_next hb h
  cases hbody
  have hshape : legalShape rows.toNat cols.toNat = true := wellFormed_of_domain hdom (by simp [Instr.op])
  exact ⟨hshape, rfl⟩

/-- Inside ENCODE's domain its value is no free draw (R70). -/
theorem execEncode_result {rows cols : Operand} (hb : s.busy = false) (hshape : legalShape rows.toNat cols.toNat = true)
    (h : exec (.encode rows cols) s = .next t) : t.result = packDescriptor rows cols := by
  simp only [exec, execEncode] at h
  obtain ⟨-, hbody⟩ := runCommand_next hb h
  cases hbody
  exact if_pos hshape

end CompletedCommands

/-- Settles O53, operation by operation: a column read returns what the encoder or the debounced read gives, SCAN a key index or the number of keys,
a decode one of the descriptor's three-bit fields, CONFIGURE and ENCODE the packed descriptor of a legal shape. -/
theorem returnedValuesAreInRange : Obligations.ReturnedValuesAreInRange := by
  intro i s t hb h
  refine ⟨?columnReads, ?scan, ?decodes, ?descriptors⟩
  case columnReads =>
    rintro d (rfl | rfl)
    · exact execReadColumns_result hb h
    · exact execReadColumnsDebounced_result hb h
  case scan =>
    rintro d rfl
    exact execScan_result hb h
  case decodes =>
    rintro d (rfl | rfl)
    · rw [execDecodeRows_result hb h]
      exact Nat.le_of_lt_succ (rowsOf_lt d)
    · rw [execDecodeCols_result hb h]
      exact Nat.le_of_lt_succ (colsOf_lt d)
  case descriptors =>
    rintro r c (rfl | ⟨rfl, hshape⟩)
    · obtain ⟨hshape, hres⟩ := execConfigure_result hb h
      rw [hres]
      exact wfDescriptor_packDescriptor hshape
    · rw [execEncode_result hb hshape h]
      exact wfDescriptor_packDescriptor hshape

end Sys2Proof.Machine
end

section
/-! PROOF. An operation in progress: the command the block has latched, and the positions of its pseudocode that are sound (R19, R20, R21). -/

namespace Sys2Proof

/-- The decoder reads an operation back from the word that encodes it (R52, R56). -/
theorem decodeWord_encode (i : Instr) : decodeWord (encode i) = .instr i := by
  have hop : fieldOp (encode i) = i.op := fieldOp_wordOf _ _ _
  have hb : fieldB (encode i) = i.b := fieldB_wordOf _ _ _
  have ha : fieldA (encode i) = i.a := fieldA_wordOf _ _ _
  unfold decodeWord
  rw [hop, hb, ha]
  cases i <;> rfl

theorem oneOperand_eq {b : Operand} {i j : Instr} (h : oneOperand b i = .instr j) : b = 0#8 ∧ i = j := by
  unfold oneOperand at h
  split at h
  · exact ⟨‹_›, Decoded.instr.inj h⟩
  · cases h

/-- The fields of a word are those of the operation it decodes to (R52, R56). -/
theorem fields_of_decodeWord {w : CmdWord} {i : Instr} (h : decodeWord w = .instr i) :
    fieldOp w = i.op ∧ fieldB w = i.b ∧ fieldA w = i.a := by
  unfold decodeWord at h
  split at h
  case h_1 hn | h_4 hn =>
    cases h
    exact ⟨BitVec.eq_of_toNat_eq hn, rfl, rfl⟩
  case h_10 => cases h
  all_goals
    rename_i hn
    obtain ⟨hb, rfl⟩ := oneOperand_eq h
    exact ⟨BitVec.eq_of_toNat_eq hn, hb, rfl⟩

end Sys2Proof

namespace Sys2Proof.Machine

/-- An operation with an address operand whose address is in its domain names an address of the space (R35). -/
theorem inSpace_of_domain {i : Instr} {addr aw : Nat} {ports : List Nat} {k : PortReg} (h : domainRefusal i addr aw ports = none)
    (hk : addressed i = some k) : addr < 2 ^ aw := by
  have ha : addressRefusal k addr aw ports = none := by
    unfold domainRefusal at h
    split at h
    · cases h
    · rwa [hk] at h
  have hs : inSpace aw (highestAddr k addr) = true := by
    unfold addressRefusal at ha
    split at ha
    · cases ha
    · simp_all
  refine (inSpace_iff _ _).1 (inSpace_mono hs ?_)
  cases k <;> simp [highestAddr]

/-- A command without an address operand has the same domain at every address (R22, R35). -/
theorem domainRefusal_unaddressed {i : Instr} (hk : addressed i = none) (addr addr' aw : Nat) (ports : List Nat) :
    domainRefusal i addr aw ports = domainRefusal i addr' aw ports := by
  simp [domainRefusal, hk]

/-- The address acceptance latches is as much inside the domain as the one offered (R22, R35). -/
theorem domainRefusal_mod {i : Instr} {addr aw : Nat} {ports : List Nat} (h : domainRefusal i addr aw ports = none) :
    domainRefusal i (addr % 2 ^ aw) aw ports = none := by
  cases hk : addressed i with
  | none => rwa [domainRefusal_unaddressed hk _ addr]
  | some k => rwa [Nat.mod_eq_of_lt (inSpace_of_domain h hk)]

theorem legalShape_bounds {rows cols : Nat} (h : legalShape rows cols = true) : 3 ≤ rows ∧ rows ≤ 5 ∧ 3 ≤ cols ∧ cols ≤ 5 := by
  have hb : 3 ≤ rows ∧ rows ≤ 5 ∧ 3 ≤ cols ∧ cols ≤ 8 - rows := by
    simpa [legalShape, Config.colsMax, and_assoc, Nat.ble_eq] using h
  omega

theorem wfDescriptor_bounds {desc : Descriptor} (h : wfDescriptor desc = true) :
    3 ≤ rowsOf desc ∧ rowsOf desc ≤ 5 ∧ 3 ≤ colsOf desc ∧ colsOf desc ≤ 5 := by
  simp only [wfDescriptor, Bool.and_eq_true] at h
  exact legalShape_bounds h.2

/-- The operations whose pseudocode loops over the rows or the columns of a shape, or reads the columns, have a legal one (R6, R161). -/
theorem shape_bounds {i : Instr} {addr aw : Nat} {ports : List Nat} (h : domainRefusal i addr aw ports = none)
    (hop : i.op ∉ [0#4, 1#4, 2#4, 5#4]) : 3 ≤ shapeRows i ∧ shapeRows i ≤ 5 ∧ 3 ≤ shapeCols i ∧ shapeCols i ≤ 5 := by
  have hw : i.wellFormed = true := wellFormed_of_domain h (by simp_all)
  cases i
  case encode | decodeRows | decodeCols | assertRowLow => simp [Instr.op] at hop
  case configure => exact legalShape_bounds hw
  all_goals exact wfDescriptor_bounds hw

/-- `p` is a position of the operation's pseudocode and the working registers of `s` are in range for it (R19, R20). -/
def SoundAt (i : Instr) (s : State) (p : Phase) : Prop := phaseFits i p = true ∧ countersFit i (s.setPhase p) = true

@[simp] theorem Half.index_rd (n : Nat) : (Half.rd n).index = n := rfl
@[simp] theorem Half.index_wr (n : Nat) (t : Byte) : (Half.wr n t).index = n := rfl

/-! What a sound position is, position by position. -/
section SoundPositions

variable (i : Instr) (s : State)

@[simp] theorem soundAt_idle : ¬ SoundAt i s .idle := by
  simp [SoundAt, phaseFits]
@[simp] theorem soundAt_codec : SoundAt i s .codec ↔ i.op ∈ [0#4, 1#4, 2#4] := by
  cases i <;> simp [SoundAt, phaseFits, countersFit, Instr.op]
@[simp] theorem soundAt_cfgDirRow (h : Half) : SoundAt i s (.cfgDirRow h) ↔ i.op = 3#4 ∧ h.index < shapeRows i := by
  simp [SoundAt, phaseFits, countersFit]
@[simp] theorem soundAt_cfgDirCol (h : Half) : SoundAt i s (.cfgDirCol h) ↔ i.op = 3#4 ∧ h.index < shapeCols i := by
  simp [SoundAt, phaseFits, countersFit]
@[simp] theorem soundAt_cfgOutCol (h : Half) : SoundAt i s (.cfgOutCol h) ↔ i.op = 3#4 ∧ h.index < shapeCols i := by
  simp [SoundAt, phaseFits, countersFit]
@[simp] theorem soundAt_resetRow (h : Half) : SoundAt i s (.resetRow h) ↔ i.op = 4#4 ∧ h.index < shapeRows i := by
  simp [SoundAt, phaseFits, countersFit]
@[simp] theorem soundAt_assertRow (h : Half) : SoundAt i s (.assertRow h) ↔ i.op = 5#4 ∧ h.index = i.a.toNat := by
  simp [SoundAt, phaseFits, countersFit]
@[simp] theorem soundAt_readColumns : SoundAt i s .readColumns ↔ i.op = 6#4 := by
  simp [SoundAt, phaseFits, countersFit]
@[simp] theorem soundAt_scReset0 (h : Half) : SoundAt i s (.scReset0 h) ↔ i.op = 8#4 ∧ h.index < shapeRows i := by
  simp [SoundAt, phaseFits, countersFit]
@[simp] theorem soundAt_scAssert_rd (n : Nat) : SoundAt i s (.scAssert (.rd n)) ↔ i.op = 8#4 ∧ n < shapeRows i := by
  simp [SoundAt, phaseFits, countersFit]
@[simp] theorem soundAt_scAssert_wr (n : Nat) (t : Byte) :
    SoundAt i s (.scAssert (.wr n t)) ↔ (i.op = 8#4 ∧ n < shapeRows i) ∧ s.row.toNat = n := by
  simp [SoundAt, phaseFits, countersFit]
@[simp] theorem soundAt_scReset (h : Half) :
    SoundAt i s (.scReset h) ↔ (i.op = 8#4 ∧ h.index < shapeRows i) ∧ s.row.toNat < shapeRows i := by
  simp +contextual [SoundAt, phaseFits, countersFit]
@[simp] theorem soundAt_ret (v : Option Operand) : SoundAt i s (.ret v) ↔ returnFits i v = true := by
  simp [SoundAt, phaseFits, countersFit]

/-- The operation takes the debounced read, in SCAN for a row of the shape (R104, R121). -/
def Debounces (i : Instr) (row : BitVec 3) : Prop := i.op = 7#4 ∨ i.op = 8#4 ∧ row.toNat < shapeRows i

/-- The candidate is a column of the shape or COL_SENTINEL (R102). -/
def CandidateFits (i : Instr) (c : BitVec 3) : Prop := c.toNat < shapeCols i ∨ c.toNat = 5

@[simp] theorem soundAt_dbFirst : SoundAt i s .dbFirst ↔ Debounces i s.row := by
  simp only [SoundAt, phaseFits, countersFit, Debounces, State.setPhase_phase, State.setPhase_row, Bool.or_eq_true, beq_iff_eq,
    bne_iff_ne, Nat.blt_eq]
  grind
@[simp] theorem soundAt_dbWait : SoundAt i s .dbWait ↔
    Debounces i s.row ∧ CandidateFits i s.cand ∧ confirmed s = false ∧ s.iter.toNat < 10 := by
  have hc : confirmed (s.setPhase .dbWait) = confirmed s := rfl
  simp [SoundAt, phaseFits, countersFit, Debounces, CandidateFits, hc]
  grind
@[simp] theorem soundAt_dbSample : SoundAt i s .dbSample ↔
    Debounces i s.row ∧ CandidateFits i s.cand ∧ confirmed s = false ∧ 0 < s.iter.toNat ∧ s.iter.toNat ≤ 10 := by
  have hc : confirmed (s.setPhase .dbSample) = confirmed s := rfl
  simp [SoundAt, phaseFits, countersFit, Debounces, CandidateFits, hc]
  grind

end SoundPositions

/-- An operation runs and its control state is sound: the latched command is `i`, inside its domain, PHASE is a position of it, and the working
registers are in range (R19, R20, R21). -/
structure InProgress (i : Instr) (s : State) : Prop where
  busy : s.busy = true
  notDone : s.done = false
  latched : decodeWord (wordOf s.cmdOp s.cmdB s.cmdA) = .instr i
  domain : domainRefusal i s.cmdAddr s.addrWidth s.ports = none
  sound : SoundAt i s s.phase

theorem InProgress.not_idle {i : Instr} {s : State} (h : InProgress i s) : s.phase ≠ .idle := by
  intro hp
  exact soundAt_idle i s (hp ▸ h.sound)

theorem sequencerFits_idle {s : State} (hp : s.phase = .idle) : sequencerFits s = !s.busy := by
  simp [sequencerFits, hp]

theorem sequencerFits_running {s : State} (hp : s.phase ≠ .idle) : sequencerFits s = true ↔ ∃ i, InProgress i s := by
  unfold sequencerFits
  split
  · exact absurd ‹_› hp
  rename_i p _
  constructor
  · intro h
    simp only [Bool.and_eq_true, Bool.not_eq_true'] at h
    obtain ⟨⟨hb, hd⟩, hi⟩ := h
    split at hi
    · rename_i i hw
      simp only [Bool.and_eq_true, Option.isNone_iff_eq_none] at hi
      obtain ⟨⟨hdom, hf⟩, hc⟩ := hi
      exact ⟨i, hb, hd, hw, hdom, hf, hc⟩
    · cases hi
    · cases hi
  · rintro ⟨i, h⟩
    obtain ⟨hf, hc⟩ : phaseFits i s.phase = true ∧ countersFit i s = true := h.sound
    simp [h.busy, h.notDone, h.latched, h.domain, hf, hc]

/-- A sound control state is idle and free, or has an operation in progress (R20, R21). -/
theorem sequencerFits_iff (s : State) :
    sequencerFits s = true ↔ (s.phase = .idle ∧ s.busy = false) ∨ ∃ i, InProgress i s := by
  by_cases hp : s.phase = .idle
  · rw [sequencerFits_idle hp]
    constructor
    · intro h
      exact .inl ⟨hp, by simpa using h⟩
    · rintro (⟨-, hb⟩ | ⟨i, h⟩)
      · simp [hb]
      · exact absurd hp h.not_idle
  · rw [sequencerFits_running hp]
    simp [hp]

/-- The clauses of the invariant. -/
theorem inv_iff (s : State) : s.inv = true ↔
    Memory.wf s.mem = true ∧ portsWf s.addrWidth s.ports = true ∧ onlyPortRegs s.mem s.ports = true ∧
      inSpace s.addrWidth s.cmdAddr = true ∧ sequencerFits s = true := by
  simp [State.inv, and_assoc]

/-- A sound state with BUSY = 1 has an operation in progress. -/
theorem inProgress_of_inv {s : State} (h : s.inv = true) (hb : s.busy = true) : ∃ i, InProgress i s := by
  obtain ⟨-, -, -, -, hs⟩ := (inv_iff s).1 h
  rcases (sequencerFits_iff s).1 hs with ⟨-, hidle⟩ | hi
  · simp [hb] at hidle
  · exact hi

end Sys2Proof.Machine
end

section
/-! PROOF. What one event can do (R20): an event short of the completion, and the completion. -/

namespace Sys2Proof.Machine

/-- The `return` of the operation is the next event. -/
def Phase.atReturn : Phase → Bool
  | .codec => true
  | .ret _ => true
  | _ => false

/-- What one event can do short of the completion (R20), at the port at `base`: a read of DIR or OUT, a write of one of them, a sample of IN, or a
wait, each with PHASE moved on and the working registers that go with it. -/
inductive Advance (base : Nat) (s : State) : State → Prop
  | read (k : StoredReg) (row col : BitVec 3) (p : Phase) :
    Advance base s { s with
      row := row, col := col, phase := p
      history := .read (storedAddr base k) (Memory.get s.mem (storedAddr base k)) :: s.history }
  | write (k : StoredReg) (v : Byte) (p : Phase) :
    Advance base s { s with
      mem := Memory.set s.mem (storedAddr base k) v, phase := p, history := .write (storedAddr base k) v :: s.history }
  | sample (v : Byte) (col cand : BitVec 3) (m : BitVec 2) (it : BitVec 4) (p : Phase) :
    Advance base s { (portReadIn base s).2 with
      sample := v, col := col, cand := cand, matchCount := m, iter := it, phase := p }
  | wait (it : BitVec 4) (p : Phase) :
    Advance base s { s with iter := it, phase := p, history := .wait Config.debounceIntervalUs :: s.history }

/-- An event at a position that is no return. -/
theorem event_advance (i : Instr) {s : State} (hidle : s.phase ≠ .idle) (hret : s.phase.atReturn = false) :
    Advance (portBase i s.cmdAddr) s (event i s) := by
  cases hp : s.phase with
  | idle => exact absurd hp hidle
  | codec | ret v => simp [hp, Phase.atReturn] at hret
  | cfgDirRow h | cfgDirCol h | cfgOutCol h | resetRow h | assertRow h | scReset0 h | scAssert h | scReset h =>
    cases h <;> simp only [event, hp]
    · exact .read _ _ _ _
    · exact .write _ _ _
  | readColumns | dbFirst | dbSample =>
    simp only [event, hp]
    exact .sample _ _ _ _ _ _
  | dbWait =>
    simp only [event, hp]
    exact .wait _ _

/-- A return holds a value exactly for the operations that return one (R24, R55). -/
theorem returnFits_isSome {i : Instr} {v : Option Operand} (h : returnFits i v = true) : v.isSome = returnsValue i.op := by
  cases v with
  | none => cases i <;> simp_all [returnFits, returnsValue, Instr.op]
  | some x => cases i <;> simp_all [returnFits, returnsValue, Instr.op]

/-- The event at a return: the completion, after a free draw if the operation is ENCODE outside its domain (R24, R70). -/
theorem event_return {i : Instr} {s : State} (hfit : phaseFits i s.phase = true) (hret : s.phase.atReturn = true) :
    ∃ v draw, event i s = complete v { s with draw := draw } ∧ v.isSome = returnsValue i.op := by
  cases hp : s.phase with
  | codec =>
    rw [hp] at hfit
    simp only [event, hp]
    cases i with
    | encode rows cols =>
      refine ⟨some (encodeValue rows cols s.draw), (encodeDraw rows cols s).draw, ?_, rfl⟩
      simp only [codecReturn, encodeReturn, encodeDraw]
      split <;> rfl
    | decodeRows desc | decodeCols desc => exact ⟨_, s.draw, rfl, rfl⟩
    | _ => cases hfit
  | ret v =>
    rw [hp] at hfit
    exact ⟨v, s.draw, by simp only [event, hp], returnFits_isSome hfit⟩
  | _ => simp [hp, Phase.atReturn] at hret

end Sys2Proof.Machine
end

section
/-! PROOF. An event moves PHASE from a sound position to a sound position (R20, R104, R121). -/

namespace Sys2Proof.Machine

/-- What an event short of the completion leaves as it is: the latched command, the flags, RESULT, and all inputs but the environment; it adds one
event to the history. -/
theorem Advance.frame {base : Nat} {s t : State} (h : Advance base s t) : ∃ e,
    t = { s with
      phase := t.phase, row := t.row, col := t.col, sample := t.sample, cand := t.cand, matchCount := t.matchCount, iter := t.iter
      mem := t.mem, env := t.env, draw := t.draw, history := e :: s.history } := by
  cases h <;> exact ⟨_, rfl⟩


theorem SoundAt.loopNext {i : Instr} {s : State} {n k : Nat} {at_ : Half → Phase} {after : Phase} (hafter : SoundAt i s after)
    (hat : ∀ j < n, SoundAt i s (at_ (.rd j))) : SoundAt i s (loopNext n k at_ after) := by
  unfold Machine.loopNext
  split
  · exact hat _ ‹_›
  · exact hafter

/-- The debounced read's candidates are results of the encoder for the operation's own shape (R100). -/
theorem Debounces.candidateFits {i : Instr} {row c : BitVec 3} (h : Debounces i row) (hc : IsColumnResult i.a c) :
    CandidateFits i c := by
  have hcols : shapeCols i = colsOf i.a := by
    cases i
    case readColumnsDebounced | scan => rfl
    all_goals simp [Debounces, Instr.op] at h
  rcases hc with hlt | rfl
  · exact .inl (hcols ▸ hlt)
  · exact .inr rfl

/-- A value CONFIGURE, RESET_ROWS and ASSERT_ROW_LOW may return (R80, R90, R91). -/
theorem returnFits_pack {i : Instr} (hop : i.op = 3#4) : returnFits i (some (packDescriptor i.a i.b)) = true := by
  cases i <;> simp_all [Instr.op, returnFits, Instr.a, Instr.b]

theorem returnFits_none {i : Instr} (hop : i.op = 4#4 ∨ i.op = 5#4) : returnFits i none = true := by
  cases i <;> simp_all [Instr.op, returnFits]

/-- A column result is what READ_COLUMNS and READ_COLUMNS_DEBOUNCED may return (R11). -/
theorem returnFits_column {i : Instr} {c : BitVec 3} (hop : i.op = 6#4 ∨ i.op = 7#4) (hc : IsColumnResult i.a c) :
    returnFits i (some (c.setWidth 8)) = true := by
  have hfits (desc : Descriptor) (v : Operand) (hv : v.toNat < colsOf desc ∨ v = 5#8) :
      (v.toNat.blt (colsOf desc) || v.toNat == Config.colSentinel) = true := by
    rcases hv with hlt | rfl
    · simp [hlt]
    · simp
  cases i
  case readColumns desc | readColumnsDebounced desc => exact hfits desc _ hc.setWidth
  all_goals simp [Instr.op] at hop

/-- Where the debounced read goes with the value it ends with is a sound position (R104, R121). -/
theorem debounceExit_sound {i : Instr} {s : State} {c : BitVec 3} (h : Debounces i s.row) (hc : IsColumnResult i.a c) :
    SoundAt i s (debounceExit i s.row c) := by
  cases i
  case readColumnsDebounced desc => exact (soundAt_ret _ _ _).2 (returnFits_column (.inr rfl) hc)
  case scan desc =>
    have hrow : s.row.toNat < rowsOf desc := h.resolve_left (by simp [Instr.op]) |>.2
    unfold debounceExit
    dsimp only
    split
    · simpa [returnFits] using keyIndex_le hrow ‹_›
    · simpa [Instr.op, shapeRows] using ⟨Nat.zero_lt_of_lt hrow, hrow⟩
  all_goals simp [Debounces, Instr.op] at h

/-- The position after a sample is sound (R104). -/
theorem afterSample_sound {i : Instr} {s : State} (h : Debounces i s.row) (hc : IsColumnResult i.a s.cand) :
    SoundAt i s (afterSample i s) := by
  unfold afterSample
  split
  · exact debounceExit_sound h hc
  split
  · exact debounceExit_sound h (.inr rfl)
  · rename_i hconf hiter
    exact (soundAt_dbWait _ _).2 ⟨h, h.candidateFits hc, by simpa using hconf, by simpa using hiter⟩

/-- The position after SC_RESET is sound (R121). -/
theorem scanNext_sound {i : Instr} {s : State} (hop : i.op = 8#4) : SoundAt i s (scanNext i s.row) := by
  unfold scanNext
  split
  · exact (soundAt_scAssert_rd _ _ _).2 ⟨hop, ‹_›⟩
  · cases i <;> simp only [Instr.op, BitVec.reduceEq] at hop
    exact (soundAt_ret _ _ _).2 (Nat.ble_eq_true_of_le (keySentinel_le _))

theorem debounceFirst_sound {i : Instr} {base : Nat} {s : State} (h : Debounces i s.row) :
    SoundAt i (debounceFirst base i.a s) .dbWait :=
  (soundAt_dbWait _ _).2 ⟨h, h.candidateFits (colEnc_isColumnResult _ _), rfl, by simp [debounceFirst]⟩

theorem debounceWait_sound {i : Instr} {s : State} (h : SoundAt i s .dbWait) : SoundAt i (debounceWait s) .dbSample := by
  obtain ⟨hd, hc, hm, hi⟩ := (soundAt_dbWait _ _).1 h
  have hit : (debounceWait s).iter.toNat = s.iter.toNat + 1 := by
    rw [debounceWait, wait_iter, BitVec.toNat_add]
    exact Nat.mod_eq_of_lt (by simp; omega)
  exact (soundAt_dbSample _ _).2 ⟨hd, hc, hm, by omega, by omega⟩

@[simp] theorem bitRead_phase (base : Nat) (k : StoredReg) (at_ : Half → Phase) (n : Nat) (s : State) :
    (bitRead base k at_ n s).phase = at_ (.wr n (Memory.get s.mem (storedAddr base k))) := rfl
@[simp] theorem bitWrite_phase (base : Nat) (k : StoredReg) (v : Byte) (p : Phase) (s : State) :
    (bitWrite base k v p s).phase = p := rfl
@[simp] theorem bitWrite_row (base : Nat) (k : StoredReg) (v : Byte) (p : Phase) (s : State) :
    (bitWrite base k v p s).row = s.row := rfl

/-- An event moves PHASE to a sound position of the operation (R20): the next half or index of a loop, what follows the loop, or the next phase of
the tables of R104 and R121. -/
theorem event_position {i : Instr} {s : State} (h : InProgress i s) (hret : s.phase.atReturn = false) :
    SoundAt i (event i s) (event i s).phase := by
  obtain ⟨-, -, -, hdom, hs⟩ := h
  have hshape := shape_bounds hdom
  cases hp : s.phase with
  | idle => simp [hp] at hs
  | codec | ret v => simp [hp, Phase.atReturn] at hret
  | cfgDirRow h =>
    obtain ⟨hop, hn⟩ := (soundAt_cfgDirRow i s h).1 (hp ▸ hs)
    have hcols : 0 < shapeCols i := by have := hshape (by simp [hop]); omega
    cases h <;> simp only [event, hp, bitRead_phase, bitWrite_phase]
    · exact (soundAt_cfgDirRow _ _ _).2 ⟨hop, hn⟩
    · exact .loopNext (by simp [hop, hcols]) (by simp [hop])
  | cfgDirCol h =>
    obtain ⟨hop, hn⟩ := (soundAt_cfgDirCol i s h).1 (hp ▸ hs)
    have hcols : 0 < shapeCols i := Nat.zero_lt_of_lt hn
    cases h <;> simp only [event, hp, bitRead_phase, bitWrite_phase]
    · exact (soundAt_cfgDirCol _ _ _).2 ⟨hop, hn⟩
    · exact .loopNext (by simp [hop, hcols]) (by simp [hop])
  | cfgOutCol h =>
    obtain ⟨hop, hn⟩ := (soundAt_cfgOutCol i s h).1 (hp ▸ hs)
    cases h <;> simp only [event, hp, bitRead_phase, bitWrite_phase]
    · exact (soundAt_cfgOutCol _ _ _).2 ⟨hop, hn⟩
    · exact .loopNext (by simp [returnFits_pack hop]) (by simp [hop])
  | resetRow h =>
    obtain ⟨hop, hn⟩ := (soundAt_resetRow i s h).1 (hp ▸ hs)
    cases h <;> simp only [event, hp, bitRead_phase, bitWrite_phase]
    · exact (soundAt_resetRow _ _ _).2 ⟨hop, hn⟩
    · exact .loopNext (by simp [returnFits_none (.inl hop)]) (by simp [hop])
  | assertRow h =>
    obtain ⟨hop, hn⟩ := (soundAt_assertRow i s h).1 (hp ▸ hs)
    cases h <;> simp only [event, hp, bitRead_phase, bitWrite_phase]
    · exact (soundAt_assertRow _ _ _).2 ⟨hop, hn⟩
    · exact (soundAt_ret _ _ _).2 (returnFits_none (.inr hop))
  | scReset0 h =>
    obtain ⟨hop, hn⟩ := (soundAt_scReset0 i s h).1 (hp ▸ hs)
    have hrows : 0 < shapeRows i := Nat.zero_lt_of_lt hn
    cases h <;> simp only [event, hp, bitRead_phase, bitWrite_phase]
    · exact (soundAt_scReset0 _ _ _).2 ⟨hop, hn⟩
    · exact .loopNext (by simp [hop, hrows]) (by simp [hop])
  | scAssert h =>
    cases h with
    | rd n =>
      obtain ⟨hop, hn⟩ := (soundAt_scAssert_rd i s n).1 (hp ▸ hs)
      have hrows : shapeRows i ≤ 5 := (hshape (by simp [hop])).2.1
      simp only [event, hp, bitRead_phase]
      refine (soundAt_scAssert_wr _ _ _ _).2 ⟨⟨hop, hn⟩, ?_⟩
      exact (BitVec.toNat_ofNat _ _).trans (Nat.mod_eq_of_lt (by omega))
    | wr n t =>
      obtain ⟨⟨hop, hn⟩, hrow⟩ := (soundAt_scAssert_wr i s n t).1 (hp ▸ hs)
      simp only [event, hp, bitWrite_phase]
      exact (soundAt_dbFirst _ _).2 (.inr ⟨hop, hrow ▸ hn⟩)
  | scReset h =>
    obtain ⟨⟨hop, hn⟩, hrow⟩ := (soundAt_scReset i s h).1 (hp ▸ hs)
    cases h <;> simp only [event, hp, bitRead_phase, bitWrite_phase]
    · exact (soundAt_scReset _ _ _).2 ⟨⟨hop, hn⟩, hrow⟩
    · exact .loopNext (scanNext_sound hop) (by simp [hop, hrow])
  | readColumns =>
    have hop := (soundAt_readColumns i s).1 (hp ▸ hs)
    simp only [event, hp, State.setPhase_phase]
    exact (soundAt_ret _ _ _).2 (returnFits_column (.inl hop) (colEnc_isColumnResult _ _))
  | dbFirst =>
    simp only [event, hp, State.setPhase_phase]
    exact debounceFirst_sound ((soundAt_dbFirst i s).1 (hp ▸ hs))
  | dbWait =>
    simp only [event, hp, State.setPhase_phase]
    exact debounceWait_sound (hp ▸ hs)
  | dbSample =>
    simp only [event, hp, State.setPhase_phase]
    exact afterSample_sound ((soundAt_dbSample i s).1 (hp ▸ hs)).1 (colEnc_isColumnResult _ _)

end Sys2Proof.Machine
end

section
/-! PROOF. Events, acceptance and reset keep the invariant. -/

namespace Sys2Proof.Machine

/-- An event short of the completion keeps an operation in progress (R20). -/
theorem event_inProgress {i : Instr} {s : State} (h : InProgress i s) (hret : s.phase.atReturn = false) :
    InProgress i (event i s) := by
  obtain ⟨e, he⟩ := (event_advance i h.not_idle hret).frame
  exact
    { busy := by rw [he]; exact h.busy
      notDone := by rw [he]; exact h.notDone
      latched := by rw [he]; exact h.latched
      domain := by rw [he]; exact h.domain
      sound := event_position h hret }

/-- An operation without an address operand has no position but its return (R70, R71, R72). -/
theorem SoundAt.atReturn_of_unaddressed {i : Instr} {s : State} {p : Phase} (h : SoundAt i s p) (hk : addressed i = none) :
    p.atReturn = true := by
  have hop : i.op = 0#4 ∨ i.op = 1#4 ∨ i.op = 2#4 := by cases i <;> simp_all [addressed, Instr.op]
  cases p with
  | codec | ret v => rfl
  | scAssert half => cases half <;> rcases hop with hop | hop | hop <;> simp [hop] at h
  | _ => rcases hop with hop | hop | hop <;> simp [hop, Debounces] at h

/-- Short of its return, an operation in progress is at a port of the platform (R35). -/
theorem InProgress.portBase_mem {i : Instr} {s : State} (h : InProgress i s) (hret : s.phase.atReturn = false) :
    portBase i s.cmdAddr ∈ s.ports := by
  cases hk : addressed i with
  | none => simp [h.sound.atReturn_of_unaddressed hk] at hret
  | some k => exact Machine.portBase_mem h.domain hk

/-- An event short of the completion keeps memory canonical and free of anything but DIR and OUT (R32). -/
theorem Advance.keeps_mem {base : Nat} {s t : State} (h : Advance base s t) (hbase : base ∈ s.ports)
    (hwf : Memory.wf s.mem = true) (honly : onlyPortRegs s.mem s.ports = true) :
    Memory.wf t.mem = true ∧ onlyPortRegs t.mem s.ports = true := by
  cases h with
  | write k v p => exact ⟨Memory.wf_set hwf _ _, onlyPortRegs_set honly (isStoredReg_port k hbase)⟩
  | read | sample | wait => exact ⟨hwf, honly⟩

/-- Every event of an operation in progress keeps the invariant. -/
theorem event_inv {i : Instr} {s : State} (hinv : s.inv = true) (h : InProgress i s) : (event i s).inv = true := by
  obtain ⟨hwf, hports, honly, haddr, -⟩ := (inv_iff s).1 hinv
  cases hret : s.phase.atReturn with
  | true =>
    obtain ⟨v, draw, he, -⟩ := event_return h.sound.1 hret
    rw [he]
    exact (inv_iff _).2 ⟨hwf, hports, honly, haddr, rfl⟩
  | false =>
    have hadv := event_advance i h.not_idle hret
    obtain ⟨hwf', honly'⟩ := hadv.keeps_mem (h.portBase_mem hret) hwf honly
    obtain ⟨e, he⟩ := hadv.frame
    refine (inv_iff _).2 ⟨hwf', ?_, ?_, ?_, (sequencerFits_iff _).2 (.inr ⟨i, event_inProgress h hret⟩)⟩
    · rw [he]; exact hports
    · rw [he] at honly' ⊢; exact honly'
    · rw [he]; exact haddr

/-- A step of an operation in progress, in its own words: the wait for the delay collaborator, or one event (R20, R26). -/
theorem eventStep_inProgress {i : Instr} {s : State} (h : InProgress i s) :
    eventStep s = if s.phase = .dbWait ∧ s.waitDone = false then .next s else .next (event i s) := by
  unfold eventStep
  simp [h.latched, h.domain, h.sound.1]

/-- The first position of a command inside its domain is sound (R23). -/
theorem firstPhase_sound {i : Instr} {s : State} {addr aw : Nat} {ports : List Nat} (h : domainRefusal i addr aw ports = none) :
    SoundAt i s (firstPhase i) := by
  have hshape := shape_bounds h
  cases i <;> simp [firstPhase, Instr.op, Debounces, Instr.a] at hshape ⊢ <;> omega

/-- A command accepted inside its domain is in progress (R23). -/
theorem accept_inProgress {i : Instr} {s : State} (h : domainRefusal i s.offeredAddr s.addrWidth s.ports = none) :
    InProgress i (accept i s) where
  busy := rfl
  notDone := rfl
  latched := decodeWord_encode i
  domain := domainRefusal_mod h
  sound := firstPhase_sound h

theorem accept_inv {i : Instr} {s : State} (hinv : s.inv = true)
    (h : domainRefusal i s.offeredAddr s.addrWidth s.ports = none) : (accept i s).inv = true := by
  obtain ⟨hwf, hports, honly, -, -⟩ := (inv_iff s).1 hinv
  exact (inv_iff _).2
    ⟨hwf, hports, honly, inSpace_mod _ _, (sequencerFits_iff _).2 (.inr ⟨i, accept_inProgress h⟩)⟩

theorem blockReset_inv {s : State} (hinv : s.inv = true) : (blockReset s).inv = true := by
  obtain ⟨hwf, hports, honly, -, -⟩ := (inv_iff s).1 hinv
  exact (inv_iff _).2 ⟨hwf, hports, honly, (inSpace_iff _ _).2 (Nat.two_pow_pos _), rfl⟩

end Sys2Proof.Machine
end

section
/-! PROOF. Runs of events, and the two events of a bit operation, alone and in a loop (R7, R33, R34). -/

namespace Sys2Proof.Machine

/-- An event short of the completion, made by the operation in progress; in DB_WAIT the delay collaborator answers (R20, R26). -/
structure Moves (i : Instr) (s t : State) : Prop where
  inProgress : InProgress i s
  notReturn : s.phase.atReturn = false
  answered : s.phase = .dbWait → s.waitDone = true
  eq : t = event i s

/-- Some events of the operation in progress, all short of its completion. -/
abbrev Runs (i : Instr) : State → State → Prop := Relation.ReflTransGen (Moves i)

/-- `t` is `s` after some events short of a completion: the latched command, the flags, RESULT, and all inputs but the environment are the same, and
the history has grown. -/
def RunFrom (s t : State) : Prop := ∃ es,
  t = { s with
    phase := t.phase, row := t.row, col := t.col, sample := t.sample, cand := t.cand, matchCount := t.matchCount, iter := t.iter
    mem := t.mem, env := t.env, draw := t.draw, history := es ++ s.history }

theorem RunFrom.trans {s t u : State} (h : RunFrom s t) (h' : RunFrom t u) : RunFrom s u := by
  obtain ⟨es, he⟩ := h
  obtain ⟨es', he'⟩ := h'
  refine ⟨es' ++ es, he'.trans ?_⟩
  rw [he, List.append_assoc]

theorem Moves.advance {i : Instr} {s t : State} (h : Moves i s t) : Advance (portBase i s.cmdAddr) s t :=
  h.eq ▸ event_advance i h.inProgress.not_idle h.notReturn

theorem Moves.inProgress_after {i : Instr} {s t : State} (h : Moves i s t) : InProgress i t :=
  h.eq ▸ event_inProgress h.inProgress h.notReturn

theorem Moves.runFrom {i : Instr} {s t : State} (h : Moves i s t) : RunFrom s t := by
  obtain ⟨e, he⟩ := h.advance.frame
  exact ⟨[e], he⟩

theorem Runs.runFrom {i : Instr} {s t : State} (h : Runs i s t) : RunFrom s t := by
  induction h with
  | refl => exact ⟨[], rfl⟩
  | tail _ hm ih => exact ih.trans hm.runFrom

theorem Runs.cmdAddr {i : Instr} {s t : State} (h : Runs i s t) : t.cmdAddr = s.cmdAddr := by
  obtain ⟨es, he⟩ := h.runFrom
  rw [he]

theorem Runs.waitDone {i : Instr} {s t : State} (h : Runs i s t) : t.waitDone = s.waitDone := by
  obtain ⟨es, he⟩ := h.runFrom
  rw [he]

theorem Runs.inProgress {i : Instr} {s t : State} (h : Runs i s t) (hs : InProgress i s) : InProgress i t := by
  induction h with
  | refl => exact hs
  | tail _ hm _ => exact hm.inProgress_after

/-- The operation runs at the port at `base`. -/
structure InProgressAt (i : Instr) (base : Nat) (s : State) : Prop extends InProgress i s where
  portBase_eq : portBase i s.cmdAddr = base

theorem Runs.inProgressAt {i : Instr} {base : Nat} {s t : State} (h : Runs i s t) (hs : InProgressAt i base s) :
    InProgressAt i base t :=
  ⟨h.inProgress hs.toInProgress, h.cmdAddr ▸ hs.portBase_eq⟩

/-- A bit operation: one read, then one write of the byte read as `f` changes it (R33, R34). -/
def bitOp (base : Nat) (k : StoredReg) (f : Byte → Byte) (s : State) : State :=
  portWrite base k (f (portRead base k s).1) (portRead base k s).2

/-- The positions of the two halves of a bit operation for index `n` (R33, R34): what the operation's events do there, `prep` being the loop index's
update and `next` the position after the write. -/
structure BitPosition (i : Instr) (at_ : Half → Phase) (k : StoredReg) (n : Nat) (prep : State → State) (f : Byte → Byte)
    (next : BitVec 3 → Phase) : Prop where
  isBit : ∀ h, (at_ h).atReturn = false ∧ at_ h ≠ .dbWait
  read : ∀ s, s.phase = at_ (.rd n) → event i s = bitRead (portBase i s.cmdAddr) k at_ n (prep s)
  write : ∀ s t, s.phase = at_ (.wr n t) → event i s = bitWrite (portBase i s.cmdAddr) k (f t) (next s.row) s

/-- The two events of a bit operation do what the bit operation does, and move PHASE on. -/
theorem BitPosition.runs {i : Instr} {at_ : Half → Phase} {k : StoredReg} {n : Nat} {prep : State → State} {f : Byte → Byte}
    {next : BitVec 3 → Phase} (pos : BitPosition i at_ k n prep f next) {base : Nat} {s : State} (h : InProgressAt i base s)
    (hp : s.phase = at_ (.rd n)) : Runs i s ((bitOp base k f (prep s)).setPhase (next (prep s).row)) := by
  have hread : Moves i s (bitRead base k at_ n (prep s)) :=
    ⟨h.toInProgress, by rw [hp]; exact (pos.isBit _).1, fun hw => absurd (hp ▸ hw) (pos.isBit _).2,
      by rw [pos.read s hp, h.portBase_eq]⟩
  have hafter := Runs.inProgressAt (.single hread) h
  refine .tail (.single hread) ⟨hafter.toInProgress, (pos.isBit _).1, fun hw => absurd hw (pos.isBit _).2, ?_⟩
  rw [pos.write _ _ rfl, hafter.portBase_eq]
  rfl

/-- A loop of bit operations over `[0, n)` (R7). -/
def bitLoop (base : Nat) (k : StoredReg) (f : Nat → Byte → Byte) (prep : Nat → State → State) (n : Nat) : State → State :=
  forEach n fun j s => bitOp base k (f j) (prep j s)

theorem bitLoop_succ (base : Nat) (k : StoredReg) (f : Nat → Byte → Byte) (prep : Nat → State → State) (n : Nat) (s : State) :
    bitLoop base k f prep (n + 1) s = bitOp base k (f n) (prep n (bitLoop base k f prep n s)) := forEach_succ _ _ _

section Loops

variable {i : Instr} {at_ : Half → Phase} {k : StoredReg} {m : Nat} {prep : Nat → State → State} {f : Nat → Byte → Byte}
  {after : BitVec 3 → Phase} {base : Nat} {s : State}
  (pos : ∀ n, BitPosition i at_ k n (prep n) (f n) fun row => loopNext m n at_ (after row))
  (hprep : ∀ n s p, prep n (s.setPhase p) = (prep n s).setPhase p) (h : InProgressAt i base (s.setPhase (at_ (.rd 0))))

include pos hprep h

/-- One pass of a loop, after the events of the passes before it. -/
theorem runs_bitLoop_pass {n : Nat}
    (hrun : Runs i (s.setPhase (at_ (.rd 0))) ((bitLoop base k f prep n s).setPhase (at_ (.rd n)))) :
    Runs i (s.setPhase (at_ (.rd 0))) ((bitLoop base k f prep (n + 1) s).setPhase
      (loopNext m n at_ (after (bitLoop base k f prep (n + 1) s).row))) := by
  have hbit := (pos n).runs (hrun.inProgressAt h) rfl
  rw [hprep] at hbit
  rw [bitLoop_succ]
  exact hrun.trans hbit

theorem runs_bitLoop_below {n : Nat} (hn : n < m) :
    Runs i (s.setPhase (at_ (.rd 0))) ((bitLoop base k f prep n s).setPhase (at_ (.rd n))) := by
  induction n with
  | zero => exact .refl
  | succ n ih =>
    have hpass := runs_bitLoop_pass pos hprep h (ih (by omega))
    rwa [loopNext, if_pos hn] at hpass

/-- The events of a whole loop do what the loop does, and PHASE moves on to what follows it. -/
theorem runs_bitLoop (hm : 0 < m) :
    Runs i (s.setPhase (at_ (.rd 0))) ((bitLoop base k f prep m s).setPhase (after (bitLoop base k f prep m s).row)) := by
  obtain ⟨n, rfl⟩ : ∃ n, m = n + 1 := ⟨m - 1, by omega⟩
  have hpass := runs_bitLoop_pass pos hprep h (runs_bitLoop_below pos hprep h (Nat.lt_succ_self n))
  rwa [loopNext, if_neg (lt_irrefl _)] at hpass

end Loops

end Sys2Proof.Machine
end

section
/-! PROOF. Each operation's events, from its first position to its return, do what its meaning says (R80, R90, R91, R100, R102, R120). -/

namespace Sys2Proof.Machine

/-! The bit operations of the pseudocodes, position by position (R80, R90, R91, R120). -/
section BitPositions

variable (i : Instr) (n : Nat)

theorem bitPosition_cfgDirRow : BitPosition i .cfgDirRow .dir n (.setRow n) (· ||| bit n)
    fun _ => loopNext (shapeRows i) n .cfgDirRow (.cfgDirCol (.rd 0)) :=
  ⟨fun _ => ⟨rfl, nofun⟩, fun _ hp => by simp only [event, hp], fun _ _ hp => by simp only [event, hp]⟩
theorem bitPosition_cfgDirCol : BitPosition i .cfgDirCol .dir n (.setCol n) (· &&& ~~~bit (shapeRows i + n))
    fun _ => loopNext (shapeCols i) n .cfgDirCol (.cfgOutCol (.rd 0)) :=
  ⟨fun _ => ⟨rfl, nofun⟩, fun _ hp => by simp only [event, hp], fun _ _ hp => by simp only [event, hp]⟩
theorem bitPosition_cfgOutCol : BitPosition i .cfgOutCol .out n (.setCol n) (· &&& ~~~bit (shapeRows i + n))
    fun _ => loopNext (shapeCols i) n .cfgOutCol (.ret (some (packDescriptor i.a i.b))) :=
  ⟨fun _ => ⟨rfl, nofun⟩, fun _ hp => by simp only [event, hp], fun _ _ hp => by simp only [event, hp]⟩
theorem bitPosition_resetRow : BitPosition i .resetRow .out n (.setRow n) (· ||| bit n)
    fun _ => loopNext (shapeRows i) n .resetRow (.ret none) :=
  ⟨fun _ => ⟨rfl, nofun⟩, fun _ hp => by simp only [event, hp], fun _ _ hp => by simp only [event, hp]⟩
theorem bitPosition_assertRow : BitPosition i .assertRow .out n id (· &&& ~~~bit n) fun _ => .ret none :=
  ⟨fun _ => ⟨rfl, nofun⟩, fun _ hp => by simp only [event, hp, id], fun _ _ hp => by simp only [event, hp]⟩
theorem bitPosition_scReset0 : BitPosition i .scReset0 .out n id (· ||| bit n)
    fun _ => loopNext (shapeRows i) n .scReset0 (.scAssert (.rd 0)) :=
  ⟨fun _ => ⟨rfl, nofun⟩, fun _ hp => by simp only [event, hp, id], fun _ _ hp => by simp only [event, hp]⟩
theorem bitPosition_scAssert : BitPosition i .scAssert .out n (.setRow n) (· &&& ~~~bit n) fun _ => .dbFirst :=
  ⟨fun _ => ⟨rfl, nofun⟩, fun _ hp => by simp only [event, hp], fun _ _ hp => by simp only [event, hp]⟩
theorem bitPosition_scReset : BitPosition i .scReset .out n id (· ||| bit n)
    fun row => loopNext (shapeRows i) n .scReset (scanNext i row) :=
  ⟨fun _ => ⟨rfl, nofun⟩, fun _ hp => by simp only [event, hp, id], fun _ _ hp => by simp only [event, hp]⟩

end BitPositions

/-! Each operation's events, from its first position to its return, do what its meaning does. -/
section Operations

variable {base : Nat} {s : State}

theorem runs_configure {rows cols : Operand} (h : InProgressAt (.configure rows cols) base (s.setPhase (.cfgDirRow (.rd 0)))) :
    Runs (.configure rows cols) (s.setPhase (.cfgDirRow (.rd 0)))
      ((configurePins base rows.toNat cols.toNat s).setPhase (.ret (some (packDescriptor rows cols)))) := by
  obtain ⟨hrows, -, hcols, -⟩ := shape_bounds h.domain (by simp [Instr.op])
  have hdirRows := runs_bitLoop (bitPosition_cfgDirRow _) (fun _ _ _ => rfl) h (by omega)
  have hdirCols := runs_bitLoop (bitPosition_cfgDirCol _) (fun _ _ _ => rfl) (hdirRows.inProgressAt h) (by omega)
  have houtCols := runs_bitLoop (bitPosition_cfgOutCol _) (fun _ _ _ => rfl) (hdirCols.inProgressAt (hdirRows.inProgressAt h))
    (by omega)
  exact hdirRows.trans (hdirCols.trans houtCols)

theorem runs_resetRows {desc : Descriptor} (h : InProgressAt (.resetRows desc) base (s.setPhase (.resetRow (.rd 0)))) :
    Runs (.resetRows desc) (s.setPhase (.resetRow (.rd 0))) ((resetRowsLoop base (rowsOf desc) s).setPhase (.ret none)) := by
  obtain ⟨hrows, -⟩ := shape_bounds h.domain (by simp [Instr.op])
  exact runs_bitLoop (bitPosition_resetRow _) (fun _ _ _ => rfl) h (by omega)

theorem runs_assertRowLow {r : Operand} (h : InProgressAt (.assertRowLow r) base (s.setPhase (.assertRow (.rd r.toNat)))) :
    Runs (.assertRowLow r) (s.setPhase (.assertRow (.rd r.toNat)))
      ((portClearBit base .out r.toNat s).setPhase (.ret none)) :=
  (bitPosition_assertRow _ _).runs h rfl

theorem runs_readColumns {desc : Descriptor} (h : InProgressAt (.readColumns desc) base (s.setPhase .readColumns)) :
    Runs (.readColumns desc) (s.setPhase .readColumns)
      ((readSample base desc s).2.setPhase (.ret (some ((readSample base desc s).1.setWidth 8)))) :=
  .single ⟨h.toInProgress, rfl, nofun, by rw [← h.portBase_eq]; rfl⟩

/-! The debounced read, in READ_COLUMNS_DEBOUNCED and inside SCAN. -/

variable {i : Instr}

/-- DB_WAIT and DB_SAMPLE, one iteration (R104). -/
theorem runs_iteration (h : InProgressAt i base (s.setPhase .dbWait)) (hw : s.waitDone = true) :
    Runs i (s.setPhase .dbWait) ((debounceSample base i.a (debounceWait s)).setPhase
      (afterSample i (debounceSample base i.a (debounceWait s)))) := by
  have hwait : Moves i (s.setPhase .dbWait) ((debounceWait s).setPhase .dbSample) := ⟨h.toInProgress, rfl, fun _ => hw, rfl⟩
  have hafter := Runs.inProgressAt (.single hwait) h
  refine .tail (.single hwait) ⟨hafter.toInProgress, rfl, nofun, ?_⟩
  have hbase : portBase i s.cmdAddr = base := h.portBase_eq
  rw [← hbase]
  rfl

/-- The position after a sample that confirms nothing (R104). -/
def afterUnconfirmed (i : Instr) (s : State) : Phase := if 10 ≤ s.iter.toNat then debounceExit i s.row 5#3 else .dbWait

theorem afterSample_eq : afterSample i s = if confirmed s then debounceExit i s.row s.cand else afterUnconfirmed i s := rfl

theorem iteration_iter {desc : Descriptor} {n : Nat} (hn : s.iter.toNat + (n + 1) = 10) :
    (debounceSample base desc (debounceWait s)).iter.toNat + n = 10 := by
  have hiter : (debounceSample base desc (debounceWait s)).iter.toNat = (s.iter.toNat + 1) % 16 := BitVec.toNat_add _ _
  omega

/-- The `n` iterations left (R102): the value of the loop decides where PHASE goes. -/
theorem runs_debounceLoop {n : Nat} (h : InProgressAt i base (s.setPhase (afterUnconfirmed i s))) (hw : s.waitDone = true)
    (hn : s.iter.toNat + n = 10) :
    Runs i (s.setPhase (afterUnconfirmed i s)) ((debounceLoop base i.a n s).2.setPhase
      (debounceExit i s.row (debounceLoop base i.a n s).1)) := by
  induction n generalizing s with
  | zero => rw [afterUnconfirmed, if_pos (by omega)]; exact .refl
  | succ n ih =>
    rw [afterUnconfirmed, if_neg (by omega)] at h ⊢
    have hstep := runs_iteration h hw
    rw [afterSample_eq] at hstep
    unfold debounceLoop
    dsimp only
    split
    · rwa [if_pos ‹_›] at hstep
    · rw [if_neg ‹_›] at hstep
      exact hstep.trans (ih (hstep.inProgressAt h) hw (iteration_iter hn))

/-- The debounced read (R102, R104). -/
theorem runs_debounced (h : InProgressAt i base (s.setPhase .dbFirst)) (hw : s.waitDone = true) :
    Runs i (s.setPhase .dbFirst) ((debounced base i.a s).2.setPhase (debounceExit i s.row (debounced base i.a s).1)) := by
  have hfirst : Moves i (s.setPhase .dbFirst) ((debounceFirst base i.a s).setPhase .dbWait) :=
    ⟨h.toInProgress, rfl, nofun, by rw [← h.portBase_eq]; rfl⟩
  exact .head hfirst (runs_debounceLoop (s := debounceFirst base i.a s) (Runs.inProgressAt (.single hfirst) h) hw rfl)

theorem runs_readColumnsDebounced {desc : Descriptor} (h : InProgressAt (.readColumnsDebounced desc) base (s.setPhase .dbFirst))
    (hw : s.waitDone = true) :
    Runs (.readColumnsDebounced desc) (s.setPhase .dbFirst)
      ((debounced base desc s).2.setPhase (.ret (some ((debounced base desc s).1.setWidth 8)))) :=
  runs_debounced h hw

/-! The scan. -/

variable {desc : Descriptor}

theorem toNat_row {row : Nat} (h : row < rowsOf desc) : (BitVec.ofNat 3 row).toNat = row :=
  (BitVec.toNat_ofNat _ _).trans (Nat.mod_eq_of_lt (h.trans (rowsOf_lt desc)))

theorem debounced_row (row : Nat) : (debounced base desc (scanAssertRow base row s)).2.row = BitVec.ofNat 3 row := by
  rw [debounced_sampled base desc (scanAssertRow base row s)]
  rfl

theorem scanResetRows_row (rows : Nat) : (scanResetRows base rows s).row = s.row :=
  forEach_induct (P := fun _ t => t.row = s.row) rows rfl fun _ _ _ ht => ht

/-- One row of the scan: SC_ASSERT, then the debounced read, whose value decides what follows (SC_CHECK, R121). -/
theorem runs_scanRow {row : Nat} (h : InProgressAt (.scan desc) base (s.setPhase (.scAssert (.rd row)))) (hw : s.waitDone = true) :
    Runs (.scan desc) (s.setPhase (.scAssert (.rd row)))
      ((debounced base desc (scanAssertRow base row s)).2.setPhase
        (debounceExit (.scan desc) (BitVec.ofNat 3 row) (debounced base desc (scanAssertRow base row s)).1)) := by
  have hassert : Runs (.scan desc) (s.setPhase (.scAssert (.rd row))) ((scanAssertRow base row s).setPhase .dbFirst) :=
    (bitPosition_scAssert _ _).runs h rfl
  exact hassert.trans (runs_debounced (hassert.inProgressAt h) hw)

/-- The position at which the scan comes to row `row` (R121): its assertion, or the end when no row is left. -/
def scanRowPhase (desc : Descriptor) (row : Nat) : Phase :=
  if row < rowsOf desc then .scAssert (.rd row) else .ret (some (keySentinel desc))

/-- SC_RESET after row `row` (R121). -/
theorem runs_scanReset {row : Nat} (h : InProgressAt (.scan desc) base (s.setPhase (.scReset (.rd 0))))
    (hrow : s.row = BitVec.ofNat 3 row) (hlt : row < rowsOf desc) :
    Runs (.scan desc) (s.setPhase (.scReset (.rd 0)))
      ((scanResetRows base (rowsOf desc) s).setPhase (scanRowPhase desc (row + 1))) := by
  have hloop := runs_bitLoop (bitPosition_scReset _) (fun _ _ _ => rfl) h (Nat.zero_lt_of_lt hlt)
  change Runs _ _ ((scanResetRows base (rowsOf desc) s).setPhase (scanNext _ (scanResetRows base (rowsOf desc) s).row)) at hloop
  rwa [scanResetRows_row, hrow, scanNext, toNat_row hlt] at hloop

/-- The `n` rows left of the scan, `row` the next (R120). -/
theorem runs_scanRows {n row : Nat} (h : InProgressAt (.scan desc) base (s.setPhase (scanRowPhase desc row)))
    (hw : s.waitDone = true) (hn : row + n = rowsOf desc) :
    Runs (.scan desc) (s.setPhase (scanRowPhase desc row))
      ((scanRows base desc n row s).2.setPhase (.ret (some (scanRows base desc n row s).1))) := by
  induction n generalizing s row with
  | zero => rw [scanRowPhase, if_neg (by omega)]; exact .refl
  | succ n ih =>
    have hlt : row < rowsOf desc := by omega
    rw [scanRowPhase, if_pos hlt] at h ⊢
    have hread := runs_scanRow h hw
    unfold debounceExit at hread
    dsimp only at hread
    unfold scanRows
    dsimp only
    split
    · rwa [if_pos ‹_›, toNat_row hlt] at hread
    · rw [if_neg ‹_›] at hread
      have hreset := runs_scanReset (hread.inProgressAt h) (debounced_row row) hlt
      have hrun : Runs _ _ _ := hread.trans hreset
      exact hrun.trans (ih (hrun.inProgressAt h) (hrun.waitDone.trans hw) (by omega))

theorem runs_scan (h : InProgressAt (.scan desc) base (s.setPhase (.scReset0 (.rd 0)))) (hw : s.waitDone = true) :
    Runs (.scan desc) (s.setPhase (.scReset0 (.rd 0)))
      ((scanKeys base desc s).2.setPhase (.ret (some (scanKeys base desc s).1))) := by
  have hrows : 0 < rowsOf desc := Nat.zero_lt_of_lt (shape_bounds h.domain (by simp [Instr.op])).1
  have hreset : Runs (.scan desc) (s.setPhase (.scReset0 (.rd 0)))
      ((scanResetRows base (rowsOf desc) s).setPhase (scanRowPhase desc 0)) := by
    rw [scanRowPhase, if_pos hrows]
    exact runs_bitLoop (bitPosition_scReset0 _) (fun _ _ _ => rfl) h hrows
  exact hreset.trans (runs_scanRows (hreset.inProgressAt h) (hreset.waitDone.trans hw) (Nat.zero_add _))

end Operations

end Sys2Proof.Machine
end

section
/-! PROOF. A whole command is its acceptance and the events that follow; a step, case by case; and the invariant along every step. -/

namespace Sys2Proof.Machine

/-- What an operation does from its acceptance on. -/
def execBody : Instr → State → Answer
  | .encode rows cols, s => .next (encodeReturn rows cols s)
  | .decodeRows desc, s => .next (complete (some (rowsField desc)) s)
  | .decodeCols desc, s => .next (complete (some (colsField desc)) s)
  | .configure rows cols, s =>
    .next (complete (some (packDescriptor rows cols))
      (configurePins (portBase (.configure rows cols) s.cmdAddr) rows.toNat cols.toNat s))
  | .resetRows desc, s => .next (complete none (resetRowsLoop (portBase (.resetRows desc) s.cmdAddr) (rowsOf desc) s))
  | .assertRowLow r, s => .next (complete none (portClearBit (portBase (.assertRowLow r) s.cmdAddr) .out r.toNat s))
  | .readColumns desc, s =>
    let r := readSample (portBase (.readColumns desc) s.cmdAddr) desc s
    .next (complete (some (r.1.setWidth 8)) r.2)
  | .readColumnsDebounced desc, s =>
    let r := debounced (portBase (.readColumnsDebounced desc) s.cmdAddr) desc s
    ifWaitsEnd s (complete (some (r.1.setWidth 8)) r.2)
  | .scan desc, s =>
    let r := scanKeys (portBase (.scan desc) s.cmdAddr) desc s
    ifWaitsEnd s (complete (some r.1) r.2)

/-- The meaning of an operation is its body, run as a command (R23). -/
theorem exec_eq_runCommand (i : Instr) (s : State) : exec i s = runCommand i s (execBody i) := by cases i <;> rfl

theorem encodeReturn_setPhase (rows cols : Operand) (s : State) (p : Phase) :
    encodeReturn rows cols (s.setPhase p) = encodeReturn rows cols s := by
  unfold encodeReturn encodeDraw
  split <;> rfl

/-- The body of a command inside its domain makes the events of the operation in progress, from its first position to its return (R20, R24). -/
theorem execBody_runs {i : Instr} {s t : State} (h : InProgress i (s.setPhase (firstPhase i))) (ht : execBody i s = .next t) :
    ∃ u, Runs i (s.setPhase (firstPhase i)) u ∧ u.phase.atReturn = true ∧ t = event i u := by
  have hat : InProgressAt i (portBase i s.cmdAddr) (s.setPhase (firstPhase i)) := ⟨h, rfl⟩
  cases i with
  | encode rows cols =>
    cases ht
    exact ⟨_, .refl, rfl, (encodeReturn_setPhase rows cols s .codec).symm⟩
  | decodeRows desc | decodeCols desc =>
    cases ht
    exact ⟨_, .refl, rfl, rfl⟩
  | configure rows cols =>
    cases ht
    exact ⟨_, runs_configure hat, rfl, rfl⟩
  | resetRows desc =>
    cases ht
    exact ⟨_, runs_resetRows hat, rfl, rfl⟩
  | assertRowLow r =>
    cases ht
    exact ⟨_, runs_assertRowLow hat, rfl, rfl⟩
  | readColumns desc =>
    cases ht
    exact ⟨_, runs_readColumns hat, rfl, rfl⟩
  | readColumnsDebounced desc =>
    obtain ⟨hw, rfl⟩ := ifWaitsEnd_next ht
    exact ⟨_, runs_readColumnsDebounced hat hw, rfl, rfl⟩
  | scan desc =>
    obtain ⟨hw, rfl⟩ := ifWaitsEnd_next ht
    exact ⟨_, runs_scan hat hw, rfl, rfl⟩

/-- A command inside its domain, offered to a free block, is accepted and run (R23). -/
theorem runCommand_accepted {i : Instr} {s : State} (body : State → Answer) (hb : s.busy = false)
    (h : domainRefusal i s.offeredAddr s.addrWidth s.ports = none) : runCommand i s body = body (accept i s) := by
  simp [runCommand, hb, h]

/-- A whole command that completes is inside its domain and makes the events of the operation in progress, from its acceptance to its return
(R20, R23, R24). -/
theorem exec_runs {i : Instr} {s t : State} (hb : s.busy = false) (h : exec i s = .next t) :
    domainRefusal i s.offeredAddr s.addrWidth s.ports = none ∧
      ∃ u, Runs i (accept i s) u ∧ u.phase.atReturn = true ∧ t = event i u := by
  rw [exec_eq_runCommand] at h
  obtain ⟨hdom, hbody⟩ := runCommand_next hb h
  exact ⟨hdom, execBody_runs (s := accept i s) (accept_inProgress hdom) hbody⟩

/-! ### A step -/

theorem step_rst {s : State} (hr : s.rst = true) : step s = .next (blockReset s) := if_pos hr

theorem step_busy {s : State} (hr : s.rst = false) (hb : s.busy = true) : step s = eventStep s := by
  simp [step, hr, hb]

theorem step_unoffered {s : State} (hr : s.rst = false) (hb : s.busy = false) (ho : s.offers = []) : step s = .next s := by
  simp [step, hr, hb, ho]

section Offered

variable {s : State} {o : Offer} {rest : List Offer} {i : Instr}

theorem step_wholeCommand (hr : s.rst = false) (hb : s.busy = false) (hpace : s.pace = .wholeCommand) (ho : s.offers = o :: rest)
    (hd : decodeWord o.word = .instr i) : step s = exec i s := by
  simp [step, hr, hb, hpace, ho, withDecoded, hd]

theorem step_oneEvent (hr : s.rst = false) (hb : s.busy = false) (hpace : s.pace = .oneEvent) (ho : s.offers = o :: rest)
    (hd : decodeWord o.word = .instr i) : step s = acceptStep i s := by
  simp [step, hr, hb, hpace, ho, withDecoded, hd]

end Offered

/-- What a step that answers a next state has done: the reset, a step of the operation in progress, nothing when nothing is offered, or the command
offered, whole or as far as its acceptance. -/
theorem step_next {s t : State} (h : step s = .next t) :
    (s.rst = true ∧ t = blockReset s) ∨
    (s.rst = false ∧ s.busy = true ∧ eventStep s = .next t) ∨
    (s.rst = false ∧ s.busy = false ∧ t = s) ∨
    (s.rst = false ∧ s.busy = false ∧ ∃ i, exec i s = .next t ∨ acceptStep i s = .next t) := by
  cases hr : s.rst with
  | true =>
    rw [step_rst hr] at h
    cases h
    exact .inl ⟨rfl, rfl⟩
  | false =>
    cases hb : s.busy with
    | true => exact .inr (.inl ⟨rfl, rfl, step_busy hr hb ▸ h⟩)
    | false =>
      cases ho : s.offers with
      | nil =>
        rw [step_unoffered hr hb ho] at h
        cases h
        exact .inr (.inr (.inl ⟨rfl, rfl, rfl⟩))
      | cons o rest =>
        refine .inr (.inr (.inr ⟨rfl, rfl, ?_⟩))
        cases hd : decodeWord o.word with
        | instr i =>
          cases hpace : s.pace with
          | wholeCommand => exact ⟨i, .inl (step_wholeCommand hr hb hpace ho hd ▸ h)⟩
          | oneEvent => exact ⟨i, .inr (step_oneEvent hr hb hpace ho hd ▸ h)⟩
        | reservedOpcode | reservedOperand => simp [step, hr, hb, ho, withDecoded, hd] at h

/-- An acceptance that answers a next state, in a free block (R23). -/
theorem acceptStep_next {i : Instr} {s t : State} (hb : s.busy = false) (h : acceptStep i s = .next t) :
    domainRefusal i s.offeredAddr s.addrWidth s.ports = none ∧ t = accept i s := by
  obtain ⟨hdom, hbody⟩ := runCommand_next hb h
  cases hbody
  exact ⟨hdom, rfl⟩

theorem Runs.inv {i : Instr} {s t : State} (h : Runs i s t) (hinv : s.inv = true) : t.inv = true := by
  induction h with
  | refl => exact hinv
  | tail _ hm ih => exact hm.eq ▸ event_inv ih hm.inProgress

/-- Settles O17: the reset, the acceptance and each event keep the invariant, and a whole command is an acceptance and the events that follow it. -/
theorem stepKeepsInvariant : Obligations.StepKeepsInvariant := by
  intro s t hinv h
  rcases step_next h with ⟨-, rfl⟩ | ⟨-, hb, hev⟩ | ⟨-, -, rfl⟩ | ⟨-, hb, i, hexec | hacc⟩
  · exact blockReset_inv hinv
  · obtain ⟨i, hi⟩ := inProgress_of_inv hinv hb
    rw [eventStep_inProgress hi] at hev
    split at hev <;> cases hev
    · exact hinv
    · exact event_inv hinv hi
  · exact hinv
  · obtain ⟨hdom, u, hrun, -, rfl⟩ := exec_runs hb hexec
    exact event_inv (hrun.inv (accept_inv hinv hdom)) (hrun.inProgress (accept_inProgress hdom))
  · obtain ⟨hdom, rfl⟩ := acceptStep_next hb hacc
    exact accept_inv hinv hdom

end Sys2Proof.Machine
end

section
/-! PROOF. What a step does to the command interface, the history, the inputs and RESULT. -/

namespace Sys2Proof.Machine

/-- Settles O5. -/
theorem stepRunsTheOfferedCommand : Obligations.StepRunsTheOfferedCommand :=
  ⟨fun _ _ _ _ hr hb ho hd =>
      ⟨fun hpace => step_wholeCommand hr hb hpace ho hd, fun hpace => step_oneEvent hr hb hpace ho hd⟩,
    fun _ hr hb ho => step_unoffered hr hb ho⟩

/-- What a step of an operation in progress has done, if it answers a next state: nothing, in DB_WAIT, or one event. -/
theorem eventStep_next {s t : State} (h : eventStep s = .next t) : t = s ∨ ∃ i, phaseFits i s.phase = true ∧ t = event i s := by
  unfold eventStep at h
  split at h
  · cases h
  · cases h
  split at h
  · cases h
  split at h
  · cases h
  rename_i hfit
  split at h <;> cases h
  · exact .inl rfl
  · exact .inr ⟨_, by simpa using hfit, rfl⟩

/-- An answer whose next state is changed by `g`. -/
def mapNext (g : State → State) : Answer → Answer
  | .next t => .next (g t)
  | .fault r => .fault r
  | .refused r => .refused r

/-- The state with other commands on the interface. -/
def State.withOffers (l : List Offer) (s : State) : State := { s with offers := l }

/-- What is offered has no part in an event (R23). -/
theorem event_withOffers (i : Instr) (l : List Offer) (s : State) : event i (s.withOffers l) = (event i s).withOffers l := by
  have hp' : (s.withOffers l).phase = s.phase := rfl
  cases hp : s.phase with
  | idle =>
    rw [hp] at hp'
    simp only [event, hp, hp']
  | readColumns | dbFirst | dbWait | dbSample | ret v =>
    rw [hp] at hp'
    simp only [event, hp, hp']
    rfl
  | codec =>
    rw [hp] at hp'
    simp only [event, hp, hp']
    cases i with
    | encode rows cols => simp only [codecReturn, encodeReturn, encodeDraw]; split <;> rfl
    | _ => rfl
  | cfgDirRow h | cfgDirCol h | cfgOutCol h | resetRow h | assertRow h | scReset0 h | scAssert h | scReset h =>
    cases h <;> rw [hp] at hp' <;> simp only [event, hp, hp'] <;> rfl

theorem eventStep_withOffers (l : List Offer) (s : State) :
    eventStep (s.withOffers l) = mapNext (State.withOffers l) (eventStep s) := by
  simp only [eventStep, event_withOffers]
  dsimp only [State.withOffers]
  split
  · rfl
  · rfl
  split
  · rfl
  · rw [apply_ite (mapNext _), apply_ite (mapNext _)]
    rfl

/-- The inputs of a step as they were, but for the coming levels a script has used up (R18, R29). -/
def Env.UsedUp (e e' : Env) : Prop :=
  (e = .free → e' = .free) ∧ (∀ desc pressed, e = .idealMatrix desc pressed → e' = .idealMatrix desc pressed) ∧
    ∀ levels, e = .script levels → ∃ k, e' = .script (levels.drop k)

theorem Env.UsedUp.refl (e : Env) : e.UsedUp e := ⟨id, fun _ _ => id, fun _ h => ⟨0, h⟩⟩

theorem Env.UsedUp.trans {e e' e'' : Env} (h : e.UsedUp e') (h' : e'.UsedUp e'') : e.UsedUp e'' := by
  obtain ⟨hfree, hideal, hscript⟩ := h
  obtain ⟨hfree', hideal', hscript'⟩ := h'
  refine ⟨hfree' ∘ hfree, fun desc pressed he => hideal' _ _ (hideal _ _ he), fun levels he => ?_⟩
  obtain ⟨k, hk⟩ := hscript levels he
  obtain ⟨k', hk'⟩ := hscript' _ hk
  exact ⟨k + k', by rw [hk', List.drop_drop]⟩

/-- A read of IN uses up one level of a script and nothing of the other environments (R18). -/
theorem Env.next_usedUp (e : Env) (draw : Nat) (dir out : Byte) : e.UsedUp (e.next draw dir out).2.1 := by
  cases e with
  | free => exact .refl _
  | idealMatrix desc pressed => exact .refl _
  | script levels =>
    cases levels with
    | nil => exact .refl _
    | cons l ls => exact ⟨nofun, nofun, fun levels h => ⟨1, by cases h; rfl⟩⟩

/-- What the block does not own is as it was, but for the levels used up (R29). -/
structure InputsKept (s t : State) : Prop where
  addrWidth : t.addrWidth = s.addrWidth
  ports : t.ports = s.ports
  rst : t.rst = s.rst
  waitDone : t.waitDone = s.waitDone
  offers : t.offers = s.offers
  env : s.env.UsedUp t.env

theorem InputsKept.refl (s : State) : InputsKept s s := ⟨rfl, rfl, rfl, rfl, rfl, .refl _⟩

theorem InputsKept.trans {s t u : State} (h : InputsKept s t) (h' : InputsKept t u) : InputsKept s u :=
  ⟨h'.addrWidth.trans h.addrWidth, h'.ports.trans h.ports, h'.rst.trans h.rst, h'.waitDone.trans h.waitDone, h'.offers.trans h.offers,
    h.env.trans h'.env⟩

theorem Advance.inputsKept {base : Nat} {s t : State} (h : Advance base s t) : InputsKept s t := by
  cases h with
  | sample => exact ⟨rfl, rfl, rfl, rfl, rfl, Env.next_usedUp _ _ _ _⟩
  | read | write | wait => exact ⟨rfl, rfl, rfl, rfl, rfl, .refl _⟩

theorem idle_not_fits {i : Instr} {p : Phase} (h : phaseFits i p = true) : p ≠ .idle := by
  rintro rfl
  cases h

/-- An event changes the inputs only by using levels up. -/
theorem event_inputsKept {i : Instr} {s : State} (hfit : phaseFits i s.phase = true) : InputsKept s (event i s) := by
  cases hret : s.phase.atReturn with
  | true =>
    obtain ⟨v, draw, he, -⟩ := event_return hfit hret
    rw [he]
    exact ⟨rfl, rfl, rfl, rfl, rfl, .refl _⟩
  | false => exact (event_advance i (idle_not_fits hfit) hret).inputsKept

theorem eventStep_inputsKept {s t : State} (h : eventStep s = .next t) : InputsKept s t := by
  rcases eventStep_next h with rfl | ⟨i, hfit, rfl⟩
  · exact .refl _
  · exact event_inputsKept hfit

theorem Runs.inputsKept {i : Instr} {s t : State} (h : Runs i s t) : InputsKept s t := by
  induction h with
  | refl => exact .refl _
  | tail _ hm ih => exact ih.trans hm.advance.inputsKept

/-- A whole command uses up its offer and levels. -/
theorem exec_inputsKept {i : Instr} {s t : State} (hb : s.busy = false) (h : exec i s = .next t) : InputsKept (accept i s) t := by
  obtain ⟨hdom, u, hrun, -, rfl⟩ := exec_runs hb h
  exact hrun.inputsKept.trans (event_inputsKept (hrun.inProgress (accept_inProgress hdom)).sound.1)

/-- A step keeps the inputs, or the inputs an acceptance leaves. -/
theorem step_inputs {s t : State} (h : step s = .next t) : InputsKept s t ∨ ∃ i, InputsKept (accept i s) t := by
  rcases step_next h with ⟨-, rfl⟩ | ⟨-, -, hev⟩ | ⟨-, -, rfl⟩ | ⟨-, hb, i, hexec | hacc⟩
  · exact .inl ⟨rfl, rfl, rfl, rfl, rfl, .refl _⟩
  · exact .inl (eventStep_inputsKept hev)
  · exact .inl (.refl _)
  · exact .inr ⟨i, exec_inputsKept hb hexec⟩
  · obtain ⟨-, rfl⟩ := acceptStep_next hb hacc
    exact .inr ⟨i, .refl _⟩

/-- Settles O54: an event uses up levels of a script at most, and an acceptance takes the first offer. -/
theorem inputsAreOnlyUsedUp : Obligations.InputsAreOnlyUsedUp := by
  intro s t h
  rcases step_inputs h with hk | ⟨i, hk⟩
  · exact ⟨hk.addrWidth, hk.ports, hk.rst, hk.waitDone, .inl hk.offers, hk.env⟩
  · exact ⟨hk.addrWidth, hk.ports, hk.rst, hk.waitDone, .inr hk.offers, hk.env⟩

/-- Acceptance latches the fields of the word on the interface (R23). -/
theorem accept_offered {s : State} {o : Offer} {rest : List Offer} {i : Instr} (ho : s.offers = o :: rest)
    (hd : decodeWord o.word = .instr i) :
    accept i s = { s with
      cmdOp := fieldOp o.word, cmdB := fieldB o.word, cmdA := fieldA o.word
      cmdAddr := o.addr % 2 ^ s.addrWidth, busy := true, done := false, phase := firstPhase i, offers := rest } := by
  obtain ⟨hop, hb, ha⟩ := fields_of_decodeWord hd
  simp only [accept, State.offeredAddr, ho, hop, hb, ha]
  rfl

theorem exec_busy (i : Instr) {s : State} (hb : s.busy = true) : exec i s = .next s := by
  rw [exec_eq_runCommand, runCommand, if_pos hb]

theorem acceptStep_of_domain {i : Instr} {s : State} (hb : s.busy = false)
    (h : domainRefusal i s.offeredAddr s.addrWidth s.ports = none) : acceptStep i s = .next (accept i s) :=
  runCommand_accepted _ hb h

/-- What is offered while BUSY = 1 has no part in a step (R23). -/
theorem step_withOffers {s : State} (hr : s.rst = false) (hb : s.busy = true) (l : List Offer) :
    step (s.withOffers l) = mapNext (State.withOffers l) (step s) :=
  calc step (s.withOffers l)
    _ = eventStep (s.withOffers l) := step_busy (s := s.withOffers l) hr hb
    _ = mapNext (State.withOffers l) (eventStep s) := eventStep_withOffers l s
    _ = mapNext (State.withOffers l) (step s) := by rw [step_busy hr hb]

/-- Settles O6: the acceptance is the one of the word's operation, and no event has a part in the offers or the offers in it. -/
theorem acceptanceLatchesAndBusyIgnoresOffers : Obligations.AcceptanceLatchesAndBusyIgnoresOffers := by
  refine ⟨fun s o rest i hr hb hpace ho hd hdom => ?_, fun s l hr hb => ⟨fun t h => ⟨?_, ?_⟩, fun r h => ?_, fun i => exec_busy i hb⟩⟩
  · have haddr : s.offeredAddr = o.addr := by rw [State.offeredAddr, ho]
    rw [step_oneEvent hr hb hpace ho hd, acceptStep_of_domain hb (haddr ▸ hdom), accept_offered ho hd]
    rfl
  · exact (eventStep_inputsKept (step_busy hr hb ▸ h)).offers
  · exact (step_withOffers hr hb l).trans (by rw [h]; rfl)
  · exact (step_withOffers hr hb l).trans (by rw [h]; rfl)

/-- An event of an operation in progress adds one event to the history (R20). -/
theorem event_history {i : Instr} {s : State} (h : InProgress i s) : ∃ e, (event i s).history = e :: s.history := by
  cases hret : s.phase.atReturn with
  | true =>
    obtain ⟨v, draw, he, -⟩ := event_return h.sound.1 hret
    exact ⟨.ret v, by rw [he]; rfl⟩
  | false =>
    obtain ⟨e, he⟩ := (event_advance i h.not_idle hret).frame
    exact ⟨e, by rw [he]⟩

/-- Settles O7. -/
theorem busyStepIsOneEvent : Obligations.BusyStepIsOneEvent := by
  intro s t hinv hr hb h
  obtain ⟨i, hi⟩ := inProgress_of_inv hinv hb
  rw [step_busy hr hb, eventStep_inProgress hi] at h
  split at h <;> cases h
  · exact .inl ⟨rfl, ‹_›⟩
  · exact .inr (event_history hi)

/-- Settles O8: the event at a return is the completion. -/
theorem completionStep : Obligations.CompletionStep := by
  intro s v hinv hr hp
  obtain ⟨-, -, -, -, hs⟩ := (inv_iff s).1 hinv
  obtain ⟨i, hi⟩ := (sequencerFits_running (by simp [hp])).1 hs
  have hevent : event i s = complete v s := by simp only [event, hp]
  rw [step_busy hr hi.busy, eventStep_inProgress hi, if_neg (by simp [hp]), hevent]
  cases v <;> rfl

/-- A whole command ends in the completion, with a value if the operation returns one, of a state its other events have led to (R20, R24). -/
theorem exec_ends {i : Instr} {s t : State} (hb : s.busy = false) (h : exec i s = .next t) :
    ∃ u v draw, RunFrom (accept i s) u ∧ v.isSome = returnsValue i.op ∧ t = complete v { u with draw := draw } := by
  obtain ⟨hdom, u, hrun, hret, rfl⟩ := exec_runs hb h
  obtain ⟨v, draw, he, hv⟩ := event_return (hrun.inProgress (accept_inProgress hdom)).sound.1 hret
  exact ⟨u, v, draw, hrun.runFrom, hv, he⟩

/-- Settles O52: only the completion writes RESULT, and it writes a value exactly for the operations that return one. -/
theorem resultIsValidAfterValueOperations : Obligations.ResultIsValidAfterValueOperations := by
  intro i s t hb h
  obtain ⟨u, v, draw, ⟨es, hu⟩, hv, rfl⟩ := exec_ends hb h
  have hop : u.cmdOp = i.op := by rw [hu]; rfl
  have hhist : u.history = es ++ s.history := by rw [hu]; rfl
  refine ⟨fun h4 h5 => ?_, fun h45 => ?_⟩
  · have hret : returnsValue i.op = true := by simp [returnsValue, h4, h5]
    obtain ⟨x, rfl⟩ := Option.isSome_iff_exists.1 (hv.trans hret)
    refine ⟨?_, ?_, es, ?_⟩
    · simp [State.resultValid, hop, hret]
    · simp [State.readResult]
    · simp [hhist]
  · have hret : returnsValue i.op = false := by rcases h45 with h | h <;> simp [returnsValue, h]
    obtain rfl := Option.isNone_iff_eq_none.1 (by simpa using hv.trans hret)
    have hres : u.result = s.result := by rw [hu]; rfl
    have hheld : u.resultHeld = s.resultHeld := by rw [hu]; rfl
    refine ⟨?_, ?_, ?_, es, ?_⟩
    · simp [State.resultValid, hop, hret]
    · simp [hres]
    · simp [State.readResult, hres, hheld]
    · simp [hhist]

end Sys2Proof.Machine
end

section
/-! PROOF. Event by event and whole command agree (R20). -/

namespace Sys2Proof.Machine

/-- A step of an operation in progress that need not wait is its next event (R20). -/
theorem step_event {i : Instr} {s : State} (hr : s.rst = false) (h : InProgress i s) (hw : s.phase = .dbWait → s.waitDone = true) :
    step s = .next (event i s) := by
  rw [step_busy hr h.busy, eventStep_inProgress h, if_neg]
  rintro ⟨hp, hw'⟩
  simp [hw hp] at hw'

theorem event_history_length {i : Instr} {s : State} (h : InProgress i s) :
    (event i s).history.length = s.history.length + 1 := by
  obtain ⟨e, he⟩ := event_history h
  rw [he, List.length_cons]

/-- The machine makes a run of `n` events in `n` steps, busy before each of them (R20). -/
theorem Runs.run {i : Instr} {s u : State} (h : Runs i s u) (hr : s.rst = false) : ∃ n,
    u.history.length = s.history.length + n ∧
    (∀ m, Host.Core.run Sys2Proof.core (n + m) s = Host.Core.run Sys2Proof.core m u) ∧
    ∀ k, k < n → ∃ w : State, Host.Core.run Sys2Proof.core k s = .next w ∧ w.busy = true := by
  induction h using Relation.ReflTransGen.head_induction_on with
  | refl => exact ⟨0, rfl, fun m => by rw [Nat.zero_add], nofun⟩
  | @head s t hm _ ih =>
    have hstep : step s = .next t := hm.eq ▸ step_event hr hm.inProgress hm.answered
    have hlen : t.history.length = s.history.length + 1 := hm.eq ▸ event_history_length hm.inProgress
    have hrt : t.rst = false := hm.advance.inputsKept.rst.trans hr
    obtain ⟨n, hlen', hrun, hbusy⟩ := ih hrt
    refine ⟨n + 1, by omega, fun m => ?_, fun k hk => ?_⟩
    · rw [Nat.add_right_comm, run_succ hstep, hrun]
    · cases k with
      | zero => exact ⟨s, rfl, hm.inProgress.busy⟩
      | succ k =>
        rw [run_succ hstep]
        exact hbusy k (by omega)

/-- Settles O13: the steps are the acceptance, the events short of the completion, and the completion. -/
theorem eventRunRefinesWholeCommand : Obligations.EventRunRefinesWholeCommand := by
  intro i s t o rest hr hb hpace ho hd hexec
  obtain ⟨hdom, u, hrun, hret, rfl⟩ := exec_runs hb hexec
  have haccept : step s = .next (accept i s) := (step_oneEvent hr hb hpace ho hd).trans (acceptStep_of_domain hb hdom)
  have hu : InProgress i u := hrun.inProgress (accept_inProgress hdom)
  have hcomplete : step u = .next (event i u) :=
    step_event (hrun.inputsKept.rst.trans hr) hu fun hp => by simp [hp, Phase.atReturn] at hret
  obtain ⟨n, hlen, hsteps, hbusy⟩ := hrun.run hr
  have hlen' : (event i u).history.length = s.history.length + n + 1 := (event_history_length hu).trans (congrArg (· + 1) hlen)
  have hcount : (event i u).history.length - s.history.length + 1 = n + 1 + 1 := by omega
  rw [hcount]
  refine ⟨?_, by omega, fun k hpos hk => ?_⟩
  · rw [run_succ haccept, hsteps, run_succ hcomplete]
    rfl
  · obtain ⟨k, rfl⟩ : ∃ j, k = j + 1 := ⟨k - 1, by omega⟩
    rw [run_succ haccept]
    rcases Nat.lt_or_ge k n with hlt | hge
    · exact hbusy k hlt
    · obtain rfl : k = n := by omega
      exact ⟨u, hsteps 0, hu.busy⟩

end Sys2Proof.Machine
end

section
/-! PROOF. What an operation does not depend on: the working registers it finds (R24), and the pin levels if it reads none (R18, R29). -/

namespace Sys2Proof.Machine

/-! ### The environment, for an operation that makes no read of IN -/

/-- The state with another environment behind the input pins. -/
def State.withEnv (env : Env) (s : State) : State := { s with env := env }

theorem forEach_withEnv {env : Env} {body : Nat → State → State} (h : ∀ j s, body j (s.withEnv env) = (body j s).withEnv env) (n : Nat)
    (s : State) : forEach n body (s.withEnv env) = (forEach n body s).withEnv env := by
  induction n with
  | zero => rfl
  | succ n ih => rw [forEach_succ, forEach_succ, ih, h]

theorem resetRowsLoop_withEnv (env : Env) (base rows : Nat) (s : State) :
    resetRowsLoop base rows (s.withEnv env) = (resetRowsLoop base rows s).withEnv env := forEach_withEnv (by intros; rfl) rows s

theorem configurePins_withEnv (env : Env) (base rows cols : Nat) (s : State) :
    configurePins base rows cols (s.withEnv env) = (configurePins base rows cols s).withEnv env := by
  have hrows : configureRows base rows (s.withEnv env) = (configureRows base rows s).withEnv env := forEach_withEnv (by intros; rfl) rows s
  have hcols (t : State) : configureCols base rows cols (t.withEnv env) = (configureCols base rows cols t).withEnv env :=
    forEach_withEnv (by intros; rfl) cols t
  have hpulls (t : State) : configurePulls base rows cols (t.withEnv env) = (configurePulls base rows cols t).withEnv env :=
    forEach_withEnv (by intros; rfl) cols t
  rw [configurePins, hrows, hcols, hpulls, configurePins]

/-- An operation without a read of IN does the same whatever the environment, and leaves it as it is (R35). -/
theorem execBody_withEnv {i : Instr} (hop : i.op ∉ [6#4, 7#4, 8#4]) (env : Env) (s : State) :
    execBody i (s.withEnv env) = mapNext (State.withEnv env) (execBody i s) := by
  cases i with
  | encode rows cols =>
    simp only [execBody, encodeReturn, encodeDraw]
    split <;> rfl
  | decodeRows desc | decodeCols desc | assertRowLow r => rfl
  | configure rows cols =>
    rw [execBody, configurePins_withEnv]
    rfl
  | resetRows desc =>
    rw [execBody, resetRowsLoop_withEnv]
    rfl
  | readColumns desc | readColumnsDebounced desc | scan desc => simp [Instr.op] at hop

theorem exec_withEnv {i : Instr} (hop : i.op ∉ [6#4, 7#4, 8#4]) (env : Env) (s : State) :
    exec i (s.withEnv env) = mapNext (State.withEnv env) (exec i s) := by
  rw [exec_eq_runCommand, exec_eq_runCommand]
  rcases runCommand_cases i s (execBody i) with ⟨hb, h⟩ | ⟨hb, r, hd, h⟩ | ⟨hb, hd, h⟩ <;> rw [h]
  · exact if_pos hb
  · have hd' : domainRefusal i (s.withEnv env).offeredAddr (s.withEnv env).addrWidth (s.withEnv env).ports = some r := hd
    have hb' : (s.withEnv env).busy = false := hb
    simp [runCommand, hb', hd', mapNext]
  · exact (runCommand_accepted (s := s.withEnv env) _ hb hd).trans (execBody_withEnv hop env (accept i s))

/-- Settles O55: with its own environment put back the answer is the same, so the operation has left it as it was. -/
theorem levelsMatterOnlyToReads : Obligations.LevelsMatterOnlyToReads := by
  intro i s t env hop h
  have henv (e : Env) : exec i (s.withEnv e) = .next (t.withEnv e) := by rw [exec_withEnv hop, h]; rfl
  refine ⟨?_, henv env⟩
  have hself : t = t.withEnv s.env := Host.Outcome.next.inj (h.symm.trans (henv s.env))
  rw [hself]
  rfl

/-! ### The working registers -/

/-- The state with the working registers at 0. -/
def State.eraseWorking (s : State) : State :=
  { s with row := 0#3, col := 0#3, sample := 0#8, cand := 0#3, matchCount := 0#2, iter := 0#4 }

/-- Two states that differ in the working registers only (R24). -/
def SameButWorking (s t : State) : Prop := s.eraseWorking = t.eraseWorking

theorem sameButWorking_iff {s t : State} : SameButWorking s t ↔
    t = { s with row := t.row, col := t.col, sample := t.sample, cand := t.cand, matchCount := t.matchCount, iter := t.iter } := by
  constructor
  · intro h
    exact congrArg (fun u : State => { u with
      row := t.row, col := t.col, sample := t.sample, cand := t.cand, matchCount := t.matchCount, iter := t.iter }) h.symm
  · intro h
    rw [h]
    rfl

section

variable {a b : State}

/-- Anything computed without the working registers is the same in both. -/
theorem SameButWorking.congr {α : Type} (h : SameButWorking a b) (f : State → α) : f a.eraseWorking = f b.eraseWorking :=
  congrArg f h

theorem SameButWorking.forEach {body : Nat → State → State}
    (hbody : ∀ j s t, SameButWorking s t → SameButWorking (body j s) (body j t)) (n : Nat) (h : SameButWorking a b) :
    SameButWorking (forEach n body a) (forEach n body b) := by
  induction n with
  | zero => exact h
  | succ n ih =>
    rw [forEach_succ, forEach_succ]
    exact hbody _ _ _ ih

theorem SameButWorking.setBit (h : SameButWorking a b) (base : Nat) (k : StoredReg) (n : Nat) :
    SameButWorking (portSetBit base k n a) (portSetBit base k n b) := h.congr (portSetBit base k n)

theorem SameButWorking.clearBit (h : SameButWorking a b) (base : Nat) (k : StoredReg) (n : Nat) :
    SameButWorking (portClearBit base k n a) (portClearBit base k n b) := h.congr (portClearBit base k n)

theorem SameButWorking.setRow (h : SameButWorking a b) (n : Nat) : SameButWorking (a.setRow n) (b.setRow n) := h
theorem SameButWorking.setCol (h : SameButWorking a b) (n : Nat) : SameButWorking (a.setCol n) (b.setCol n) := h

theorem SameButWorking.complete (h : SameButWorking a b) (v : Option Operand) : SameButWorking (complete v a) (complete v b) :=
  h.congr (Machine.complete v)

theorem SameButWorking.configurePins (h : SameButWorking a b) (base rows cols : Nat) :
    SameButWorking (configurePins base rows cols a) (configurePins base rows cols b) := by
  have hrows := h.forEach (fun j _ _ h => (h.setRow j).setBit base .dir j) rows
  have hclear (k : StoredReg) {a b : State} (h : SameButWorking a b) :=
    h.forEach (fun j _ _ h => (h.setCol j).clearBit base k (rows + j)) cols
  exact hclear .out (hclear .dir hrows)

theorem SameButWorking.resetRowsLoop (h : SameButWorking a b) (base rows : Nat) :
    SameButWorking (resetRowsLoop base rows a) (resetRowsLoop base rows b) :=
  h.forEach (fun j _ _ h => (h.setRow j).setBit base .out j) rows

theorem SameButWorking.scanResetRows (h : SameButWorking a b) (base rows : Nat) :
    SameButWorking (scanResetRows base rows a) (scanResetRows base rows b) :=
  h.forEach (fun j _ _ h => h.setBit base .out j) rows

theorem SameButWorking.scanAssertRow (h : SameButWorking a b) (base row : Nat) :
    SameButWorking (scanAssertRow base row a) (scanAssertRow base row b) := (h.setRow row).clearBit base .out row

theorem SameButWorking.readSample (h : SameButWorking a b) (base : Nat) (desc : Descriptor) :
    (readSample base desc a).1 = (readSample base desc b).1 ∧
      SameButWorking (readSample base desc a).2 (readSample base desc b).2 :=
  ⟨h.congr fun s => (Machine.readSample base desc s).1, h.congr fun s => (Machine.readSample base desc s).2.eraseWorking⟩

/-- ROW has no part in the debounced read's loop. -/
theorem debounceLoop_setRow (base : Nat) (desc : Descriptor) (r n : Nat) (s : State) :
    debounceLoop base desc n (s.setRow r) = ((debounceLoop base desc n s).1, (debounceLoop base desc n s).2.setRow r) := by
  induction n generalizing s with
  | zero => rfl
  | succ n ih =>
    have hiter : debounceSample base desc (debounceWait (s.setRow r)) = (debounceSample base desc (debounceWait s)).setRow r := rfl
    have hconf (t : State) : confirmed (t.setRow r) = confirmed t := rfl
    simp only [debounceLoop, hiter, hconf, ih]
    split <;> rfl

/-- The first sample sets all working registers but ROW (R102), so the debounced read has none of them to depend on. -/
theorem SameButWorking.debounced (h : SameButWorking a b) (base : Nat) (desc : Descriptor) :
    (debounced base desc a).1 = (debounced base desc b).1 ∧ SameButWorking (debounced base desc a).2 (debounced base desc b).2 := by
  have hfirst : (debounceFirst base desc a).setRow 0 = (debounceFirst base desc b).setRow 0 :=
    h.congr fun s => (debounceFirst base desc s).setRow 0
  have hloop := congrArg (debounceLoop base desc Config.debounceMaxIter) hfirst
  rw [debounceLoop_setRow, debounceLoop_setRow] at hloop
  obtain ⟨hval, hstate⟩ := Prod.mk.inj hloop
  exact ⟨hval, (congrArg State.eraseWorking hstate :)⟩

theorem SameButWorking.scanRows (h : SameButWorking a b) (base : Nat) (desc : Descriptor) (n row : Nat) :
    (scanRows base desc n row a).1 = (scanRows base desc n row b).1 ∧
      SameButWorking (scanRows base desc n row a).2 (scanRows base desc n row b).2 := by
  induction n generalizing row a b with
  | zero => exact ⟨rfl, h⟩
  | succ n ih =>
    obtain ⟨hval, hstate⟩ := (h.scanAssertRow base row).debounced base desc
    simp only [Machine.scanRows, hval]
    split
    · exact ⟨rfl, hstate⟩
    · exact ih (hstate.scanResetRows base _) _

theorem SameButWorking.scanKeys (h : SameButWorking a b) (base : Nat) (desc : Descriptor) :
    (scanKeys base desc a).1 = (scanKeys base desc b).1 ∧ SameButWorking (scanKeys base desc a).2 (scanKeys base desc b).2 :=
  (h.scanResetRows base (rowsOf desc)).scanRows base desc (rowsOf desc) 0

/-- Bodies of operations take states that differ in the working registers only to such states (R24). -/
theorem SameButWorking.execBody {i : Instr} {t : State} (h : SameButWorking a b) (ht : execBody i a = .next t) :
    ∃ t', execBody i b = .next t' ∧ SameButWorking t t' := by
  have haddr : b.cmdAddr = a.cmdAddr := (h.congr fun s => s.cmdAddr).symm
  have hwait : b.waitDone = a.waitDone := (h.congr fun s => s.waitDone).symm
  cases i with
  | encode rows cols =>
    cases ht
    refine ⟨_, rfl, ?_⟩
    unfold encodeReturn encodeDraw encodeValue
    split
    · exact h.congr (Machine.complete (some (packDescriptor rows cols)))
    · exact h.congr fun s => Machine.complete (some (Config.freeDescriptor s.draw)) { s with draw := s.draw + 1 }
  | decodeRows desc | decodeCols desc =>
    cases ht
    exact ⟨_, rfl, h.complete _⟩
  | configure rows cols =>
    cases ht
    exact ⟨_, rfl, haddr ▸ (h.configurePins _ _ _).complete _⟩
  | resetRows desc =>
    cases ht
    exact ⟨_, rfl, haddr ▸ (h.resetRowsLoop _ _).complete _⟩
  | assertRowLow r =>
    cases ht
    exact ⟨_, rfl, haddr ▸ (h.clearBit _ _ _).complete _⟩
  | readColumns desc =>
    cases ht
    obtain ⟨hval, hstate⟩ := h.readSample (portBase (.readColumns desc) a.cmdAddr) desc
    refine ⟨_, rfl, ?_⟩
    rw [haddr, hval]
    exact hstate.complete _
  | readColumnsDebounced desc =>
    obtain ⟨hw, rfl⟩ := ifWaitsEnd_next ht
    obtain ⟨hval, hstate⟩ := h.debounced (portBase (.readColumnsDebounced desc) a.cmdAddr) desc
    refine ⟨_, if_pos (hwait.trans hw), ?_⟩
    rw [haddr, hval]
    exact hstate.complete _
  | scan desc =>
    obtain ⟨hw, rfl⟩ := ifWaitsEnd_next ht
    obtain ⟨hval, hstate⟩ := h.scanKeys (portBase (.scan desc) a.cmdAddr) desc
    refine ⟨_, if_pos (hwait.trans hw), ?_⟩
    rw [haddr, hval]
    exact hstate.complete _

end

/-- Settles O51: no operation reads a working register before it has written it. -/
theorem workingRegistersAreNotObservable : Obligations.WorkingRegistersAreNotObservable := by
  intro i s s' t hb hs h
  rw [exec_eq_runCommand] at h
  obtain ⟨hdom, hbody⟩ := runCommand_next hb h
  have hsame : SameButWorking (accept i s) (accept i s') := (sameButWorking_iff.2 hs).congr (accept i)
  obtain ⟨t', hbody', ht⟩ := hsame.execBody hbody
  refine ⟨t', ?_, sameButWorking_iff.1 ht⟩
  rw [exec_eq_runCommand, runCommand_accepted, hbody']
  · rw [hs]; exact hb
  · rw [hs]; exact hdom

end Sys2Proof.Machine
end

section
/-! PROOF. The bits of a port that belong to no row and no column (R16). -/

namespace Sys2Proof.Machine

/-- Memory stays canonical, and bits `m` and up of the port's DIR and OUT are kept (R16). -/
structure KeepsBitsFrom (m base : Nat) (s t : State) : Prop where
  wf : Memory.wf t.mem = true
  bits : ∀ k n, m ≤ n → (Memory.get t.mem (storedAddr base k)).getLsbD n = (Memory.get s.mem (storedAddr base k)).getLsbD n

variable {m base : Nat} {s t u : State}

theorem KeepsBitsFrom.of_mem (hwf : Memory.wf s.mem = true) (h : t.mem = s.mem) : KeepsBitsFrom m base s t :=
  ⟨h ▸ hwf, fun _ _ _ => by rw [h]⟩

theorem KeepsBitsFrom.trans (h : KeepsBitsFrom m base s t) (h' : KeepsBitsFrom m base t u) : KeepsBitsFrom m base s u :=
  ⟨h'.wf, fun k n hn => (h'.bits k n hn).trans (h.bits k n hn)⟩

/-- The completion writes no port register (R24). -/
theorem KeepsBitsFrom.complete (h : KeepsBitsFrom m base s t) (v : Option Operand) : KeepsBitsFrom m base s (complete v t) :=
  ⟨h.wf, h.bits⟩

/-- A bit operation that changes no bit of its register from `m` on. -/
theorem bitOp_keepsBitsFrom {k : StoredReg} {f : Byte → Byte} (hwf : Memory.wf s.mem = true)
    (hf : ∀ v n, m ≤ n → (f v).getLsbD n = v.getLsbD n) : KeepsBitsFrom m base s (bitOp base k f s) := by
  refine ⟨Memory.wf_set hwf _ _, fun k' n hn => ?_⟩
  change (Memory.get (Memory.set s.mem (storedAddr base k) (f (Memory.get s.mem (storedAddr base k)))) _).getLsbD n = _
  rw [Memory.get_set hwf]
  split
  · rename_i heq
    rw [hf _ _ hn, heq]
  · rfl

theorem getLsbD_bit_of_lt {i n : Nat} (h : i < n) : (bit i).getLsbD n = false := by
  simp [bit, BitVec.getLsbD_shiftLeft]
  omega

theorem setBit_above {i n : Nat} (h : i < n) (v : Byte) : (v ||| bit i).getLsbD n = v.getLsbD n := by
  simp [getLsbD_bit_of_lt h]

theorem clearBit_above {i n : Nat} (h : i < n) (v : Byte) : (v &&& ~~~bit i).getLsbD n = v.getLsbD n := by
  rw [BitVec.getLsbD_and, BitVec.getLsbD_not, getLsbD_bit_of_lt h]
  by_cases hn : n < 8
  · simp [hn]
  · simp [BitVec.getLsbD_of_ge v n (by simp; omega)]

/-- A loop of bit operations below bit `m`. -/
theorem bitLoop_keepsBitsFrom {k : StoredReg} {f : Nat → Byte → Byte} {prep : Nat → State → State} (n : Nat)
    (hwf : Memory.wf s.mem = true) (hprep : ∀ j t, (prep j t).mem = t.mem)
    (hf : ∀ j < n, ∀ v x, m ≤ x → (f j v).getLsbD x = v.getLsbD x) : KeepsBitsFrom m base s (bitLoop base k f prep n s) := by
  refine forEach_induct (P := fun _ t => KeepsBitsFrom m base s t) n (.of_mem hwf rfl) fun j t hj ht => ?_
  have hpre : KeepsBitsFrom m base s (prep j t) := ht.trans (.of_mem ht.wf (hprep j t))
  exact hpre.trans (bitOp_keepsBitsFrom hpre.wf (hf j hj))

theorem configurePins_keepsBitsFrom (rows cols : Nat) (hwf : Memory.wf s.mem = true) :
    KeepsBitsFrom (rows + cols) base s (configurePins base rows cols s) := by
  have hrows : KeepsBitsFrom (rows + cols) base s (configureRows base rows s) :=
    bitLoop_keepsBitsFrom (f := fun j v => v ||| bit j) rows hwf (fun _ _ => rfl) fun j hj v x hx => setBit_above (by omega) v
  have hclear (t : State) (k : StoredReg) (ht : Memory.wf t.mem = true) : KeepsBitsFrom (rows + cols) base t
      (bitLoop base k (fun j v => v &&& ~~~bit (rows + j)) (fun j => .setCol j) cols t) :=
    bitLoop_keepsBitsFrom cols ht (fun _ _ => rfl) fun j hj v x hx => clearBit_above (by omega) v
  have hcols := hrows.trans (hclear _ .dir hrows.wf)
  exact hcols.trans (hclear _ .out hcols.wf)

theorem resetRowsLoop_keepsBitsFrom {rows : Nat} (hwf : Memory.wf s.mem = true) (hm : rows ≤ m) :
    KeepsBitsFrom m base s (resetRowsLoop base rows s) :=
  bitLoop_keepsBitsFrom (f := fun j v => v ||| bit j) rows hwf (fun _ _ => rfl) fun j hj v x hx => setBit_above (by omega) v

theorem scanResetRows_keepsBitsFrom {rows : Nat} (hwf : Memory.wf s.mem = true) (hm : rows ≤ m) :
    KeepsBitsFrom m base s (scanResetRows base rows s) :=
  bitLoop_keepsBitsFrom (f := fun j v => v ||| bit j) (prep := fun _ => id) rows hwf (fun _ _ => rfl)
    fun j hj v x hx => setBit_above (by omega) v

theorem portClearBit_keepsBitsFrom {n : Nat} (hwf : Memory.wf s.mem = true) (hm : n < m) :
    KeepsBitsFrom m base s (portClearBit base .out n s) :=
  bitOp_keepsBitsFrom hwf fun v x hx => clearBit_above (by omega) v

theorem debounced_mem (desc : Descriptor) (s : State) : (debounced base desc s).2.mem = s.mem := by
  rw [debounced_sampled base desc s]

theorem scanRows_keepsBitsFrom {desc : Descriptor} {n row : Nat} (hwf : Memory.wf s.mem = true) (hm : rowsOf desc ≤ m)
    (hn : row + n ≤ rowsOf desc) : KeepsBitsFrom m base s (scanRows base desc n row s).2 := by
  induction n generalizing row s with
  | zero => exact .of_mem hwf rfl
  | succ n ih =>
    have hassert : KeepsBitsFrom m base s (scanAssertRow base row s) :=
      .trans (.of_mem (t := s.setRow row) hwf rfl) (portClearBit_keepsBitsFrom hwf (by omega))
    have hread : KeepsBitsFrom m base s (debounced base desc (scanAssertRow base row s)).2 :=
      hassert.trans (.of_mem hassert.wf (debounced_mem desc _))
    unfold scanRows
    dsimp only
    split
    · exact hread
    · have hreset := hread.trans (scanResetRows_keepsBitsFrom hread.wf hm)
      exact hreset.trans (ih hreset.wf (by omega))

theorem scanKeys_keepsBitsFrom {desc : Descriptor} (hwf : Memory.wf s.mem = true) (hm : rowsOf desc ≤ m) :
    KeepsBitsFrom m base s (scanKeys base desc s).2 := by
  have hreset : KeepsBitsFrom m base s (scanResetRows base (rowsOf desc) s) := scanResetRows_keepsBitsFrom hwf hm
  exact hreset.trans (scanRows_keepsBitsFrom hreset.wf hm (by omega))

/-- An accepted command runs at the port it was offered for (R35). -/
theorem portBase_accepted {i : Instr} {k : PortReg} (hk : addressed i = some k) (h : OfferedAt k base s) :
    portBase i (accept i s).cmdAddr = base := by
  rw [accept_cmdAddr_offered h]
  simp [portBase, hk]

/-- Settles O50: the bit operations of every operation stay below bit rows + cols of the shape. -/
theorem unrelatedBitsAreKept : Obligations.UnrelatedBitsAreKept := by
  intro i desc s t base n hb hwf hoff hdesc hi hn h
  rw [exec_eq_runCommand] at h
  obtain ⟨hdom, hbody⟩ := runCommand_next hb h
  have hbase (k : PortReg) (hk : addressed i = some k) : portBase i (accept i s).cmdAddr = base := portBase_accepted hk (hoff k hk)
  suffices hkeep : KeepsBitsFrom (rowsOf desc + colsOf desc) base (accept i s) t from ⟨hkeep.bits .dir n hn, hkeep.bits .out n hn⟩
  rcases hi with rfl | rfl | rfl | rfl | rfl | ⟨r, hr, rfl⟩
  · cases hbody
    rw [hbase _ rfl]
    exact (configurePins_keepsBitsFrom _ _ (s := accept _ s) hwf).complete _
  · cases hbody
    rw [hbase _ rfl]
    exact (resetRowsLoop_keepsBitsFrom (s := accept _ s) hwf (by omega)).complete _
  · cases hbody
    exact .of_mem hwf rfl
  · obtain ⟨-, rfl⟩ := ifWaitsEnd_next hbody
    exact .of_mem hwf (debounced_mem desc _)
  · obtain ⟨-, rfl⟩ := ifWaitsEnd_next hbody
    rw [hbase _ rfl]
    exact (scanKeys_keepsBitsFrom (s := accept _ s) hwf (by omega)).complete _
  · cases hbody
    rw [hbase _ rfl]
    exact (portClearBit_keepsBitsFrom (s := accept _ s) hwf (by omega)).complete _

end Sys2Proof.Machine
end

section
/-! PROOF. Reset, and the read of IN (R15, R28, R31). -/

namespace Sys2Proof.Machine

/-- Settles O14. -/
theorem resetStateIsIdle : Obligations.ResetStateIsIdle :=
  ⟨rfl, rfl, rfl, rfl, rfl, rfl, step_unoffered rfl rfl rfl⟩

/-- Settles O16. -/
theorem invariantHoldsAtReset : Obligations.InvariantHoldsAtReset := by
  have hports : portsWf State.reset.addrWidth State.reset.ports = true := by decide
  exact (inv_iff _).2 ⟨rfl, hports, rfl, rfl, sequencerFits_idle rfl⟩

/-- A pin reads OUT where DIR makes it an output, and its level where it is an input (R15). -/
theorem getLsbD_inView (dir out levels : Byte) {n : Nat} (hn : n < 8) :
    (inView dir out levels).getLsbD n = if dir.getLsbD n then out.getLsbD n else levels.getLsbD n := by
  rw [inView, BitVec.getLsbD_or, BitVec.getLsbD_and, BitVec.getLsbD_and, BitVec.getLsbD_not]
  cases dir.getLsbD n <;> simp [hn]

/-- Settles O21. -/
theorem readOfInputShowsPins : Obligations.ReadOfInputShowsPins := by
  intro base s
  refine ⟨fun n hn => getLsbD_inView _ _ _ hn, fun hfree => ?_, portReadIn_eq base s⟩
  rw [portReadIn_eq, hfree]
  exact ⟨rfl, rfl⟩

end Sys2Proof.Machine
end

section
/-! PROOF. Bit operations and writes: what they do to the register, the rest of memory and the history (R31 to R34, R38, R46). -/

namespace Sys2Proof.Machine

/-! ### One bit operation -/

theorem getLsbD_bit (n : Nat) {m : Nat} (hm : m < 8) : (bit n).getLsbD m = decide (m = n) := by
  rw [bit, BitVec.getLsbD_shiftLeft, BitVec.getLsbD_one]
  grind

theorem getLsbD_setBit (v : Byte) (n : Nat) {m : Nat} (hm : m < 8) :
    (v ||| bit n).getLsbD m = (v.getLsbD m || decide (m = n)) := by
  rw [BitVec.getLsbD_or, getLsbD_bit n hm]

theorem getLsbD_clearBit (v : Byte) (n : Nat) {m : Nat} (hm : m < 8) :
    (v &&& ~~~bit n).getLsbD m = (v.getLsbD m && !decide (m = n)) := by
  rw [BitVec.getLsbD_and, BitVec.getLsbD_not, getLsbD_bit n hm]
  simp [hm]

/-- Setting a bit that is 1 writes the byte back as it was (R33). -/
theorem setBit_eq_self {v : Byte} {n : Nat} (h : v.getLsbD n = true) : v ||| bit n = v := by
  refine BitVec.eq_of_getLsbD_eq fun m hm => ?_
  rw [getLsbD_setBit v n hm]
  by_cases hmn : m = n <;> simp [hmn, h]

/-- Clearing a bit that is 0 writes the byte back as it was (R34). -/
theorem clearBit_eq_self {v : Byte} {n : Nat} (h : v.getLsbD n = false) : v &&& ~~~bit n = v := by
  refine BitVec.eq_of_getLsbD_eq fun m hm => ?_
  rw [getLsbD_clearBit v n hm]
  by_cases hmn : m = n <;> simp [hmn, h]

section OneBit

variable {base : Nat} {k : StoredReg} {f : Byte → Byte} {s : State}

theorem bitOp_history : (bitOp base k f s).history =
    .write (storedAddr base k) (f (Memory.get s.mem (storedAddr base k))) ::
      .read (storedAddr base k) (Memory.get s.mem (storedAddr base k)) :: s.history := rfl

/-- A bit operation changes its register and no other byte. -/
theorem get_bitOp (hwf : Memory.wf s.mem = true) (x : Nat) : Memory.get (bitOp base k f s).mem x =
    if x = storedAddr base k then f (Memory.get s.mem (storedAddr base k)) else Memory.get s.mem x := Memory.get_set hwf _ _ x

theorem get_bitOp_same (hwf : Memory.wf s.mem = true) :
    Memory.get (bitOp base k f s).mem (storedAddr base k) = f (Memory.get s.mem (storedAddr base k)) := by
  rw [get_bitOp hwf, if_pos rfl]

theorem get_bitOp_other (hwf : Memory.wf s.mem = true) {x : Nat} (hx : x ≠ storedAddr base k) :
    Memory.get (bitOp base k f s).mem x = Memory.get s.mem x := by
  rw [get_bitOp hwf, if_neg hx]

end OneBit

/-- Settles O18: both are the bit operation, with the bit set or cleared in the byte read. -/
theorem bitOperationsReadThenWrite : Obligations.BitOperationsReadThenWrite := by
  intro base k n s hwf hn
  have hset : portSetBit base k n s = bitOp base k (· ||| bit n) s := rfl
  have hclear : portClearBit base k n s = bitOp base k (· &&& ~~~bit n) s := rfl
  refine ⟨⟨rfl, fun m hm => ?_, fun x hx => ?_, fun hv => ?_, rfl⟩, ⟨rfl, fun m hm => ?_, fun x hx => ?_, fun hv => ?_, rfl⟩⟩
  · rw [hset, get_bitOp_same hwf, getLsbD_setBit _ _ hm]
    by_cases hmn : m = n <;> simp [hmn]
  · rw [hset, get_bitOp_other hwf hx]
  · rw [hset, get_bitOp_same hwf, setBit_eq_self hv]
  · rw [hclear, get_bitOp_same hwf, getLsbD_clearBit _ _ hm]
    by_cases hmn : m = n <;> simp [hmn]
  · rw [hclear, get_bitOp_other hwf hx]
  · rw [hclear, get_bitOp_same hwf, clearBit_eq_self hv]

/-- Settles O20: memory gives back what was written, and IN shows the DIR and OUT of the moment of the read. -/
theorem writeIsSeenByNextReads : Obligations.WriteIsSeenByNextReads := by
  intro base k v s hwf t
  have hget (x : Nat) : Memory.get t.mem x = if x = storedAddr base k then v else Memory.get s.mem x := Memory.get_set hwf _ v x
  have hin {n : Nat} (hn : n < 8) (hd : (t.dir base).getLsbD n = true) :
      (portReadIn base t).1.getLsbD n = (t.out base).getLsbD n := (getLsbD_inView _ _ _ hn).trans (if_pos hd)
  refine ⟨(hget _).trans (if_pos rfl), fun x hx => (hget x).trans (if_neg hx), ?_, ?_⟩
  · rintro rfl n hn hd
    have hdir : t.dir base = s.dir base := (hget _).trans (if_neg (storedAddr_ne base))
    have hout : t.out base = v := (hget _).trans (if_pos rfl)
    rw [hin hn (hdir ▸ hd), hout]
  · rintro rfl n hn hd
    have hdir : t.dir base = v := (hget _).trans (if_pos rfl)
    have hout : t.out base = s.out base := (hget _).trans (if_neg (storedAddr_ne base).symm)
    rw [hin hn (hdir ▸ hd), hout]

/-! ### A run of bit operations on one register -/

theorem getLsbD_foldl_setBit (bits : List Nat) (v : Byte) {m : Nat} (hm : m < 8) :
    (bits.foldl (fun v n => v ||| bit n) v).getLsbD m = (v.getLsbD m || decide (m ∈ bits)) := by
  induction bits generalizing v with
  | nil => simp
  | cons n ns ih => rw [List.foldl_cons, ih, getLsbD_setBit v n hm]; simp [Bool.or_assoc]

theorem getLsbD_foldl_clearBit (bits : List Nat) (v : Byte) {m : Nat} (hm : m < 8) :
    (bits.foldl (fun v n => v &&& ~~~bit n) v).getLsbD m = (v.getLsbD m && !decide (m ∈ bits)) := by
  induction bits generalizing v with
  | nil => simp
  | cons n ns ih => rw [List.foldl_cons, ih, getLsbD_clearBit v n hm]; simp [Bool.and_assoc]

section Trace

variable (a : Nat) (f : Byte → Nat → Byte) (bits : List Nat) (v : Byte)

theorem bitTrace_length : (bitTrace a f bits v).length = 2 * bits.length := by
  induction bits generalizing v with
  | nil => rfl
  | cons n ns ih => simp only [bitTrace, List.length_cons, ih]; omega

theorem countReads_bitTrace : countReads (bitTrace a f bits v) = bits.length := by
  induction bits generalizing v with
  | nil => rfl
  | cons n ns ih =>
    have ih := ih (f v n)
    unfold countReads at ih ⊢
    simp [bitTrace, ih]

theorem countWrites_bitTrace : countWrites (bitTrace a f bits v) = bits.length := by
  induction bits generalizing v with
  | nil => rfl
  | cons n ns ih =>
    have ih := ih (f v n)
    unfold countWrites at ih ⊢
    simp [bitTrace, ih]

end Trace

/-- `t` is `s` after a run of bit operations on one register, `f v n` the byte written for bit `n` after a read that gave `v`, as far as memory and
the history go (R46). -/
structure BitRun (base : Nat) (k : StoredReg) (f : Byte → Nat → Byte) (bits : List Nat) (s t : State) : Prop where
  wf : Memory.wf t.mem = true
  register : Memory.get t.mem (storedAddr base k) = bits.foldl f (Memory.get s.mem (storedAddr base k))
  others : ∀ x, x ≠ storedAddr base k → Memory.get t.mem x = Memory.get s.mem x
  history : t.history = (bitTrace (storedAddr base k) f bits (Memory.get s.mem (storedAddr base k))).reverse ++ s.history

theorem bitRun_foldl (base : Nat) (k : StoredReg) (f : Byte → Nat → Byte) (bits : List Nat) {s : State} (hwf : Memory.wf s.mem = true) :
    BitRun base k f bits s (bits.foldl (fun s n => bitOp base k (f · n) s) s) := by
  induction bits generalizing s with
  | nil => exact ⟨hwf, rfl, fun _ _ => rfl, rfl⟩
  | cons n ns ih =>
    have hrun := ih (s := bitOp base k (f · n) s) (Memory.wf_set hwf _ _)
    have hsame : Memory.get (bitOp base k (f · n) s).mem (storedAddr base k) = _ := get_bitOp_same hwf
    refine ⟨hrun.wf, ?_, fun x hx => (hrun.others x hx).trans (get_bitOp_other hwf hx), ?_⟩
    · rw [List.foldl_cons, hrun.register, hsame, List.foldl_cons]
    · rw [List.foldl_cons, hrun.history, hsame, bitOp_history]
      simp [bitTrace]

/-- A run of bit operations makes one read and one write for each bit. -/
theorem BitRun.events {base : Nat} {k : StoredReg} {f : Byte → Nat → Byte} {bits : List Nat} {s t : State}
    (h : BitRun base k f bits s t) : ∃ es, t.history = es ++ s.history ∧ es.length = 2 * bits.length ∧
      countReads es = bits.length ∧ countWrites es = bits.length := by
  refine ⟨_, h.history, ?_, ?_, ?_⟩
  · rw [List.length_reverse, bitTrace_length]
  · rw [countReads, List.countP_reverse]
    exact countReads_bitTrace _ _ _ _
  · rw [countWrites, List.countP_reverse]
    exact countWrites_bitTrace _ _ _ _

/-- Settles O19: by induction over the bits, in whatever order they come. -/
theorem runOfBitOperationsNetEffect : Obligations.RunOfBitOperationsNetEffect := by
  intro base k bits s hwf _ _ a old set clear
  have hset : BitRun base k (fun v n => v ||| bit n) bits s set := bitRun_foldl _ _ _ _ hwf
  have hclear : BitRun base k (fun v n => v &&& ~~~bit n) bits s clear := bitRun_foldl _ _ _ _ hwf
  refine ⟨fun m hm => ?_, fun m hm => ?_, fun x hx => ⟨hset.others x hx, hclear.others x hx⟩, hset.events, hclear.events⟩
  · rw [hset.register, getLsbD_foldl_setBit _ _ hm]
  · rw [hclear.register, getLsbD_foldl_clearBit _ _ hm]

/-! ### The two halves of a bit operation in progress -/

/-- The read half at the positions `at_` of the register at address `a` makes one read and holds the byte it gave (R33, R34). -/
def ReadHalf (s : State) (at_ : Half → Phase) (a : Nat) : Prop := ∀ n, s.phase = at_ (.rd n) →
  ∃ t, step s = .next t ∧ t.phase = at_ (.wr n (Memory.get s.mem a)) ∧ t.mem = s.mem ∧
    t.history = .read a (Memory.get s.mem a) :: s.history

/-- The write half at the positions `at_` of the register at address `a` stores the byte held, as `f` changes it (R33, R34). -/
def WriteHalf (s : State) (at_ : Half → Phase) (a : Nat) (f : Byte → Nat → Byte) : Prop := ∀ n v, s.phase = at_ (.wr n v) →
  ∃ t, step s = .next t ∧ Memory.get t.mem a = f v n ∧ (∀ x, x ≠ a → Memory.get t.mem x = Memory.get s.mem x) ∧
    t.history = .write a (f v n) :: s.history

/-- A state of the invariant at a position that is not IDLE has the latched operation in progress (R19, R20). -/
theorem inProgress_of_latched {i : Instr} {s : State} (hinv : s.inv = true) (hd : decodeWord (wordOf s.cmdOp s.cmdB s.cmdA) = .instr i)
    (hp : s.phase ≠ .idle) : InProgress i s := by
  obtain ⟨-, -, -, -, hs⟩ := (inv_iff s).1 hinv
  obtain ⟨j, hj⟩ := (sequencerFits_running hp).1 hs
  obtain rfl : j = i := Decoded.instr.inj (hj.latched.symm.trans hd)
  exact hj

/-- Both halves of a bit operation of the latched command, at the positions `at_`: the register is that of the operation's port. -/
theorem bitHalves {i : Instr} {s : State} {at_ : Half → Phase} {k : StoredReg} {prep : Nat → State → State} {f : Byte → Nat → Byte}
    {next : Nat → BitVec 3 → Phase} (hinv : s.inv = true) (hr : s.rst = false)
    (hd : decodeWord (wordOf s.cmdOp s.cmdB s.cmdA) = .instr i) (pos : ∀ n, BitPosition i at_ k n (prep n) (f · n) (next n))
    (hidle : ∀ h, at_ h ≠ .idle) (hprep : ∀ n, (prep n s).mem = s.mem ∧ (prep n s).history = s.history) :
    ReadHalf s at_ (storedAddr (portBase i s.cmdAddr) k) ∧ WriteHalf s at_ (storedAddr (portBase i s.cmdAddr) k) f := by
  have hstep {n : Nat} (h : Half) (hp : s.phase = at_ h) : step s = .next (event i s) :=
    step_event hr (inProgress_of_latched hinv hd (hp ▸ hidle h)) fun hw => absurd (hp ▸ hw) ((pos n).isBit h).2
  refine ⟨fun n hp => ⟨_, hstep (n := n) _ hp, ?_⟩, fun n v hp => ⟨_, hstep (n := n) _ hp, ?_⟩⟩
  · obtain ⟨hmem, hhist⟩ := hprep n
    rw [(pos n).read s hp, ← hmem, ← hhist]
    exact ⟨rfl, rfl, rfl⟩
  · have hget (x : Nat) : Memory.get (event i s).mem x =
        if x = storedAddr (portBase i s.cmdAddr) k then f v n else Memory.get s.mem x := by
      rw [(pos n).write s v hp]
      exact Memory.get_set ((inv_iff s).1 hinv).1 _ _ x
    refine ⟨(hget _).trans (if_pos rfl), fun x hx => (hget x).trans (if_neg hx), ?_⟩
    rw [(pos n).write s v hp]
    rfl

/-- Where CONFIGURE clears the bits of the columns, its first operand is the count of the rows below them (R80). -/
theorem InProgress.shapeRows_of_cols {i : Instr} {s : State} {half : Half} (h : InProgress i s)
    (hp : s.phase = .cfgDirCol half ∨ s.phase = .cfgOutCol half) : shapeRows i = i.a.toNat := by
  have hop : i.op = 3#4 := by
    have hs := h.sound
    rcases hp with hp | hp <;> rw [hp] at hs
    · exact ((soundAt_cfgDirCol _ _ _).1 hs).1
    · exact ((soundAt_cfgOutCol _ _ _).1 hs).1
  cases i <;> simp_all [Instr.op, shapeRows, Instr.a]

/-- Settles O10: the halves of each of the eight bit operations of the pseudocodes. -/
theorem bitWriteHalfStoresTheValueRead : Obligations.BitWriteHalfStoresTheValueRead := by
  intro s i hinv hr hd
  have hrows {half : Half} (hp : s.phase = .cfgDirCol half ∨ s.phase = .cfgOutCol half) : shapeRows i = i.a.toNat :=
    (inProgress_of_latched hinv hd (by rcases hp with hp | hp <;> simp [hp])).shapeRows_of_cols hp
  have hcol {at_ : Half → Phase} {a : Nat} (hp : ∀ half, s.phase = at_ half → s.phase = .cfgDirCol half ∨ s.phase = .cfgOutCol half)
      (hw : WriteHalf s at_ a fun v n => v &&& ~~~bit (shapeRows i + n)) : WriteHalf s at_ a fun v n => v &&& ~~~bit (i.a.toNat + n) :=
    fun n v h => hrows (hp _ h) ▸ hw n v h
  exact
    ⟨bitHalves hinv hr hd (bitPosition_cfgDirRow i) nofun fun _ => ⟨rfl, rfl⟩,
      (bitHalves hinv hr hd (bitPosition_cfgDirCol i) nofun fun _ => ⟨rfl, rfl⟩).imp_right (hcol fun _ => .inl),
      (bitHalves hinv hr hd (bitPosition_cfgOutCol i) nofun fun _ => ⟨rfl, rfl⟩).imp_right (hcol fun _ => .inr),
      bitHalves hinv hr hd (bitPosition_resetRow i) nofun fun _ => ⟨rfl, rfl⟩,
      bitHalves hinv hr hd (bitPosition_assertRow i) nofun fun _ => ⟨rfl, rfl⟩,
      bitHalves hinv hr hd (bitPosition_scReset0 i) nofun fun _ => ⟨rfl, rfl⟩,
      bitHalves hinv hr hd (bitPosition_scAssert i) nofun fun _ => ⟨rfl, rfl⟩,
      bitHalves hinv hr hd (bitPosition_scReset i) nofun fun _ => ⟨rfl, rfl⟩⟩

end Sys2Proof.Machine
end

section
/-! PROOF. The register-port accesses of an operation: the addresses of R35, and the bytes of memory it may change (R32). -/

namespace Sys2Proof.Machine

/-- The stored registers an operation accesses (R35): CONFIGURE both, RESET_ROWS, ASSERT_ROW_LOW and SCAN only OUT. -/
def UsesReg (i : Instr) : StoredReg → Prop
  | .dir => i.op = 3#4
  | .out => i.op = 3#4 ∨ i.op = 4#4 ∨ i.op = 5#4 ∨ i.op = 8#4

/-- The operations that read IN (R35). -/
def ReadsIn (i : Instr) : Prop := i.op = 6#4 ∨ i.op = 7#4 ∨ i.op = 8#4

/-- What one event short of the completion accesses, at the port at `base`, and what it does to memory and the history (R25, R26, R35). -/
inductive Accesses (i : Instr) (base : Nat) (s t : State) : Prop
  | read (k : StoredReg) (v : Byte) (uses : UsesReg i k) (mem : t.mem = s.mem)
    (history : t.history = .read (storedAddr base k) v :: s.history)
  | write (k : StoredReg) (v : Byte) (uses : UsesReg i k) (mem : t.mem = Memory.set s.mem (storedAddr base k) v)
    (history : t.history = .write (storedAddr base k) v :: s.history)
  | readIn (v : Byte) (reads : ReadsIn i) (mem : t.mem = s.mem) (history : t.history = .read (inAddr base) v :: s.history)
  | wait (us : Nat) (mem : t.mem = s.mem) (history : t.history = .wait us :: s.history)

/-- An event of a bit operation accesses its register. -/
theorem BitPosition.accesses {i : Instr} {at_ : Half → Phase} {k : StoredReg} {prep : State → State} {f : Byte → Byte}
    {next : BitVec 3 → Phase} {s : State} {h : Half} (pos : BitPosition i at_ k h.index prep f next) (hp : s.phase = at_ h)
    (uses : UsesReg i k) (hprep : (prep s).mem = s.mem ∧ (prep s).history = s.history) :
    Accesses i (portBase i s.cmdAddr) s (event i s) := by
  cases h with
  | rd n =>
    obtain ⟨hmem, hhist⟩ := hprep
    rw [pos.read s hp]
    exact .read k _ uses hmem (congrArg _ hhist)
  | wr n v =>
    rw [pos.write s v hp]
    exact .write k _ uses rfl rfl

theorem Debounces.readsIn {i : Instr} {row : BitVec 3} (h : Debounces i row) : ReadsIn i := .inr (h.imp_right And.left)

/-- The event at each position of an operation accesses what the table of R35 gives the operation. -/
theorem event_accesses {i : Instr} {s : State} (h : InProgress i s) (hret : s.phase.atReturn = false) :
    Accesses i (portBase i s.cmdAddr) s (event i s) := by
  have hs := h.sound
  cases hp : s.phase with
  | idle => exact absurd hp h.not_idle
  | codec | ret v => simp [hp, Phase.atReturn] at hret
  | cfgDirRow half =>
    exact (bitPosition_cfgDirRow i half.index).accesses hp ((soundAt_cfgDirRow _ _ _).1 (hp ▸ hs)).1 ⟨rfl, rfl⟩
  | cfgDirCol half =>
    exact (bitPosition_cfgDirCol i half.index).accesses hp ((soundAt_cfgDirCol _ _ _).1 (hp ▸ hs)).1 ⟨rfl, rfl⟩
  | cfgOutCol half =>
    exact (bitPosition_cfgOutCol i half.index).accesses hp (.inl ((soundAt_cfgOutCol _ _ _).1 (hp ▸ hs)).1) ⟨rfl, rfl⟩
  | resetRow half =>
    exact (bitPosition_resetRow i half.index).accesses hp (.inr (.inl ((soundAt_resetRow _ _ _).1 (hp ▸ hs)).1)) ⟨rfl, rfl⟩
  | assertRow half =>
    exact (bitPosition_assertRow i half.index).accesses hp (.inr (.inr (.inl ((soundAt_assertRow _ _ _).1 (hp ▸ hs)).1))) ⟨rfl, rfl⟩
  | scReset0 half =>
    exact (bitPosition_scReset0 i half.index).accesses hp (.inr (.inr (.inr ((soundAt_scReset0 _ _ _).1 (hp ▸ hs)).1))) ⟨rfl, rfl⟩
  | scAssert half =>
    have hop : i.op = 8#4 := by
      rw [hp] at hs
      cases half with
      | rd n => exact ((soundAt_scAssert_rd _ _ _).1 hs).1
      | wr n v => exact ((soundAt_scAssert_wr _ _ _ _).1 hs).1.1
    exact (bitPosition_scAssert i half.index).accesses hp (.inr (.inr (.inr hop))) ⟨rfl, rfl⟩
  | scReset half =>
    exact (bitPosition_scReset i half.index).accesses hp (.inr (.inr (.inr ((soundAt_scReset _ _ _).1 (hp ▸ hs)).1.1))) ⟨rfl, rfl⟩
  | readColumns =>
    simp only [event, hp]
    exact .readIn _ (.inl ((soundAt_readColumns _ _).1 (hp ▸ hs))) rfl rfl
  | dbFirst =>
    simp only [event, hp]
    exact .readIn _ ((soundAt_dbFirst _ _).1 (hp ▸ hs)).readsIn rfl rfl
  | dbSample =>
    simp only [event, hp]
    exact .readIn _ ((soundAt_dbSample _ _).1 (hp ▸ hs)).1.readsIn rfl rfl
  | dbWait =>
    simp only [event, hp]
    exact .wait _ rfl rfl

/-- The port an operation runs at, if it has an address operand. -/
def RunsAt (i : Instr) (base : Nat) (s : State) : Prop := ∀ k, addressed i = some k → portBase i s.cmdAddr = base

theorem Moves.accesses {i : Instr} {base : Nat} {s t : State} (h : Moves i s t) (hbase : RunsAt i base s) : Accesses i base s t := by
  cases hk : addressed i with
  | none => exact absurd (h.inProgress.sound.atReturn_of_unaddressed hk) (by simp [h.notReturn])
  | some k => exact hbase k hk ▸ h.eq ▸ event_accesses h.inProgress h.notReturn

/-- What each access of an operation keeps, its run keeps. -/
theorem Runs.induct_accesses {i : Instr} {base : Nat} {s u : State} {P : State → Prop} (h : Runs i s u) (hbase : RunsAt i base s)
    (hs : P s) (hstep : ∀ t u, P t → Accesses i base t u → P u) : P u := by
  induction h with
  | refl => exact hs
  | tail hrun hm ih => exact hstep _ _ ih (hm.accesses fun k hk => Runs.cmdAddr hrun ▸ hbase k hk)

/-- A whole command makes the accesses of its run and then its completion, which accesses nothing (R24). -/
theorem exec_run_and_return {i : Instr} {s t : State} (hb : s.busy = false) (h : exec i s = .next t) :
    domainRefusal i s.offeredAddr s.addrWidth s.ports = none ∧
      ∃ u v, Runs i (accept i s) u ∧ t.mem = u.mem ∧ t.history = .ret v :: u.history := by
  obtain ⟨hdom, u, hrun, hret, rfl⟩ := exec_runs hb h
  obtain ⟨v, draw, he, -⟩ := event_return (hrun.inProgress (accept_inProgress hdom)).sound.1 hret
  exact ⟨hdom, u, v, hrun, by rw [he]; rfl, by rw [he]; rfl⟩

/-! ### The addresses accessed -/

/-- The table of R35, for the port at `base`. -/
def InAddressTable (i : Instr) (base a : Nat) : Prop :=
  (i.op = 3#4 ∧ (a = base ∨ a = base + 1)) ∨ ((i.op = 4#4 ∨ i.op = 5#4) ∧ a = base + 1) ∨
    ((i.op = 6#4 ∨ i.op = 7#4) ∧ a = base + 2) ∨ (i.op = 8#4 ∧ (a = base + 1 ∨ a = base + 2))

theorem UsesReg.inAddressTable {i : Instr} {k : StoredReg} (h : UsesReg i k) (base : Nat) :
    InAddressTable i base (storedAddr base k) := by
  cases k with
  | dir => exact .inl ⟨h, .inl rfl⟩
  | out =>
    rcases h with h | h | h | h
    · exact .inl ⟨h, .inr rfl⟩
    · exact .inr (.inl ⟨.inl h, rfl⟩)
    · exact .inr (.inl ⟨.inr h, rfl⟩)
    · exact .inr (.inr (.inr ⟨h, .inl rfl⟩))

theorem ReadsIn.inAddressTable {i : Instr} (h : ReadsIn i) (base : Nat) : InAddressTable i base (inAddr base) := by
  rcases h with h | h | h
  · exact .inr (.inr (.inl ⟨.inl h, rfl⟩))
  · exact .inr (.inr (.inl ⟨.inr h, rfl⟩))
  · exact .inr (.inr (.inr ⟨h, .inr rfl⟩))

theorem storedAddr_ne_inAddr (base : Nat) (k : StoredReg) : storedAddr base k ≠ inAddr base := by
  cases k <;> simp [storedAddr, inAddr]

/-- An event that follows the table of R35 and does not write IN (R32). -/
structure FollowsTable (i : Instr) (base : Nat) (e : Event) : Prop where
  addr : ∀ a, accessAddr e = some a → InAddressTable i base a
  notIn : ∀ a v, e = .write a v → a ≠ inAddr base

theorem Accesses.followsTable {i : Instr} {base : Nat} {s t : State} (h : Accesses i base s t) :
    ∃ e, t.history = e :: s.history ∧ FollowsTable i base e := by
  cases h with
  | read k v uses _ hh =>
    refine ⟨_, hh, ?_, nofun⟩
    rintro a ⟨⟩
    exact uses.inAddressTable base
  | write k v uses _ hh =>
    refine ⟨_, hh, ?_, ?_⟩
    · rintro a ⟨⟩
      exact uses.inAddressTable base
    · rintro a v ⟨⟩
      exact storedAddr_ne_inAddr base k
  | readIn v reads _ hh =>
    refine ⟨_, hh, ?_, nofun⟩
    rintro a ⟨⟩
    exact reads.inAddressTable base
  | wait us _ hh => exact ⟨_, hh, nofun, nofun⟩

/-- `t` is reached from `s` by events that follow the table of R35. -/
def TableRun (i : Instr) (base : Nat) (s t : State) : Prop := ∃ es, t.history = es ++ s.history ∧ ∀ e ∈ es, FollowsTable i base e

theorem TableRun.cons {i : Instr} {base : Nat} {s t u : State} {e : Event} (h : TableRun i base s t) (hu : u.history = e :: t.history)
    (he : FollowsTable i base e) : TableRun i base s u := by
  obtain ⟨es, hes, hall⟩ := h
  exact ⟨e :: es, by rw [hu, hes, List.cons_append], List.forall_mem_cons.2 ⟨he, hall⟩⟩

/-- Settles O48: each event of the run, and the completion, follows the table. -/
theorem accessesFollowTheAddressTable : Obligations.AccessesFollowTheAddressTable := by
  intro i s t base hb hoff h
  obtain ⟨-, u, v, hrun, -, hhist⟩ := exec_run_and_return hb h
  have hbase : RunsAt i base (accept i s) := fun k hk => portBase_accepted hk (hoff k hk)
  have hu : TableRun i base s u := hrun.induct_accesses (P := TableRun i base s) hbase ⟨[], rfl, nofun⟩ fun t u ht ha => by
    obtain ⟨e, he, hfollows⟩ := ha.followsTable
    exact ht.cons he hfollows
  obtain ⟨es, hes, hall⟩ := hu.cons hhist ⟨nofun, nofun⟩
  exact ⟨es, hes, fun e he => (hall e he).addr, fun a v hw => (hall _ hw).notIn a v rfl⟩

/-! ### The bytes of memory changed -/

/-- Memory stays canonical, and every byte but the registers an operation uses at the port at `base` is kept; all of memory, if it uses none (R32). -/
structure KeepsUnused (i : Instr) (base : Nat) (s t : State) : Prop where
  wf : Memory.wf t.mem = true
  bytes : ∀ a, (∀ k, UsesReg i k → a ≠ storedAddr base k) → Memory.get t.mem a = Memory.get s.mem a
  mem : (∀ k, ¬ UsesReg i k) → t.mem = s.mem

theorem KeepsUnused.of_mem {i : Instr} {base : Nat} {s t u : State} (h : KeepsUnused i base s t) (hu : u.mem = t.mem) :
    KeepsUnused i base s u :=
  ⟨hu ▸ h.wf, hu ▸ h.bytes, hu ▸ h.mem⟩

theorem KeepsUnused.access {i : Instr} {base : Nat} {s t u : State} (h : KeepsUnused i base s t) (ha : Accesses i base t u) :
    KeepsUnused i base s u := by
  cases ha with
  | read _ _ _ hmem | readIn _ _ hmem | wait _ hmem => exact h.of_mem hmem
  | write k v uses hmem =>
    refine ⟨hmem ▸ Memory.wf_set h.wf _ _, fun a hne => ?_, fun hnone => absurd uses (hnone k)⟩
    rw [hmem, Memory.get_set h.wf, if_neg (hne k uses), h.bytes a hne]

/-- The port a command runs at is that of the address offered, of which CMD_ADDR holds the whole (R23, R35). -/
theorem accept_runsAt {i : Instr} {s : State} (h : domainRefusal i s.offeredAddr s.addrWidth s.ports = none) :
    RunsAt i (portBase i s.offeredAddr) (accept i s) := fun k hk => by
  rw [accept_cmdAddr, Nat.mod_eq_of_lt (inSpace_of_domain h hk)]

theorem exec_keepsUnused {i : Instr} {s t : State} (hwf : Memory.wf s.mem = true) (h : exec i s = .next t) :
    KeepsUnused i (portBase i s.offeredAddr) s t := by
  have hs : KeepsUnused i (portBase i s.offeredAddr) s s := ⟨hwf, fun _ _ => rfl, fun _ => rfl⟩
  cases hb : s.busy with
  | true =>
    rw [exec_busy i hb] at h
    cases h
    exact hs
  | false =>
    obtain ⟨hdom, u, v, hrun, hmem, -⟩ := exec_run_and_return hb h
    have hu := hrun.induct_accesses (P := KeepsUnused i _ s) (accept_runsAt hdom) (hs.of_mem rfl) fun _ _ => KeepsUnused.access
    exact hu.of_mem hmem

/-- Settles O49: the bytes an operation keeps are those of no register it uses. -/
theorem memoryChangesOnlyAtThePort : Obligations.MemoryChangesOnlyAtThePort := by
  intro i s t hwf h
  have hkeep := exec_keepsUnused hwf h
  refine ⟨fun a hdir hout => hkeep.bytes a fun k _ => ?_, fun hop => hkeep.mem fun k => ?_, fun hop => hkeep.bytes _ fun k huse => ?_⟩
  · cases k <;> assumption
  · cases k <;> simp_all [UsesReg]
  · cases k with
    | dir => exact absurd huse hop
    | out => exact storedAddr_ne _

end Sys2Proof.Machine
end

section
/-! PROOF. Where a command stops (R161, R139). -/

namespace Sys2Proof.Machine

/-- A free block refuses a command outside its domain, by the name of what is wrong with it (R161). -/
theorem exec_refused {i : Instr} {s : State} {r : Refusal} (hb : s.busy = false)
    (h : domainRefusal i s.offeredAddr s.addrWidth s.ports = some r) : exec i s = .refused r := by
  simp [exec_eq_runCommand, runCommand, hb, h]

/-- Operands outside the domain are named ahead of the address. -/
theorem domainRefusal_operand {i : Instr} {r : Refusal} (h : operandRefusal i = some r) (addr aw : Nat) (ports : List Nat) :
    domainRefusal i addr aw ports = some r := by
  rw [domainRefusal, h]

theorem domainRefusal_address {i : Instr} {k : PortReg} (hw : i.wellFormed = true) (hk : addressed i = some k) (addr aw : Nat)
    (ports : List Nat) : domainRefusal i addr aw ports = addressRefusal k addr aw ports := by
  simp only [domainRefusal, operandRefusal_wellFormed hw, hk]

theorem addressRefusal_past_end {k : PortReg} {addr aw : Nat} {ports : List Nat} (h : 2 ^ aw ≤ highestAddr k addr) :
    addressRefusal k addr aw ports = some .outsideAddressSpace := by
  have hs : inSpace aw (highestAddr k addr) = false := by simpa [← Bool.not_eq_true, inSpace_iff] using h
  simp [addressRefusal, hs]

theorem addressRefusal_wrong {k : PortReg} {addr aw : Nat} {ports : List Nat} (h : highestAddr k addr < 2 ^ aw)
    (hne : ∀ b ∈ ports, addr ≠ b + regOffset k) : addressRefusal k addr aw ports = some .wrongRegister := by
  have hs : inSpace aw (highestAddr k addr) = true := (inSpace_iff _ _).2 h
  have hport : ¬ (regOffset k ≤ addr ∧ addr - regOffset k ∈ ports) := fun ⟨hle, hmem⟩ => hne _ hmem (by omega)
  simpa [addressRefusal, hs] using hport

theorem addressRefusal_none {k : PortReg} {addr aw : Nat} {ports : List Nat} (h : highestAddr k addr < 2 ^ aw)
    (hport : ∃ b ∈ ports, addr = b + regOffset k) : addressRefusal k addr aw ports = none := by
  have hs : inSpace aw (highestAddr k addr) = true := (inSpace_iff _ _).2 h
  obtain ⟨b, hb, rfl⟩ := hport
  simp [addressRefusal, hs, hb]

/-- A codec operation has a domain that refuses nothing (R70, R71, R72). -/
theorem domainRefusal_codec {i : Instr} (hk : addressed i = none) (addr aw : Nat) (ports : List Nat) :
    domainRefusal i addr aw ports = none := by
  have hop : operandRefusal i = none := by
    cases i
    case encode rows cols => exact operandRefusal_encode rows cols
    case decodeRows | decodeCols => rfl
    all_goals cases hk
  simp only [domainRefusal, hop, hk]

/-- A command inside its domain completes, unless it waits and no wait ends (R130, R139). -/
theorem exec_completes_or_hangs {i : Instr} {s : State} (hb : s.busy = false)
    (h : domainRefusal i s.offeredAddr s.addrWidth s.ports = none) :
    (∃ t, exec i s = .next t) ∨ (exec i s = .fault .waitNeverEnds ∧ s.waitDone = false ∧ (i.op = 7#4 ∨ i.op = 8#4)) := by
  have hrun : exec i s = execBody i (accept i s) := (exec_eq_runCommand i s).trans (runCommand_accepted _ hb h)
  have hfree (r : Refusal) : exec i s ≠ .refused r := by
    rw [hrun]
    cases i
    case readColumnsDebounced | scan => simp only [execBody, ifWaitsEnd]; split <;> nofun
    all_goals nofun
  cases he : exec i s with
  | next t => exact .inl ⟨t, rfl⟩
  | fault r => exact .inr ⟨rfl, exec_fault he⟩
  | refused r => exact absurd he (hfree r)

/-- Settles O46: each name is the first thing wrong with the command, and a command with nothing wrong is accepted. -/
theorem commandStopsOnlyOutsideDomain : Obligations.CommandStopsOnlyOutsideDomain := by
  intro s hb
  have hoperand {i : Instr} {r : Refusal} (h : operandRefusal i = some r) : exec i s = .refused r :=
    exec_refused hb (domainRefusal_operand h _ _ _)
  refine ⟨fun rows cols h => ?_, fun desc h => ⟨?_, ?_, ?_, ?_⟩, fun n h => ?_, fun i k hw hk => ?address, fun i hk => ?codec⟩
  case address =>
    have hdom := domainRefusal_address hw hk s.offeredAddr s.addrWidth s.ports
    refine ⟨fun hend => ?_, fun hin hne => ?_, fun hin hport => ?_⟩
    · exact exec_refused hb (hdom.trans (addressRefusal_past_end hend))
    · exact exec_refused hb (hdom.trans (addressRefusal_wrong hin hne))
    · exact exec_completes_or_hangs hb (hdom.trans (addressRefusal_none hin hport))
  case codec =>
    have hop : i.op ≠ 7#4 ∧ i.op ≠ 8#4 := by cases i <;> simp_all [addressed, Instr.op]
    exact (exec_completes_or_hangs hb (domainRefusal_codec hk _ _ _)).resolve_right fun ⟨_, _, hw⟩ => hw.elim hop.1 hop.2
  all_goals exact hoperand (by simp [operandRefusal, Instr.wellFormed, h])

end Sys2Proof.Machine
end

section
/-! PROOF. The encoding: a word is its three fields, the decoder goes by them, and a reserved word is refused (R52, R55, R56, R57). -/

namespace Sys2Proof

/-- A word is made of its three fields (R52). -/
theorem wordOf_fields (w : CmdWord) : wordOf (fieldOp w) (fieldB w) (fieldA w) = w := by
  have hlow : fieldB w ++ fieldA w = w.extractLsb' 0 16 := BitVec.extractLsb'_append_extractLsb'_eq_extractLsb' rfl
  have hall : fieldOp w ++ w.extractLsb' 0 16 = w.extractLsb' 0 20 := BitVec.extractLsb'_append_extractLsb'_eq_extractLsb' rfl
  calc wordOf (fieldOp w) (fieldB w) (fieldA w)
    _ = fieldOp w ++ (fieldB w ++ fieldA w) := BitVec.append_assoc
    _ = w := by rw [hlow, hall]; exact BitVec.extractLsb'_eq_self

theorem encode_eq_of_fields {w : CmdWord} {i : Instr} (hop : fieldOp w = i.op) (hb : fieldB w = i.b) (ha : fieldA w = i.a) :
    encode i = w := by
  rw [encode, ← hop, ← hb, ← ha, wordOf_fields]

/-- A word that decodes to an operation is the word that encodes it (R56). -/
theorem encode_of_decodeWord {w : CmdWord} {i : Instr} (h : decodeWord w = .instr i) : encode i = w := by
  obtain ⟨hop, hb, ha⟩ := fields_of_decodeWord h
  exact encode_eq_of_fields hop hb ha

/-- A word whose fields are those of an operation decodes to it (R52, R56). -/
theorem decodeWord_of_fields {w : CmdWord} {i : Instr} (hop : fieldOp w = i.op) (hb : fieldB w = i.b) (ha : fieldA w = i.a) :
    decodeWord w = .instr i := by
  rw [← encode_eq_of_fields hop hb ha, decodeWord_encode]

/-- Opcodes 9 to 15 are reserved, whatever the operands (R56). -/
theorem decodeWord_reservedOpcode {w : CmdWord} (h : 8 < (fieldOp w).toNat) : decodeWord w = .reservedOpcode := by
  unfold decodeWord
  split
  case h_10 => rfl
  all_goals omega

/-- A one-operand opcode with b not 0 is reserved (R56). -/
theorem decodeWord_reservedOperand {w : CmdWord} (hop : (fieldOp w).toNat ≤ 8) (h0 : fieldOp w ≠ 0#4) (h3 : fieldOp w ≠ 3#4)
    (hb : fieldB w ≠ 0#8) : decodeWord w = .reservedOperand := by
  unfold decodeWord
  split
  case h_1 hn => exact absurd (BitVec.eq_of_toNat_eq hn) h0
  case h_4 hn => exact absurd (BitVec.eq_of_toNat_eq hn) h3
  case h_10 => grind
  all_goals exact if_neg hb

/-- Settles O2: the decoder reads the three fields, and the three fields are the whole word. -/
theorem decodeAndEncodeAgree : Obligations.DecodeAndEncodeAgree :=
  ⟨decodeWord_encode, fun _ _ => encode_of_decodeWord⟩

/-- Settles O1: a word with an operation's fields is its encoding, so two words that decode to the same operation are both its encoding. -/
theorem decoderFollowsFieldsAndIsInjective : Obligations.DecoderFollowsFieldsAndIsInjective := by
  intro w op b a
  refine ⟨decodeWord_reservedOpcode, ?encode, ?configure, decodeWord_reservedOperand, ?_, ?_, ?_, ?_, ?_, ?_, ?_, ?injective⟩
  case encode | configure => exact fun hop => decodeWord_of_fields hop rfl rfl
  case injective => exact fun w' i h h' => (encode_of_decodeWord h).symm.trans (encode_of_decodeWord h')
  all_goals exact fun hop hb => decodeWord_of_fields hop hb rfl

/-- Settles O3: the decoder is run on each of these words. -/
theorem wordsOfTheSpecDecode : Obligations.WordsOfTheSpecDecode := by
  unfold Obligations.WordsOfTheSpecDecode
  decide

end Sys2Proof

namespace Sys2Proof.Machine

section OfferedReserved

variable {s : State} {o : Offer} {rest : List Offer}

theorem step_reservedOpcode (hr : s.rst = false) (hb : s.busy = false) (ho : s.offers = o :: rest)
    (hd : decodeWord o.word = .reservedOpcode) : step s = .refused .reservedOpcode := by
  simp [step, hr, hb, ho, withDecoded, hd]

theorem step_reservedOperand (hr : s.rst = false) (hb : s.busy = false) (ho : s.offers = o :: rest)
    (hd : decodeWord o.word = .reservedOperand) : step s = .refused .reservedOperand := by
  simp [step, hr, hb, ho, withDecoded, hd]

end OfferedReserved

/-- The opcodes of the operations with one operand (R55). -/
theorem oneOperand_opcode {op : BitVec 4} (h : op ∈ [1#4, 2#4, 4#4, 5#4, 6#4, 7#4, 8#4]) :
    op.toNat ≤ 8 ∧ op ≠ 0#4 ∧ op ≠ 3#4 := by
  revert op
  decide

/-- Settles O4: the step hands on what the decoder answers, and the decoder answers by name. -/
theorem reservedWordIsRefused : Obligations.ReservedWordIsRefused := by
  intro s o rest hr hb ho
  refine ⟨fun hop => ?_, fun hop hoperand => ?_⟩
  · exact step_reservedOpcode hr hb ho (decodeWord_reservedOpcode hop)
  · obtain ⟨hle, h0, h3⟩ := oneOperand_opcode hop
    exact step_reservedOperand hr hb ho (decodeWord_reservedOperand hle h0 h3 hoperand)

end Sys2Proof.Machine
end

section
/-! PROOF. The descriptor: what makes a byte well formed, and that only six bytes are (R6, R50, R51). -/

namespace Sys2Proof.Machine

theorem legalShape_iff (rows cols : Nat) : legalShape rows cols = true ↔ (3 ≤ rows ∧ rows ≤ 5) ∧ 3 ≤ cols ∧ cols ≤ 8 - rows := by
  simp [legalShape, Config.colsMax, and_assoc, Nat.ble_eq]

/-- The reserved bits are bits 3 and 7 (R50). -/
theorem reservedBits_zero_iff (d : Descriptor) : d &&& 0x88#8 = 0#8 ↔ d.getLsbD 3 = false ∧ d.getLsbD 7 = false := by
  revert d
  decide

theorem wfDescriptor_iff (d : Descriptor) :
    wfDescriptor d = true ↔ (d.getLsbD 3 = false ∧ d.getLsbD 7 = false) ∧ legalShape (rowsOf d) (colsOf d) = true := by
  rw [wfDescriptor, Bool.and_eq_true, beq_iff_eq, reservedBits_zero_iff]

/-- Packed together again, the two fields of a descriptor whose reserved bits are 0 give it back (R50, R70). -/
theorem packDescriptor_fields {d : Descriptor} (h3 : d.getLsbD 3 = false) (h7 : d.getLsbD 7 = false) :
    packDescriptor (rowsField d) (colsField d) = d := by
  revert d
  decide

/-- The bytes of R51's table are the descriptors of the six legal shapes, in the same order (R50, R51). -/
theorem mem_table_of_wf {d : Descriptor} (h : wfDescriptor d = true) : d ∈ [0x33#8, 0x43#8, 0x53#8, 0x34#8, 0x44#8, 0x35#8] := by
  obtain ⟨⟨h3, h7⟩, hshape⟩ := (wfDescriptor_iff d).1 h
  rw [← packDescriptor_fields h3 h7]
  exact legalShape_forall (P := fun p => packDescriptor p.1 p.2 ∈ [0x33#8, 0x43#8, 0x53#8, 0x34#8, 0x44#8, 0x35#8]) hshape (by decide)

/-- Settles O22: the table is computed, and a well-formed descriptor is the packing of one of the six legal shapes. -/
theorem descriptorTable : Obligations.DescriptorTable := by
  refine ⟨by decide, by decide, fun d => ⟨mem_table_of_wf, ?_⟩, fun d => ?_⟩
  · revert d
    decide
  · rw [← Bool.not_eq_true, wfDescriptor_iff, legalShape_iff]
    rw [not_and_or, not_and_or, not_and_or, Bool.not_eq_false, Bool.not_eq_false, or_assoc]

end Sys2Proof.Machine
end

section
/-! PROOF. The codec: what its commands do from a free block, and the round trip (R70 to R73). -/

namespace Sys2Proof.Machine

/-- A codec operation offered to a free block always runs: nothing is outside its domain (R70, R71, R72). -/
theorem exec_codec {i : Instr} {s : State} (hk : addressed i = none) (hb : s.busy = false) : exec i s = execBody i (accept i s) :=
  (exec_eq_runCommand i s).trans (runCommand_accepted _ hb (domainRefusal_codec hk _ _ _))

/-- A completion with a value leaves RESULT holding it, whatever it held before (R24). -/
theorem complete_some (v : Operand) (s : State) :
    complete (some v) s =
      { s.flagsCompleted with result := v, resultHeld := true, phase := .idle, history := .ret (some v) :: s.history } := by
  simp only [complete, Option.getD_some, Option.isSome_some, Bool.or_true]

/-- Settles O23: ENCODE is accepted on every pair, and only its value and its draw depend on the shape being legal. -/
theorem encodeReturnsDescriptor : Obligations.EncodeReturnsDescriptor := by
  intro s rows cols hb
  rw [exec_codec rfl hb, execBody, encodeReturn, complete_some]
  cases hshape : legalShape rows.toNat cols.toNat <;> simp only [encodeValue, encodeDraw, hshape] <;> rfl

/-- Settles O24: a decode is accepted on every byte and returns the field it masks out. -/
theorem decodesMaskEveryByte : Obligations.DecodesMaskEveryByte := by
  intro s desc hb
  constructor
  · rw [exec_codec rfl hb, execBody, complete_some]
    rfl
  · rw [exec_codec rfl hb, execBody, complete_some]
    rfl

/-- The counts of a legal shape fit the two fields, which do not overlap (R73). -/
theorem fields_packDescriptor {rows cols : Operand} (h : legalShape rows.toNat cols.toNat = true) :
    rowsField (packDescriptor rows cols) = rows ∧ colsField (packDescriptor rows cols) = cols :=
  legalShape_forall (P := fun p => rowsField (packDescriptor p.1 p.2) = p.1 ∧ colsField (packDescriptor p.1 p.2) = p.2) h (by decide)

/-- Packing the fields of a byte that decodes to a legal shape clears its reserved bits, which are 0 exactly in a well-formed byte (R73). -/
theorem packDescriptor_fields_eq_iff {d : Descriptor} (hshape : legalShape (rowsOf d) (colsOf d) = true) :
    packDescriptor (rowsField d) (colsField d) = d ↔ wfDescriptor d = true := by
  constructor
  · intro h
    rw [← h]
    exact wfDescriptor_packDescriptor hshape
  · intro h
    obtain ⟨⟨h3, h7⟩, -⟩ := (wfDescriptor_iff d).1 h
    exact packDescriptor_fields h3 h7

section CodecCommands

variable {s : State}

/-- ENCODE completes, the block is free again, and inside its domain RESULT is the packed descriptor (R70). -/
theorem exec_encode_legal {rows cols : Operand} (hb : s.busy = false) (h : legalShape rows.toNat cols.toNat = true) :
    ∃ t, exec (.encode rows cols) s = .next t ∧ t.busy = false ∧ t.result = packDescriptor rows cols :=
  ⟨_, encodeReturnsDescriptor s rows cols hb, rfl, if_pos h⟩

theorem exec_decodeRows (desc : Descriptor) (hb : s.busy = false) :
    ∃ t, exec (.decodeRows desc) s = .next t ∧ t.busy = false ∧ t.result = rowsField desc :=
  ⟨_, (decodesMaskEveryByte s desc hb).1, rfl, rfl⟩

theorem exec_decodeCols (desc : Descriptor) (hb : s.busy = false) :
    ∃ t, exec (.decodeCols desc) s = .next t ∧ t.busy = false ∧ t.result = colsField desc :=
  ⟨_, (decodesMaskEveryByte s desc hb).2, rfl, rfl⟩

end CodecCommands

/-- Settles O25: each command leaves the block free for the next, so the round trip is that of the fields and the packing. -/
theorem codecRoundTrip : Obligations.CodecRoundTrip := by
  constructor
  · intro s rows cols hb hshape
    obtain ⟨hrows, hcols⟩ := fields_packDescriptor hshape
    obtain ⟨t, ht, hbt, hdesc⟩ := exec_encode_legal hb hshape
    obtain ⟨u, hu, hbu, hru⟩ := exec_decodeRows t.result hbt
    obtain ⟨v, hv, -, hcv⟩ := exec_decodeCols t.result hbu
    exact ⟨t, u, v, ht, hu, by rw [hru, hdesc, hrows], hv, by rw [hcv, hdesc, hcols]⟩
  · intro s d hb hshape
    obtain ⟨t, ht, hbt, hrows⟩ := exec_decodeRows d hb
    obtain ⟨u, hu, hbu, hcols⟩ := exec_decodeCols d hbt
    obtain ⟨v, hv, -, hdesc⟩ := exec_encode_legal hbu hshape
    refine ⟨t, u, v, ht, hu, by rw [hrows, hcols, hv], ?_⟩
    rw [hdesc]
    exact packDescriptor_fields_eq_iff hshape

end Sys2Proof.Machine
end

section
/-! PROOF. Memories in canonical form that read the same are the same. -/

namespace Sys2Proof.Machine

theorem Memory.wfFrom_cons {lo b : Nat} {w : Byte} {m : List Host.Cell} :
    Memory.wfFrom lo ((b, w) :: m) = true ↔ lo ≤ b ∧ w ≠ Memory.unlisted ∧ Memory.wfFrom (b + 1) m = true := by
  simp [Memory.wfFrom, and_assoc]

/-- A memory that reads at `b` as one with a cell there does has a cell at `b` or below. -/
theorem Memory.le_of_get_eq_head {lo lo' b : Nat} {w : Byte} {m m' : List Host.Cell} (h : Memory.wfFrom lo ((b, w) :: m) = true)
    (h' : Memory.wfFrom lo' m' = true) (hget : Memory.get ((b, w) :: m) b = Memory.get m' b) : lo' ≤ b := by
  by_contra hlt
  rw [Memory.get, if_pos rfl, Memory.get_below h' (by omega)] at hget
  exact (Memory.wfFrom_cons.1 h).2.1 hget

theorem Memory.eq_of_get_eq_wfFrom {lo : Nat} {m m' : List Host.Cell} (h : Memory.wfFrom lo m = true)
    (h' : Memory.wfFrom lo m' = true) (hget : ∀ a, Memory.get m a = Memory.get m' a) : m = m' := by
  induction m generalizing lo m' with
  | nil =>
    cases m' with
    | nil => rfl
    | cons c' m' => exact absurd (Memory.le_of_get_eq_head (lo' := c'.1 + 1) h' rfl (hget _).symm) (by omega)
  | cons c m ih =>
    cases m' with
    | nil => exact absurd (Memory.le_of_get_eq_head (lo' := c.1 + 1) h rfl (hget _)) (by omega)
    | cons c' m' =>
      obtain ⟨b, w⟩ := c
      obtain ⟨b', w'⟩ := c'
      obtain ⟨-, hw, hm⟩ := Memory.wfFrom_cons.1 h
      obtain ⟨-, hw', hm'⟩ := Memory.wfFrom_cons.1 h'
      have hle := Memory.le_of_get_eq_head h (Memory.wfFrom_cons.2 ⟨le_refl b', hw', hm'⟩) (hget b)
      have hge := Memory.le_of_get_eq_head h' (Memory.wfFrom_cons.2 ⟨le_refl b, hw, hm⟩) (hget b').symm
      obtain rfl : b = b' := by omega
      have hww : w = w' := by simpa [Memory.get] using hget b
      have htail (a : Nat) : Memory.get m a = Memory.get m' a := by
        by_cases hab : a = b
        · rw [Memory.get_below hm (by omega), Memory.get_below hm' (by omega)]
        · simpa [Memory.get, hab] using hget a
      rw [hww, ih hm hm' htail]

/-- A memory in canonical form is determined by what its bytes read as. -/
theorem Memory.eq_of_get_eq {m m' : List Host.Cell} (h : Memory.wf m = true) (h' : Memory.wf m' = true)
    (hget : ∀ a, Memory.get m a = Memory.get m' a) : m = m' := Memory.eq_of_get_eq_wfFrom h h' hget

end Sys2Proof.Machine
end

section
/-! PROOF. The masks of a shape, and loops of bit operations, which set or clear the bits of one (R33, R34, R51). -/

namespace Sys2Proof.Machine

theorem getLsbD_rowMask {rows n : Nat} (hrows : rows ≤ 8) (hn : n < 8) : (rowMask rows).getLsbD n = decide (n < rows) := by
  have hall : ∀ rows ≤ 8, ∀ n < 8, (rowMask rows).getLsbD n = decide (n < rows) := by decide
  exact hall rows hrows n hn

theorem getLsbD_colMask {rows cols n : Nat} (hcols : cols ≤ 8) (hn : n < 8) :
    (colMask rows cols).getLsbD n = decide (rows ≤ n ∧ n < rows + cols) := by
  change (rowMask cols <<< rows).getLsbD n = _
  rw [BitVec.getLsbD_shiftLeft, getLsbD_rowMask hcols (by omega), Bool.eq_iff_iff]
  simp only [Bool.and_eq_true, Bool.not_eq_true', decide_eq_true_eq, decide_eq_false_iff_not, hn, true_and]
  omega

/-- The pin of a row is in the row mask, and not in the column mask (R51). -/
theorem masks_of_row {rows cols n : Nat} (hshape : legalShape rows cols = true) (hn : n < rows) :
    (rowMask rows).getLsbD n = true ∧ (colMask rows cols).getLsbD n = false := by
  obtain ⟨-, hrows, -, hcols⟩ := legalShape_bounds hshape
  rw [getLsbD_rowMask (by omega) (by omega), getLsbD_colMask (by omega) (by omega)]
  exact ⟨decide_eq_true hn, decide_eq_false (by omega)⟩

/-! The bits of one mask set, and then those of another cleared (R81). -/

section Masks

variable {v r c : Byte} {n : Nat}

theorem getLsbD_clearMask (hc : c.getLsbD n = false) : (v &&& ~~~c).getLsbD n = v.getLsbD n := by
  by_cases hn : n < 8
  · rw [BitVec.getLsbD_and, BitVec.getLsbD_not, hc]
    simp [hn]
  · rw [BitVec.getLsbD_of_ge _ n (by simpa using hn), BitVec.getLsbD_of_ge _ n (by simpa using hn)]

theorem getLsbD_setThenClear (hr : r.getLsbD n = true) (hc : c.getLsbD n = false) : ((v ||| r) &&& ~~~c).getLsbD n = true := by
  rw [getLsbD_clearMask hc, BitVec.getLsbD_or, hr, Bool.or_true]

theorem clearMask_clearMask : v &&& ~~~c &&& ~~~c = v &&& ~~~c := by rw [BitVec.and_assoc, BitVec.and_self]

theorem setThenClear_outside : (v ||| r) &&& ~~~c &&& ~~~(r ||| c) = v &&& ~~~(r ||| c) := by
  ext n hn
  cases hr : r[n] <;> simp [hr]

theorem setThenClear_setThenClear : ((v ||| r) &&& ~~~c ||| r) &&& ~~~c = (v ||| r) &&& ~~~c := by
  ext n hn
  cases hr : r[n] <;> simp [hr]

end Masks

/-- Setting the bits of the rows one by one sets the row mask (R81). -/
theorem foldl_setBit_range {rows : Nat} (hrows : rows ≤ 8) (v : Byte) :
    (List.range rows).foldl (fun v j => v ||| bit j) v = v ||| rowMask rows := by
  refine BitVec.eq_of_getLsbD_eq fun n hn => ?_
  rw [getLsbD_foldl_setBit _ _ hn, BitVec.getLsbD_or, getLsbD_rowMask hrows hn]
  simp only [List.mem_range]

/-- Clearing the bits of the columns one by one clears the column mask (R81). -/
theorem foldl_clearBit_range (rows : Nat) {cols : Nat} (hcols : cols ≤ 8) (v : Byte) :
    (List.range cols).foldl (fun v j => v &&& ~~~bit (rows + j)) v = v &&& ~~~colMask rows cols := by
  rw [← List.foldl_map (f := (rows + ·)) (g := fun v n => v &&& ~~~bit n), ← List.range'_eq_map_range]
  refine BitVec.eq_of_getLsbD_eq fun n hn => ?_
  rw [getLsbD_foldl_clearBit _ _ hn, BitVec.getLsbD_and, BitVec.getLsbD_not, getLsbD_colMask hcols hn]
  simp [hn, List.mem_range'_1]

/-! ### A loop of bit operations that counts in a loop index -/

/-- Two states with the same memory and the same history. -/
def SameAccesses (s t : State) : Prop := s.mem = t.mem ∧ s.history = t.history

/-- The loop index a pass writes is not seen by memory or the history. -/
theorem bitLoop_sameAccesses {base : Nat} {k : StoredReg} {f : Byte → Nat → Byte} {prep : Nat → State → State} (n : Nat) (s : State)
    (hprep : ∀ j t, SameAccesses (prep j t) t) :
    SameAccesses (bitLoop base k (fun j v => f v j) prep n s) ((List.range n).foldl (fun s j => bitOp base k (f · j) s) s) := by
  refine List.foldl_rel (r := SameAccesses) ⟨rfl, rfl⟩ fun j _ t u htu => ?_
  obtain ⟨hmem, hhist⟩ := hprep j t
  obtain ⟨hmem', hhist'⟩ := htu
  simp [SameAccesses, bitOp, hmem, hhist, hmem', hhist']

/-- A loop over `[0, n)` is a run of bit operations on the bits of `[0, n)` (R46). -/
theorem bitLoop_bitRun {base : Nat} {k : StoredReg} {f : Byte → Nat → Byte} {prep : Nat → State → State} (n : Nat) {s : State}
    (hwf : Memory.wf s.mem = true) (hprep : ∀ j t, SameAccesses (prep j t) t) :
    BitRun base k f (List.range n) s (bitLoop base k (fun j v => f v j) prep n s) := by
  obtain ⟨hmem, hhist⟩ := bitLoop_sameAccesses (base := base) (k := k) (f := f) n s hprep
  have hrun := bitRun_foldl base k f (List.range n) hwf
  exact ⟨hmem ▸ hrun.wf, hmem ▸ hrun.register, hmem ▸ hrun.others, hhist ▸ hrun.history⟩

/-- `t` differs from `s` in memory, the history and the loop indexes ROW and COL at most. -/
def DrivesPins (s t : State) : Prop := t = { s with mem := t.mem, history := t.history, row := t.row, col := t.col }

theorem DrivesPins.trans {s t u : State} (h : DrivesPins s t) (h' : DrivesPins t u) : DrivesPins s u := by
  unfold DrivesPins at *
  refine h'.trans ?_
  rw [h]

theorem bitLoop_drivesPins {base : Nat} {k : StoredReg} {f : Nat → Byte → Byte} {prep : Nat → State → State} (n : Nat) (s : State)
    (hprep : ∀ j t, DrivesPins t (prep j t)) : DrivesPins s (bitLoop base k f prep n s) :=
  forEach_induct (P := fun _ t => DrivesPins s t) n rfl fun j t _ ht => (ht.trans (hprep j t)).trans rfl

end Sys2Proof.Machine
end

section
/-! PROOF. CONFIGURE: what its three loops do, and the command whole (R80, R81, R83). -/

namespace Sys2Proof.Machine

/-- CONFIGURE's three loops (R80). -/
theorem configurePins_eq_bitLoops (base rows cols : Nat) (s : State) : configurePins base rows cols s =
    bitLoop base .out (fun j v => v &&& ~~~bit (rows + j)) .setCol cols
      (bitLoop base .dir (fun j v => v &&& ~~~bit (rows + j)) .setCol cols
        (bitLoop base .dir (fun j v => v ||| bit j) .setRow rows s)) := rfl

theorem configurePins_drivesPins (base rows cols : Nat) (s : State) : DrivesPins s (configurePins base rows cols s) := by
  have hrow (j : Nat) (t : State) : DrivesPins t (t.setRow j) := rfl
  have hcol (j : Nat) (t : State) : DrivesPins t (t.setCol j) := rfl
  rw [configurePins_eq_bitLoops]
  exact ((bitLoop_drivesPins rows s hrow).trans (bitLoop_drivesPins cols _ hcol)).trans (bitLoop_drivesPins cols _ hcol)

/-- CONFIGURE's port accesses in the order made (R80), from what DIR and OUT hold before them. -/
def configureTrace (base rows cols : Nat) (dir out : Byte) : List Event :=
  bitTrace base (fun v n => v ||| bit n) (List.range rows) dir ++
    bitTrace base (fun v n => v &&& ~~~bit (rows + n)) (List.range cols) (dir ||| rowMask rows) ++
    bitTrace (base + 1) (fun v n => v &&& ~~~bit (rows + n)) (List.range cols) out

theorem configureTrace_length (base rows cols : Nat) (dir out : Byte) :
    (configureTrace base rows cols dir out).length = 2 * rows + 4 * cols := by
  simp only [configureTrace, List.length_append, bitTrace_length, List.length_range]
  omega

/-- CONFIGURE's accesses are three runs of bit operations (R80). -/
theorem configurePins_bitRuns (base rows cols : Nat) {s : State} (hwf : Memory.wf s.mem = true) : ∃ t u,
    BitRun base .dir (fun v n => v ||| bit n) (List.range rows) s t ∧
    BitRun base .dir (fun v n => v &&& ~~~bit (rows + n)) (List.range cols) t u ∧
    BitRun base .out (fun v n => v &&& ~~~bit (rows + n)) (List.range cols) u (configurePins base rows cols s) := by
  rw [configurePins_eq_bitLoops]
  have hset := bitLoop_bitRun (base := base) (k := .dir) (f := fun v n => v ||| bit n) (prep := .setRow) rows hwf fun _ _ => ⟨rfl, rfl⟩
  have hclear (k : StoredReg) {t : State} (ht : Memory.wf t.mem = true) :=
    bitLoop_bitRun (base := base) (k := k) (f := fun v n => v &&& ~~~bit (rows + n)) (prep := .setCol) cols ht fun _ _ => ⟨rfl, rfl⟩
  exact ⟨_, _, hset, hclear .dir hset.wf, hclear .out (hclear .dir hset.wf).wf⟩

/-- What CONFIGURE makes of memory (R81). -/
structure Configured (base rows cols : Nat) (s t : State) : Prop where
  wf : Memory.wf t.mem = true
  dir : t.dir base = (s.dir base ||| rowMask rows) &&& ~~~colMask rows cols
  out : t.out base = s.out base &&& ~~~colMask rows cols
  others : ∀ a, a ≠ base → a ≠ base + 1 → Memory.get t.mem a = Memory.get s.mem a

section Effect

variable {base rows cols : Nat} {s : State} (hwf : Memory.wf s.mem = true) (hrows : rows ≤ 8) (hcols : cols ≤ 8)

include hwf hrows

theorem configurePins_history : (configurePins base rows cols s).history =
    (configureTrace base rows cols (s.dir base) (s.out base)).reverse ++ s.history := by
  obtain ⟨t, u, hset, hclear, hpull⟩ := configurePins_bitRuns base rows cols hwf
  have hdir := hset.register.trans (foldl_setBit_range hrows _)
  have hout := (hclear.others _ (storedAddr_ne base).symm).trans (hset.others _ (storedAddr_ne base).symm)
  rw [hpull.history, hclear.history, hset.history, hdir, hout]
  simp [configureTrace, State.dir, State.out, storedAddr]

include hcols

theorem configurePins_configured : Configured base rows cols s (configurePins base rows cols s) := by
  obtain ⟨t, u, hset, hclear, hpull⟩ := configurePins_bitRuns base rows cols hwf
  refine ⟨hpull.wf, ?_, ?_, fun a hd ho => ?_⟩
  · calc (configurePins base rows cols s).dir base
      _ = u.dir base := hpull.others _ (storedAddr_ne base)
      _ = t.dir base &&& ~~~colMask rows cols := hclear.register.trans (foldl_clearBit_range rows hcols _)
      _ = (s.dir base ||| rowMask rows) &&& ~~~colMask rows cols := congrArg (· &&& _) (hset.register.trans (foldl_setBit_range hrows _))
  · calc (configurePins base rows cols s).out base
      _ = u.out base &&& ~~~colMask rows cols := hpull.register.trans (foldl_clearBit_range rows hcols _)
      _ = t.out base &&& ~~~colMask rows cols := congrArg (· &&& _) (hclear.others _ (storedAddr_ne base).symm)
      _ = s.out base &&& ~~~colMask rows cols := congrArg (· &&& _) (hset.others _ (storedAddr_ne base).symm)
  · rw [hpull.others a ho, hclear.others a hd, hset.others a hd]

end Effect

/-- CONFIGURE done a second time leaves memory as the first left it (R83). -/
theorem Configured.twice {base rows cols : Nat} {s t t' u : State} (h : Configured base rows cols s t)
    (h' : Configured base rows cols t' u) (ht : t'.mem = t.mem) : u.mem = t.mem := by
  have hdir : t'.dir base = t.dir base := congrArg (Memory.get · _) ht
  have hout : t'.out base = t.out base := congrArg (Memory.get · _) ht
  refine Memory.eq_of_get_eq h'.wf h.wf fun a => ?_
  by_cases had : a = base
  · subst had
    change u.dir a = t.dir a
    rw [h'.dir, hdir, h.dir, setThenClear_setThenClear]
  by_cases hao : a = base + 1
  · subst hao
    change u.out base = t.out base
    rw [h'.out, hout, h.out, clearMask_clearMask]
  rw [h'.others a had hao, ht]

/-! ### CONFIGURE as a command -/

/-- The state CONFIGURE completes in, accepted in `s` (R23, R24, R80). -/
def configureEnd (base : Nat) (rows cols : Operand) (s : State) : State :=
  complete (some (packDescriptor rows cols)) (configurePins base rows.toNat cols.toNat (accept (.configure rows cols) s))

section Command

variable {s : State} {base : Nat} {rows cols : Operand}

theorem configureEnd_configured (hwf : Memory.wf s.mem = true) (hshape : legalShape rows.toNat cols.toNat = true) :
    Configured base rows.toNat cols.toNat s (configureEnd base rows cols s) := by
  obtain ⟨-, hrows, -, hcols⟩ := legalShape_bounds hshape
  obtain ⟨hwf, hdir, hout, hothers⟩ : Configured base rows.toNat cols.toNat (accept (.configure rows cols) s) _ :=
    configurePins_configured hwf (by omega) (by omega)
  exact ⟨hwf, hdir, hout, hothers⟩

theorem configureEnd_history (hwf : Memory.wf s.mem = true) (hshape : legalShape rows.toNat cols.toNat = true) :
    (configureEnd base rows cols s).history = .ret (some (packDescriptor rows cols)) ::
      (configureTrace base rows.toNat cols.toNat (s.dir base) (s.out base)).reverse ++ s.history := by
  have hrows := (legalShape_bounds hshape).2.1
  exact congrArg _ (configurePins_history (s := accept (.configure rows cols) s) hwf (by omega))

theorem configureEnd_eventCount (hwf : Memory.wf s.mem = true) (hshape : legalShape rows.toNat cols.toNat = true) :
    (configureEnd base rows cols s).history.length - s.history.length = 2 * rows.toNat + 4 * cols.toNat + 1 := by
  rw [configureEnd_history hwf hshape, List.length_append, List.length_cons, List.length_reverse, configureTrace_length]
  omega

section Offered

variable (h : OfferedAt .direction base s)

include h

theorem exec_configure (hshape : legalShape rows.toNat cols.toNat = true) :
    exec (.configure rows cols) s = .next (configureEnd base rows cols s) := by
  have hoff (k : PortReg) (hk : addressed (.configure rows cols) = some k) : OfferedAt k base s := by
    cases hk
    exact h
  rw [exec_eq_runCommand, runCommand_offered _ h.1 (operandRefusal_wellFormed (i := .configure rows cols) hshape) hoff, execBody,
    portBase_accepted rfl h, configureEnd]

/-- CONFIGURE changes no register but those of R81, the offers (log entry 8) and the mark that RESULT holds a value (log entry 6). -/
theorem configureEnd_frame : configureEnd base rows cols s = { s with
    mem := (configureEnd base rows cols s).mem, history := (configureEnd base rows cols s).history
    row := (configureEnd base rows cols s).row, col := (configureEnd base rows cols s).col
    result := (configureEnd base rows cols s).result, resultHeld := true, done := true, busy := false, phase := .idle
    cmdOp := 3#4, cmdAddr := base, cmdA := rows, cmdB := cols, offers := s.offers.tail } := by
  have haddr : (accept (.configure rows cols) s).cmdAddr = base := accept_cmdAddr_offered h
  have hpins := configurePins_drivesPins base rows.toNat cols.toNat (accept (.configure rows cols) s)
  unfold configureEnd
  rw [complete_some, hpins, ← haddr]
  rfl

/-- After CONFIGURE the host can offer the same port another command (R35). -/
theorem offeredAt_configureEnd : OfferedAt .direction base ((configureEnd base rows cols s).withOffers s.offers) := by
  rw [configureEnd_frame h]
  exact ⟨rfl, h.2⟩

end Offered

end Command

/-- Settles O26: the masks are those the three loops set and clear, and in the table of R35 CONFIGURE has no access to IN. -/
theorem configureEndState : Obligations.ConfigureEndState := by
  intro s base rows cols h hwf hshape rowmask colmask
  have hexec := exec_configure h hshape
  obtain ⟨-, hdir, hout, hothers⟩ := configureEnd_configured (base := base) hwf hshape
  refine ⟨_, hexec, hdir, hout, rfl, ?_, ?_, fun n hn => ?_, hothers, ?_, configureEnd_frame h⟩
  · rw [hdir]
    exact setThenClear_outside
  · rw [hout]
    exact clearMask_clearMask
  · obtain ⟨hrow, hcol⟩ := masks_of_row hshape hn
    exact ⟨hdir ▸ getLsbD_setThenClear hrow hcol, hout ▸ getLsbD_clearMask hcol⟩
  · obtain ⟨es, hes, htable, -⟩ := accessesFollowTheAddressTable _ _ _ base h.1 (by rintro _ ⟨⟩; exact h) hexec
    refine ⟨es, hes, fun e he ha => ?_⟩
    simpa [Instr.op] using htable e he _ ha

/-- Settles O27: the events are those of the three loops, two for each bit. -/
theorem configureAccessesInOrder : Obligations.ConfigureAccessesInOrder := by
  intro s base rows cols h hwf hshape set clear es
  exact ⟨configureTrace_length base _ _ _ _, _, exec_configure h hshape, configureEnd_history hwf hshape⟩

/-- Settles O28: the second command finds the registers as the first left them, and sets and clears the same bits. -/
theorem configureTwiceIsRedundant : Obligations.ConfigureTwiceIsRedundant := by
  intro s base rows cols h hwf hshape
  have hfirst := configureEnd_configured (base := base) hwf hshape
  have hwf' : Memory.wf ((configureEnd base rows cols s).withOffers s.offers).mem = true := hfirst.wf
  exact ⟨_, _, exec_configure h hshape, exec_configure (offeredAt_configureEnd h) hshape,
    hfirst.twice (configureEnd_configured hwf' hshape) rfl, rfl,
    (configureEnd_eventCount hwf' hshape).trans (configureEnd_eventCount hwf hshape).symm⟩

end Sys2Proof.Machine
end

section
/-! PROOF. The row multiplexer: RESET_ROWS and ASSERT_ROW_LOW are runs of bit operations on OUT, and what a second run does (R90 to R93). -/

namespace Sys2Proof.Machine

/-! ### Bit operations that write back what they read -/

theorem foldl_eq_of_fixed {f : Byte → Nat → Byte} {bits : List Nat} {v : Byte} (h : ∀ n ∈ bits, f v n = v) : bits.foldl f v = v :=
  List.foldlRecOn (motive := (· = v)) bits f rfl fun _ hw n hn => hw ▸ h n hn

theorem bitTrace_eq_of_fixed {a : Nat} {f : Byte → Nat → Byte} {bits : List Nat} {v : Byte} (h : ∀ n ∈ bits, f v n = v) :
    bitTrace a f bits v = bitTrace a (fun v _ => v) bits v := by
  induction bits with
  | nil => rfl
  | cons n ns ih =>
    obtain ⟨hn, hns⟩ := List.forall_mem_cons.1 h
    rw [bitTrace, bitTrace, hn, ih hns]

/-! ### A command that is a run of bit operations on OUT -/

/-- Completion without a value leaves RESULT, and the mark that it holds one, as they were (R24). -/
theorem complete_none (s : State) : complete none s =
    { s with done := true, busy := false, phase := .idle, history := .ret none :: s.history } := by
  simp [complete, State.flagsCompleted]

/-- `t` differs from `s` in memory, the history and the row index ROW at most. -/
def DrivesRows (s t : State) : Prop := t = { s with mem := t.mem, history := t.history, row := t.row }

/-- Offered in `s`, the command `i` completes in `t` without a value, after a run of bit operations on OUT, with `f v n` the byte written for bit `n`
after a read that gave `v`; the offers are those of log entry 8. -/
structure DrivesOut (i : Instr) (base : Nat) (f : Byte → Nat → Byte) (bits : List Nat) (s t : State) : Prop where
  exec : exec i s = .next t
  wf : Memory.wf t.mem = true
  out : t.out base = bits.foldl f (s.out base)
  others : ∀ a, a ≠ base + 1 → Memory.get t.mem a = Memory.get s.mem a
  history : t.history = .ret none :: (bitTrace (base + 1) f bits (s.out base)).reverse ++ s.history
  frame : t = { s with
    mem := t.mem, history := t.history, row := t.row, done := true, busy := false, phase := .idle
    cmdOp := i.op, cmdAddr := base + 1, cmdA := i.a, cmdB := i.b, offers := s.offers.tail }

section OutCommands

variable {i : Instr} {base : Nat} {f : Byte → Nat → Byte} {bits : List Nat} {s t u : State}

/-- A command for OUT whose accesses, from its acceptance to the state `t`, are such a run. -/
theorem drivesOut_complete (h : OfferedAt .output base s) (hk : addressed i = some .output) (hi : i.wellFormed = true)
    (hbody : execBody i (accept i s) = .next (complete none t))
    (hrun : BitRun base .out f bits (accept i s) t) (hframe : DrivesRows (accept i s) t) :
    DrivesOut i base f bits s (complete none t) where
  exec := by
    have hoff (k : PortReg) (hk' : addressed i = some k) : OfferedAt k base s := Option.some.inj (hk.symm.trans hk') ▸ h
    rw [exec_eq_runCommand, runCommand_offered _ h.1 (operandRefusal_wellFormed hi) hoff, hbody]
  wf := hrun.wf
  out := hrun.register
  others := hrun.others
  history := congrArg (Event.ret none :: ·) hrun.history
  frame := by
    have haddr : (accept i s).cmdAddr = base + 1 := accept_cmdAddr_offered h
    rw [complete_none, hframe, ← haddr]
    rfl

/-- After such a command the host can offer the same port another one (R35). -/
theorem DrivesOut.offeredAt (h : DrivesOut i base f bits s t) (hoff : OfferedAt .output base s) :
    OfferedAt .output base (t.withOffers s.offers) := by
  rw [h.frame]
  exact ⟨rfl, hoff.2⟩

theorem DrivesOut.dir_eq (h : DrivesOut i base f bits s t) : t.dir base = s.dir base :=
  h.others _ (storedAddr_ne base)

/-- Run again where each of its bit operations writes back the byte read, the command changes no memory, and its writes store what was just read
(R92). -/
theorem DrivesOut.again (h : DrivesOut i base f bits s u) (hwf : Memory.wf s.mem = true) (hfix : ∀ n ∈ bits, f (s.out base) n = s.out base) :
    u.out base = s.out base ∧ u.mem = s.mem ∧
      u.history = .ret none :: (bitTrace (base + 1) (fun v _ => v) bits (s.out base)).reverse ++ s.history := by
  have hout : u.out base = s.out base := h.out.trans (foldl_eq_of_fixed hfix)
  refine ⟨hout, Memory.eq_of_get_eq h.wf hwf fun a => ?_, by rw [h.history, bitTrace_eq_of_fixed hfix]⟩
  by_cases ha : a = base + 1
  · subst ha
    exact hout
  · exact h.others a ha

end OutCommands

/-! ### RESET_ROWS and ASSERT_ROW_LOW -/

section RowCommands

variable {s : State} {base : Nat}

theorem resetRowsLoop_bitRun (base rows : Nat) (hwf : Memory.wf s.mem = true) :
    BitRun base .out (fun v n => v ||| bit n) (List.range rows) s (resetRowsLoop base rows s) :=
  bitLoop_bitRun (prep := .setRow) rows hwf fun _ _ => ⟨rfl, rfl⟩

theorem resetRowsLoop_drivesRows (base rows : Nat) (s : State) : DrivesRows s (resetRowsLoop base rows s) :=
  forEach_induct (P := fun _ t => DrivesRows s t) rows rfl fun j _ _ ht =>
    (congrArg (fun t => portSetBit base .out j (State.setRow j t)) ht).trans rfl

theorem portClearBit_bitRun (base n : Nat) (hwf : Memory.wf s.mem = true) :
    BitRun base .out (fun v n => v &&& ~~~bit n) [n] s (portClearBit base .out n s) := bitRun_foldl _ _ _ _ hwf

/-- RESET_ROWS sets the bits of the rows, in ascending order (R90). -/
theorem resetRows_drivesOut {desc : Descriptor} (h : OfferedAt .output base s) (hwf : Memory.wf s.mem = true)
    (hdesc : wfDescriptor desc = true) :
    ∃ t, DrivesOut (.resetRows desc) base (fun v n => v ||| bit n) (List.range (rowsOf desc)) s t :=
  ⟨_, drivesOut_complete h rfl hdesc (by rw [execBody, portBase_accepted rfl h]) (resetRowsLoop_bitRun base _ hwf)
    (resetRowsLoop_drivesRows base _ _)⟩

/-- ASSERT_ROW_LOW clears one bit, a row's or not, and has no use of ROW (R91). -/
theorem assertRowLow_drivesOut {r : Operand} (h : OfferedAt .output base s) (hwf : Memory.wf s.mem = true) (hr : r.toNat < 8) :
    ∃ t, DrivesOut (.assertRowLow r) base (fun v n => v &&& ~~~bit n) [r.toNat] s t ∧ t.row = s.row :=
  ⟨_, drivesOut_complete h rfl (by simpa [Instr.wellFormed] using hr) (by rw [execBody, portBase_accepted rfl h])
    (portClearBit_bitRun base r.toNat hwf) rfl, rfl⟩

end RowCommands

/-! ### The bits of OUT when the rows are set -/

theorem getLsbD_setRowMask_above {v : Byte} {rows n : Nat} (hrows : rows ≤ 8) (hn : rows ≤ n) :
    (v ||| rowMask rows).getLsbD n = v.getLsbD n := by
  by_cases h8 : n < 8
  · rw [BitVec.getLsbD_or, getLsbD_rowMask hrows h8, decide_eq_false (by omega), Bool.or_false]
  · rw [BitVec.getLsbD_of_ge _ n (by simpa using h8), BitVec.getLsbD_of_ge _ n (by simpa using h8)]

theorem getLsbD_setRowMask_row {v : Byte} {rows n : Nat} (hrows : rows ≤ 8) (hn : n < rows) :
    (v ||| rowMask rows).getLsbD n = true := by
  rw [BitVec.getLsbD_or, getLsbD_rowMask hrows (by omega), decide_eq_true hn, Bool.or_true]

/-! ### The statements of the family -/

/-- Settles O29: the loop sets the bits of the row mask one by one. -/
theorem resetRowsEndState : Obligations.ResetRowsEndState := by
  intro s base desc h hwf hdesc
  obtain ⟨t, ht⟩ := resetRows_drivesOut h hwf hdesc
  exact ⟨t, ht.exec, ht.out.trans (foldl_setBit_range (rowsOf_lt desc).le _), ht.others, ht.history, ht.frame⟩

/-- Settles O30: one bit operation on OUT, and ROW as it was. -/
theorem assertRowLowClearsOneBit : Obligations.AssertRowLowClearsOneBit := by
  intro s base n h hwf hn v
  obtain ⟨t, ht, hrow⟩ := assertRowLow_drivesOut h hwf hn
  have hframe := ht.frame
  rw [ht.history, hrow] at hframe
  exact ⟨t, ht.exec, ht.out, ht.others, hframe⟩

/-- Settles O31: after the first command each bit operation of the second finds its bit as it would leave it. -/
theorem resetRowsAndAssertRowLowAreIdempotent : Obligations.ResetRowsAndAssertRowLowAreIdempotent := by
  refine ⟨fun s base desc h hwf hdesc => ?_, fun s base n h hwf hn => ?_⟩
  · have hrows := (rowsOf_lt desc).le
    obtain ⟨t, ht⟩ := resetRows_drivesOut h hwf hdesc
    obtain ⟨u, hu⟩ := resetRows_drivesOut (ht.offeredAt h) ht.wf hdesc
    have hout : t.out base = s.out base ||| rowMask (rowsOf desc) := ht.out.trans (foldl_setBit_range hrows _)
    have hset (n : Nat) (hn : n ∈ List.range (rowsOf desc)) : t.out base ||| bit n = t.out base := by
      rw [hout]
      exact setBit_eq_self (getLsbD_setRowMask_row hrows (List.mem_range.1 hn))
    obtain ⟨hout', hmem, hhist⟩ := hu.again ht.wf hset
    have habove (n : Nat) (hn : rowsOf desc ≤ n) : (u.out base).getLsbD n = (s.out base).getLsbD n :=
      (congrArg (·.getLsbD n) (hout'.trans hout)).trans (getLsbD_setRowMask_above hrows hn)
    exact ⟨t, u, ht.exec, hu.exec, hout, hout', hmem, habove, hhist⟩
  · obtain ⟨t, ht, -⟩ := assertRowLow_drivesOut h hwf hn
    obtain ⟨u, hu, -⟩ := assertRowLow_drivesOut (ht.offeredAt h) ht.wf hn
    have hclear (m : Nat) (hm : m ∈ [n.toNat]) : t.out base &&& ~~~bit m = t.out base := by
      obtain rfl := List.mem_singleton.1 hm
      rw [ht.out]
      exact clearMask_clearMask
    exact ⟨t, u, ht.exec, hu.exec, hu.again ht.wf hclear⟩

/-- Settles O32: all rows are set, then the one cleared; where DIR is 1, IN reads OUT back. -/
theorem onlyOneRowIsAsserted : Obligations.OnlyOneRowIsAsserted := by
  intro s base desc i h hwf hdesc hi
  have hrows := (rowsOf_lt desc).le
  obtain ⟨t, ht⟩ := resetRows_drivesOut h hwf hdesc
  obtain ⟨u, hu, -⟩ := assertRowLow_drivesOut (ht.offeredAt h) ht.wf (r := i) (by omega)
  have hout : u.out base = (s.out base ||| rowMask (rowsOf desc)) &&& ~~~bit i.toNat :=
    hu.out.trans (congrArg (· &&& ~~~bit i.toNat) (ht.out.trans (foldl_setBit_range hrows _)))
  have hdir : u.dir base = s.dir base := hu.dir_eq.trans ht.dir_eq
  have hrow (r : Nat) (hr : r < rowsOf desc) : (u.out base).getLsbD r = decide (r ≠ i.toNat) := by
    rw [hout, getLsbD_clearBit _ _ (by omega), getLsbD_setRowMask_row hrows hr, Bool.true_and, decide_not]
  refine ⟨t, u, ht.exec, hu.exec, hrow, fun n hn => ?_, fun r hr hd => ?_⟩
  · rw [hout, getLsbD_clearMask (getLsbD_bit_of_lt (by omega)), getLsbD_setRowMask_above hrows hn]
  · rw [← hrow r hr]
    exact (getLsbD_inView _ _ _ (by omega)).trans (if_pos (hdir ▸ hd))

end Sys2Proof.Machine
end

section
/-! PROOF. The column encoder, and READ_COLUMNS (R100, R101). -/

namespace Sys2Proof.Machine

/-! ### The column encoder -/

/-- The encoder finds the least column whose bit is 0, or no column bit is 0 (R100). -/
theorem colEnc_cases (v : Byte) (desc : Descriptor) :
    (∃ j, j < colsOf desc ∧ (colEnc v desc).toNat = j ∧ v.getLsbD (rowsOf desc + j) = false ∧
        ∀ j', j' < j → v.getLsbD (rowsOf desc + j') = true) ∨
      (colEnc v desc = 5#3 ∧ ∀ j, j < colsOf desc → v.getLsbD (rowsOf desc + j) = true) := by
  unfold colEnc
  cases h : activeColumn v desc with
  | none =>
    refine .inr ⟨rfl, ?_⟩
    simpa [activeColumn] using h
  | some j =>
    obtain ⟨hlow, hj, hbefore⟩ := List.find?_range_eq_some.1 h
    have hlt : j < colsOf desc := List.mem_range.1 hj
    have hcols := colsOf_lt desc
    refine .inl ⟨j, hlt, ?_, by simpa using hlow, by simpa using hbefore⟩
    rw [Option.getD_some, BitVec.toNat_ofNat, Nat.mod_eq_of_lt (by omega)]

/-- The encoder gives COL_SENTINEL exactly when every column reads high, 5 being no column of a legal shape (R101). -/
theorem colEnc_eq_sentinel_iff {desc : Descriptor} (h : wfDescriptor desc = true) (v : Byte) :
    colEnc v desc = 5#3 ↔ ∀ j, j < colsOf desc → v.getLsbD (rowsOf desc + j) = true := by
  obtain ⟨-, -, -, hcols⟩ := wfDescriptor_bounds h
  rcases colEnc_cases v desc with ⟨j, hj, henc, hlow, -⟩ | ⟨henc, hhigh⟩
  · have hne : colEnc v desc ≠ 5#3 := fun h5 => absurd (henc.symm.trans (congrArg BitVec.toNat h5) : j = 5) (by omega)
    exact iff_of_false hne fun hall => by simp [hall j hj] at hlow
  · exact iff_of_true henc hhigh

/-- Every column reads high exactly when the bits of the column mask are all 1 (R51). -/
theorem and_colMask_eq_iff {rows cols : Nat} (hsum : rows + cols ≤ 8) (v : Byte) :
    v &&& colMask rows cols = colMask rows cols ↔ ∀ j, j < cols → v.getLsbD (rows + j) = true := by
  have hmask {n : Nat} (hn : n < 8) := getLsbD_colMask (rows := rows) (cols := cols) (by omega) hn
  constructor
  · intro h j hj
    have hbit := congrArg (·.getLsbD (rows + j)) h
    simpa [hmask (n := rows + j) (by omega), hj] using hbit
  · intro h
    refine BitVec.eq_of_getLsbD_eq fun n hn => ?_
    rw [BitVec.getLsbD_and, hmask hn]
    by_cases hcol : rows ≤ n ∧ n < rows + cols
    · have hhigh := h (n - rows) (by omega)
      rw [Nat.add_sub_cancel' hcol.1] at hhigh
      rw [hhigh, Bool.true_and]
    · rw [decide_eq_false hcol, Bool.and_false]

/-- The encoder gives COL_SENTINEL exactly when the column bits of the table are all 1 (R51, R101). -/
theorem colEnc_eq_sentinel_iff_mask {desc : Descriptor} (h : wfDescriptor desc = true) (v : Byte) :
    colEnc v desc = 5#3 ↔ v &&& colMask (rowsOf desc) (colsOf desc) = colMask (rowsOf desc) (colsOf desc) := by
  have hshape := (legalShape_iff _ _).1 ((wfDescriptor_iff desc).1 h).2
  rw [colEnc_eq_sentinel_iff h, and_colMask_eq_iff (by omega)]

/-- The encoder looks at the column bits only (R100). -/
theorem colEnc_congr {desc : Descriptor} {v v' : Byte}
    (h : ∀ j, j < colsOf desc → v.getLsbD (rowsOf desc + j) = v'.getLsbD (rowsOf desc + j)) : colEnc v desc = colEnc v' desc := by
  have hactive : activeColumn v desc = activeColumn v' desc :=
    List.find?_congr fun j hj => by rw [h j (List.mem_range.1 hj)]
  rw [colEnc, colEnc, hactive]

/-- Settles O33: the encoder's two cases, and the column mask of each of the six descriptors. -/
theorem colEncIsLeastActiveColumn : Obligations.ColEncIsLeastActiveColumn := by
  intro v desc h
  have hmask := colEnc_eq_sentinel_iff_mask h v
  obtain ⟨-, -, -, hcols⟩ := wfDescriptor_bounds h
  refine ⟨(colEnc_cases v desc).imp_right (And.imp_left (congrArg BitVec.toNat)), by omega, ?_, ?_, ?_, ?_, ?_, ?_⟩
  all_goals
    rintro rfl
    exact hmask

/-! ### A command for a port, from its acceptance -/

section Offered

variable {i : Instr} {k : PortReg} {base : Nat} {s : State} (h : OfferedAt k base s)

include h

/-- A command with an address operand, inside its domain and offered for a port, runs from its acceptance (R23, R35). -/
theorem exec_offered (hk : addressed i = some k) (hi : i.wellFormed = true) : exec i s = execBody i (accept i s) := by
  have hoff (k' : PortReg) (hk' : addressed i = some k') : OfferedAt k' base s := Option.some.inj (hk.symm.trans hk') ▸ h
  rw [exec_eq_runCommand, runCommand_offered _ h.1 (operandRefusal_wellFormed hi) hoff]

/-- Acceptance of such a command, with the address operand latched whole (R23). -/
theorem accept_atPort : accept i s = { s with
    busy := true, done := false, cmdOp := i.op, cmdB := i.b, cmdA := i.a, cmdAddr := base + regOffset k
    phase := firstPhase i, offers := s.offers.tail } := by
  rw [← accept_cmdAddr_offered (i := i) h]
  rfl

end Offered

/-- Settles O34: the one read is that of the accepted state, which has the pins of the state offered to, and the encoder looks at the column bits
only. -/
theorem readColumnsSamplesOnce : Obligations.ReadColumnsSamplesOnce := by
  refine ⟨fun s base desc h hdesc => ?_, fun desc v v' _ => colEnc_congr⟩
  refine ⟨_, by rw [exec_offered (i := .readColumns desc) h rfl hdesc, execBody, portBase_accepted rfl h], ?_⟩
  rw [complete_some, accept_atPort h]
  rfl

end Sys2Proof.Machine
end

section
/-! PROOF. The debounce (R102 to R107): its phases one step each, the samples and events of its iterations, and the iteration that ends it. -/

namespace Sys2Proof.Machine

/-! ### The phases -/

/-- Where the debounced read goes with the value it ends with, in each of the two operations that take it (R104, R121). -/
theorem debounceExit_phase (i : Instr) (desc : Descriptor) (row c : BitVec 3) :
    (i = .readColumnsDebounced desc → debounceExit i row c = .ret (some (c.setWidth 8))) ∧
    (i = .scan desc → c.toNat < colsOf desc →
      debounceExit i row c = .ret (some (BitVec.ofNat 8 (row.toNat * colsOf desc + c.toNat)))) ∧
    (i = .scan desc → colsOf desc ≤ c.toNat → debounceExit i row c = .scReset (.rd 0)) := by
  refine ⟨?_, ?_, ?_⟩
  · rintro rfl
    rfl
  · rintro rfl hc
    exact if_pos hc
  · rintro rfl hc
    exact if_neg (Nat.not_lt.2 hc)

theorem confirmed_iff (s : State) : confirmed s = true ↔ 2 < s.matchCount.toNat := by simp [confirmed]

/-- MATCH passes the limit only after a match (R102). -/
theorem eq_of_nextMatchCount {c cand : BitVec 3} {m : BitVec 2} (h : 2 < (nextMatchCount c cand m).toNat) : c = cand := by
  by_contra hne
  simp [nextMatchCount, hne] at h

/-- Settles O9: each phase is one event, and the position after a sample goes by what MATCH and ITER hold then. -/
theorem debouncePhaseTable : Obligations.DebouncePhaseTable := by
  intro s i desc hinv hr hd hi base v c m after
  obtain rfl : desc = i.a := by rcases hi with rfl | rfl <;> rfl
  have hrun (hp : s.phase ≠ .idle) : InProgress i s := inProgress_of_latched hinv hd hp
  have hstep {p : Phase} (hp : s.phase = p) (hidle : p ≠ .idle) (hw : p = .dbWait → s.waitDone = true) : step s = .next (event i s) :=
    step_event hr (hrun (hp ▸ hidle)) (hp ▸ hw)
  refine ⟨fun hp => ?_, fun hp hw => ?_, fun hp hw => ?_, fun hp => ?_⟩
  · rw [hstep hp nofun nofun]
    simp only [event, hp]
    rfl
  · rw [hstep hp nofun fun _ => hw]
    simp only [event, hp]
    rfl
  · have h := hrun (hp ▸ nofun)
    rw [step_busy hr h.busy, eventStep_inProgress h, if_pos ⟨hp, hw⟩]
  · have hexit (value : BitVec 3) := debounceExit_phase i i.a s.row value
    have hphase : (event i s).phase = afterSample i (debounceSample base i.a s) := by simp only [event, hp]; rfl
    have hconf : confirmed (debounceSample base i.a s) = true ↔ c = s.cand ∧ 2 < m.toNat :=
      (confirmed_iff _).trans ⟨fun h => ⟨eq_of_nextMatchCount h, h⟩, And.right⟩
    rw [afterSample_eq] at hphase
    refine ⟨event i s, hstep hp nofun nofun, ?_, fun heq hm => ?_, fun hno hiter => ?_, fun hno hiter => ?_⟩
    · simp only [event, hp]
      rfl
    · rw [if_pos (hconf.2 ⟨heq, hm⟩)] at hphase
      simp only [after, hphase]
      exact hexit c
    · have hlast : (event i s).phase = debounceExit i s.row 5#3 := (hphase.trans (if_neg (mt hconf.1 hno))).trans (if_pos hiter.ge)
      simp only [after, hlast]
      exact hexit 5#3
    · exact (hphase.trans (if_neg (mt hconf.1 hno))).trans (if_neg (Nat.not_le.2 hiter))

/-! ### The samples -/

/-- What the coming reads of IN are answered from: the port registers, the environment and the draws; all else as after reset (R15, R18). -/
def State.pins (s : State) : State := { State.reset with mem := s.mem, env := s.env, draw := s.draw }

section Reads

variable {s t : State} (h : s.pins = t.pins) (base : Nat)

include h

theorem portReadIn_byte_congr : (portReadIn base s).1 = (portReadIn base t).1 := (congrArg (fun u => (portReadIn base u).1) h :)

theorem portReadIn_pins_congr : (portReadIn base s).2.pins = (portReadIn base t).2.pins :=
  (congrArg (fun u => (portReadIn base u).2.pins) h :)

theorem afterReads_pins_congr (k : Nat) : (afterReads base k s).pins = (afterReads base k t).pins := by
  induction k generalizing s t with
  | zero => exact h
  | succ k ih => exact ih (portReadIn_pins_congr h base)

theorem nthByte_congr : nthByte base s = nthByte base t :=
  funext fun k => portReadIn_byte_congr (afterReads_pins_congr h base k) base

theorem nthRead_congr (desc : Descriptor) : nthRead base desc s = nthRead base desc t :=
  funext fun k => congrArg (colEnc · desc) (congrFun (nthByte_congr h base) k)

theorem debounceTrace_congr (k : Nat) : debounceTrace base s k = debounceTrace base t k := by
  rw [debounceTrace, debounceTrace, nthByte_congr h base]

end Reads

/-- One more read is made after those before it. -/
theorem afterReads_succ (base k : Nat) (s : State) : afterReads base (k + 1) s = (portReadIn base (afterReads base k s)).2 := by
  induction k generalizing s with
  | zero => rfl
  | succ k ih => exact ih _

section Iterations

variable (base : Nat) (desc : Descriptor) (s : State)

/-- After `k` iterations `k + 1` reads of IN are made, and nothing else is done to the pins (R102). -/
theorem afterIterations_pins (k : Nat) : (afterIterations base desc k s).pins = (afterReads base (k + 1) s).pins := by
  induction k with
  | zero => rfl
  | succ k ih =>
    rw [afterReads_succ]
    exact portReadIn_pins_congr (s := debounceWait _) ih base

/-- The byte sampled in the next iteration (R103). -/
theorem afterIterations_sample (k : Nat) :
    (portReadIn base (debounceWait (afterIterations base desc k s))).1 = nthByte base s (k + 1) :=
  portReadIn_byte_congr (s := debounceWait _) (afterIterations_pins base desc s k) base

/-- The candidate is the last sample (R102). -/
theorem afterIterations_cand (k : Nat) : (afterIterations base desc k s).cand = nthRead base desc s k := by
  cases k with
  | zero => rfl
  | succ k => exact congrArg (colEnc · desc) (afterIterations_sample base desc s k)

/-- MATCH counts the samples equal to the one before (R102). -/
theorem afterIterations_matchCount_succ (k : Nat) : (afterIterations base desc (k + 1) s).matchCount =
    nextMatchCount (nthRead base desc s (k + 1)) (nthRead base desc s k) (afterIterations base desc k s).matchCount :=
  congrArg₂ (nextMatchCount · · (afterIterations base desc k s).matchCount)
    (afterIterations_cand base desc s (k + 1)) (afterIterations_cand base desc s k)

/-! ### The events -/

theorem debounceTrace_succ (k : Nat) : debounceTrace base s (k + 1) =
    debounceTrace base s k ++ [.wait Config.debounceIntervalUs, .read (inAddr base) (nthByte base s (k + 1))] := by
  simp [debounceTrace, List.range_succ]

/-- The reads and waits of the iterations, strictly alternating (R103). -/
theorem afterIterations_history (k : Nat) :
    (afterIterations base desc k s).history = (debounceTrace base s k).reverse ++ s.history := by
  induction k with
  | zero => rfl
  | succ k ih =>
    rw [debounceTrace_succ, List.reverse_append, List.append_assoc, ← ih, ← afterIterations_sample base desc s k]
    rfl

theorem countReads_debounceTrace (k : Nat) : countReads (debounceTrace base s k) = k + 1 := by
  induction k with
  | zero => rfl
  | succ k ih =>
    rw [debounceTrace_succ, countReads, List.countP_append]
    exact congrArg (· + 1) ih

theorem countWaits_debounceTrace (k : Nat) : countWaits (debounceTrace base s k) = k := by
  induction k with
  | zero => rfl
  | succ k ih =>
    rw [debounceTrace_succ, countWaits, List.countP_append]
    exact congrArg (· + 1) ih

end Iterations

/-! ### Runs of equal samples -/

/-- The run of equal samples that ends at sample `k` has `m + 1` of them (R105). -/
structure RunEnding (f : Nat → BitVec 3) (k m : Nat) : Prop where
  le : m ≤ k
  same : ∀ j, j < m → f (k - j) = f (k - j - 1)
  broken : m < k → f (k - m) ≠ f (k - m - 1)

section Runs

variable {f : Nat → BitVec 3} {k m : Nat}

theorem runEnding_first (f : Nat → BitVec 3) : RunEnding f 0 0 := ⟨le_rfl, nofun, nofun⟩

/-- A sample equal to the one before makes the run one longer. -/
theorem RunEnding.extend (h : RunEnding f k m) (heq : f (k + 1) = f k) : RunEnding f (k + 1) (m + 1) where
  le := Nat.succ_le_succ h.le
  same j hj := by
    cases j with
    | zero => exact heq
    | succ j => rw [Nat.add_sub_add_right]; exact h.same j (by omega)
  broken hm := by rw [Nat.add_sub_add_right]; exact h.broken (by omega)

/-- A sample that differs from the one before starts a new run. -/
theorem RunEnding.restart (hne : f (k + 1) ≠ f k) : RunEnding f (k + 1) 0 := ⟨Nat.zero_le _, nofun, fun _ => hne⟩

theorem runOfFour_iff (f : Nat → BitVec 3) (k : Nat) :
    runOfFour f k = true ↔ 3 ≤ k ∧ f k = f (k - 1) ∧ f (k - 1) = f (k - 2) ∧ f (k - 2) = f (k - 3) := by
  simp [runOfFour, and_assoc]

theorem runOfFour_of_lt (f : Nat → BitVec 3) (h : k < 3) : runOfFour f k = false := by
  rw [Bool.eq_false_iff, Ne, runOfFour_iff]
  omega

/-- The last four samples are equal exactly when the run they end has four at least. -/
theorem RunEnding.runOfFour_iff (h : RunEnding f k m) : runOfFour f k = true ↔ 3 ≤ m := by
  rw [Machine.runOfFour_iff]
  constructor
  · rintro ⟨hk, h0, h1, h2⟩
    by_contra hm
    have hbroken := h.broken (by omega)
    obtain rfl | rfl | rfl : m = 0 ∨ m = 1 ∨ m = 2 := by omega
    · exact hbroken h0
    · exact hbroken h1
    · exact hbroken h2
  · intro hm
    exact ⟨hm.trans h.le, h.same 0 (by omega), h.same 1 (by omega), h.same 2 (by omega)⟩

end Runs

/-- Until a run of four is complete MATCH is the length of the run at the last sample, less 1, and has not wrapped round (R105). -/
theorem afterIterations_runEnding (base : Nat) (desc : Descriptor) (s : State) {k : Nat}
    (hno : ∀ j, j < k → runOfFour (nthRead base desc s) j = false) :
    RunEnding (nthRead base desc s) k (afterIterations base desc k s).matchCount.toNat := by
  induction k with
  | zero => exact runEnding_first _
  | succ k ih =>
    have hrun := ih fun j hj => hno j (by omega)
    have hshort : ¬ 3 ≤ (afterIterations base desc k s).matchCount.toNat := by
      rw [← hrun.runOfFour_iff, hno k (Nat.lt_succ_self k)]
      simp
    rw [afterIterations_matchCount_succ, nextMatchCount]
    split
    · have hcount := hrun.extend ‹_›
      rwa [BitVec.toNat_add, BitVec.toNat_ofNat, Nat.mod_eq_of_lt (by simp; omega)]
    · exact .restart ‹_›

/-! ### The iteration that ends the read -/

/-- The debounced read of the samples `f` ends after iteration `k`: there the first run of four is complete, or the iterations are used up (R105). -/
structure EndsAt (f : Nat → BitVec 3) (k : Nat) : Prop where
  le : k ≤ 10
  before : ∀ j, j < k → runOfFour f j = false
  stop : runOfFour f k = true ∨ k = 10

/-- The value with which it ends there (R102). -/
def endValue (f : Nat → BitVec 3) (k : Nat) : BitVec 3 := if runOfFour f k then f k else 5#3

section End

variable {f : Nat → BitVec 3} {k k' : Nat}

/-- No sample before the fourth ends the read (R103). -/
theorem EndsAt.ge (h : EndsAt f k) : 3 ≤ k := by
  rcases h.stop with hrun | rfl
  · exact ((runOfFour_iff f k).1 hrun).1
  · omega

/-- It ends at the earliest run of four among the first eleven samples (R105). -/
theorem EndsAt.eq_of_earliest (h : EndsAt f k) (hk' : k' ≤ 10) (hrun : runOfFour f k' = true) (hno : ∀ j, j < k' → runOfFour f j = false) :
    k = k' := by
  rcases Nat.lt_trichotomy k k' with hlt | heq | hgt
  · exact absurd (h.stop.resolve_left (by simp [hno k hlt])) (by omega)
  · exact heq
  · simp [h.before k' hgt] at hrun

/-- With no run of four among the first eleven samples it ends after the last (R105). -/
theorem EndsAt.eq_ten (h : EndsAt f k) (hno : ∀ j, j ≤ 10 → runOfFour f j = false) : k = 10 :=
  h.stop.resolve_left (by simp [hno k h.le])

end End

section DebouncedRead

variable (base : Nat) (desc : Descriptor) (s : State)

/-- The sample of iteration `k` confirms its value exactly when it completes a run of four, no sample before having done so (R105). -/
theorem confirmed_afterIterations {k : Nat} (hno : ∀ j, j < k → runOfFour (nthRead base desc s) j = false) :
    confirmed (afterIterations base desc k s) = runOfFour (nthRead base desc s) k := by
  rw [Bool.eq_iff_iff, confirmed_iff, (afterIterations_runEnding base desc s hno).runOfFour_iff]
  rfl

/-- The `n` iterations left after iteration `k`, none having confirmed a value (R102). -/
theorem debounceLoop_endsAt {n k : Nat} (hn : k + n = 10) (hno : ∀ j, j ≤ k → runOfFour (nthRead base desc s) j = false) :
    ∃ k', EndsAt (nthRead base desc s) k' ∧ debounceLoop base desc n (afterIterations base desc k s) =
      (endValue (nthRead base desc s) k', afterIterations base desc k' s) := by
  induction n generalizing k with
  | zero =>
    refine ⟨k, ⟨by omega, fun j hj => hno j hj.le, .inr hn⟩, ?_⟩
    rw [endValue, hno k le_rfl]
    rfl
  | succ n ih =>
    have hbefore (j : Nat) (hj : j < k + 1) := hno j (by omega)
    have hloop : debounceLoop base desc (n + 1) (afterIterations base desc k s) =
        if runOfFour (nthRead base desc s) (k + 1) then (nthRead base desc s (k + 1), afterIterations base desc (k + 1) s)
        else debounceLoop base desc n (afterIterations base desc (k + 1) s) := by
      rw [← confirmed_afterIterations base desc s hbefore, ← afterIterations_cand]
      rfl
    rw [hloop]
    cases hrun : runOfFour (nthRead base desc s) (k + 1) with
    | true => exact ⟨k + 1, ⟨by omega, hbefore, .inl hrun⟩, by simp [endValue, hrun]⟩
    | false =>
      refine ih (by omega) fun j hj => ?_
      rcases Nat.lt_or_eq_of_le hj with hlt | rfl
      · exact hbefore j hlt
      · exact hrun

/-- The debounced read ends with a value, after an iteration, that its samples decide (R105). -/
theorem debounced_endsAt : ∃ k, EndsAt (nthRead base desc s) k ∧
    debounced base desc s = (endValue (nthRead base desc s) k, afterIterations base desc k s) :=
  debounceLoop_endsAt base desc s (k := 0) rfl fun _ hj => runOfFour_of_lt _ (by omega)

end DebouncedRead

/-! ### READ_COLUMNS_DEBOUNCED as a command -/

/-- The state READ_COLUMNS_DEBOUNCED completes in, accepted in `s` and ended after iteration `k` (R23, R24, R102). -/
def debouncedEnd (base : Nat) (desc : Descriptor) (s : State) (k : Nat) : State :=
  complete (some ((endValue (nthRead base desc s) k).setWidth 8))
    (afterIterations base desc k (accept (.readColumnsDebounced desc) s))

section Command

variable {s : State} {base : Nat} {desc : Descriptor}

/-- Acceptance leaves the pins alone (R23). -/
theorem accept_pins (i : Instr) (s : State) : (accept i s).pins = s.pins := rfl

/-- The samples after an acceptance are those of the state the command is offered to. -/
theorem nthRead_accept (i : Instr) : nthRead base desc (accept i s) = nthRead base desc s := nthRead_congr (accept_pins i s) base desc

theorem exec_readColumnsDebounced (h : OfferedAt .input base s) (hdesc : wfDescriptor desc = true) (hw : s.waitDone = true) :
    exec (.readColumnsDebounced desc) s =
      .next (complete (some ((debounced base desc (accept (.readColumnsDebounced desc) s)).1.setWidth 8))
        (debounced base desc (accept (.readColumnsDebounced desc) s)).2) := by
  rw [exec_offered (i := .readColumnsDebounced desc) h rfl hdesc, execBody, portBase_accepted rfl h]
  exact if_pos hw

/-- The command ends where the samples of the state it is offered to decide (R105). -/
theorem exec_readColumnsDebounced_endsAt (h : OfferedAt .input base s) (hdesc : wfDescriptor desc = true) (hw : s.waitDone = true) :
    ∃ k, EndsAt (nthRead base desc s) k ∧ exec (.readColumnsDebounced desc) s = .next (debouncedEnd base desc s k) := by
  obtain ⟨k, hends, hval⟩ := debounced_endsAt base desc (accept (.readColumnsDebounced desc) s)
  rw [nthRead_accept] at hends hval
  exact ⟨k, hends, by rw [exec_readColumnsDebounced h hdesc hw, hval]; rfl⟩

theorem debouncedEnd_history (k : Nat) : (debouncedEnd base desc s k).history =
    .ret (some (debouncedEnd base desc s k).result) :: (debounceTrace base s k).reverse ++ s.history := by
  have hhist := afterIterations_history base desc (accept (.readColumnsDebounced desc) s) k
  rw [debounceTrace_congr (accept_pins _ s)] at hhist
  exact congrArg (_ :: ·) hhist

theorem debouncedEnd_countReads (k : Nat) :
    countReads (.ret (some (debouncedEnd base desc s k).result) :: (debounceTrace base s k).reverse) = k + 1 := by
  have hcount := countReads_debounceTrace base s k
  rwa [countReads, ← List.countP_reverse] at hcount

theorem debouncedEnd_result_run {k : Nat} (hrun : runOfFour (nthRead base desc s) k = true) :
    (debouncedEnd base desc s k).result = (nthRead base desc s k).setWidth 8 := by
  change (endValue (nthRead base desc s) k).setWidth 8 = _
  rw [endValue, if_pos hrun]

theorem debouncedEnd_result_noRun {k : Nat} (hrun : runOfFour (nthRead base desc s) k = false) :
    (debouncedEnd base desc s k).result = 5#8 := by
  change (endValue (nthRead base desc s) k).setWidth 8 = _
  rw [endValue, hrun]
  rfl

/-- MATCH after iteration `k` of the accepted command, by the samples of the state it is offered to (R105). -/
theorem accepted_runEnding {k : Nat} (hno : ∀ j, j < k → runOfFour (nthRead base desc s) j = false) :
    RunEnding (nthRead base desc s) k (afterIterations base desc k (accept (.readColumnsDebounced desc) s)).matchCount.toNat := by
  rw [← nthRead_accept (.readColumnsDebounced desc)] at hno ⊢
  exact afterIterations_runEnding base desc _ hno

end Command

/-- Settles O35: the debounced read is a sampling of the accepted state, and its value a column result. -/
theorem debouncedReadCompletesAndWritesNothing : Obligations.DebouncedReadCompletesAndWritesNothing := by
  intro s base desc h hdesc hw
  refine ⟨_, exec_readColumnsDebounced h hdesc hw, (debounced_isColumnResult base desc _).setWidth, ?_⟩
  rw [complete_some, debounced_sampled, accept_atPort h]
  rfl

/-- Settles O36: the read ends at the earliest run of four, or after the last iteration. -/
theorem debouncedReadReturnsEarliestRunOfFour : Obligations.DebouncedReadReturnsEarliestRunOfFour := by
  intro s base desc h hdesc hw f
  obtain ⟨k, hends, hexec⟩ := exec_readColumnsDebounced_endsAt h hdesc hw
  refine ⟨⟨_, _, hexec, debouncedEnd_history k, fun k' hk' hrun hno => ?_, fun hno => ?_⟩, fun k' _ hno => ?_⟩
  · obtain rfl := hends.eq_of_earliest hk' hrun hno
    exact ⟨debouncedEnd_result_run hrun, debouncedEnd_countReads k⟩
  · obtain rfl := hends.eq_ten hno
    exact ⟨debouncedEnd_result_noRun (hno 10 le_rfl), debouncedEnd_countReads 10⟩
  · obtain ⟨hle, hsame, hbroken⟩ := accepted_runEnding hno
    exact ⟨Nat.le_of_lt_succ (BitVec.isLt _), hle, hsame, hbroken⟩

/-- Settles O37: the events are those of the iterations made, the last the third at least. -/
theorem debouncedReadAlternatesReadsAndWaits : Obligations.DebouncedReadAlternatesReadsAndWaits := by
  intro s base desc h hdesc hw
  obtain ⟨k, hends, hexec⟩ := exec_readColumnsDebounced_endsAt h hdesc hw
  exact ⟨_, k, hexec, hends.ge, hends.le, debouncedEnd_history k, countReads_debounceTrace base s k, countWaits_debounceTrace base s k,
    fun hno => hends.stop.resolve_left (by simp [hno])⟩

/-- Settles O38: the first four samples are the earliest run of four there can be, and samples that change each time make no run at all. -/
theorem stableFourConfirmsAndChangingNeverSettles : Obligations.StableFourConfirmsAndChangingNeverSettles := by
  intro s base desc h hdesc hw f
  obtain ⟨k, hends, hexec⟩ := exec_readColumnsDebounced_endsAt h hdesc hw
  refine ⟨_, _, hexec, debouncedEnd_history k, fun h1 h2 h3 => ?_, fun hchange => ?_⟩
  · have hrun : runOfFour f 3 = true := (runOfFour_iff f 3).2 ⟨le_rfl, h3.trans h2.symm, h2.trans h1.symm, h1⟩
    obtain rfl := hends.eq_of_earliest (by omega) hrun fun j hj => runOfFour_of_lt f hj
    exact ⟨(debouncedEnd_result_run hrun).trans (congrArg _ h3), debouncedEnd_countReads 3⟩
  · have hno (j : Nat) (hj : j ≤ 10) : runOfFour f j = false := by
      rw [Bool.eq_false_iff, Ne, runOfFour_iff]
      rintro ⟨h3, heq, -⟩
      exact hchange j (by omega) hj heq
    obtain rfl := hends.eq_ten hno
    refine ⟨debouncedEnd_result_noRun (hno 10 le_rfl), debouncedEnd_countReads 10, fun j hj => ?_⟩
    have hrun : RunEnding f j _ := accepted_runEnding fun x hx => hno x (by omega)
    refine BitVec.eq_of_toNat_eq (Nat.eq_zero_of_not_pos fun hpos => ?_)
    exact hchange j (hpos.trans_le hrun.le) hj (hrun.same 0 hpos)

end Sys2Proof.Machine
end

section
/-! PROOF. The key index and the key sentinel as numbers (R8, R123, R126). -/

namespace Sys2Proof.Machine

/-- Row-major indices of the keys of a shape are below the number of keys (R126). -/
theorem linearIndex_lt {rows cols i c : Nat} (hi : i < rows) (hc : c < cols) : i * cols + c < rows * cols :=
  calc i * cols + c
    _ < (i + 1) * cols := by rw [Nat.succ_mul]; omega
    _ ≤ rows * cols := Nat.mul_le_mul_right _ hi

section Keys

variable {desc : Descriptor} (hdesc : wfDescriptor desc = true)

include hdesc

/-- The key index of a key of the shape does not wrap round (R8, R126). -/
theorem toNat_keyIndex {i c : Nat} (hi : i < rowsOf desc) (hc : c < colsOf desc) : (keyIndex desc i c).toNat = i * colsOf desc + c := by
  have hlt := linearIndex_lt hi hc
  have hcount := keyCount_le_of_wf hdesc
  exact (BitVec.toNat_ofNat _ _).trans (Nat.mod_eq_of_lt (by simp; omega))

/-- KEY_SENTINEL does not wrap round (R8, R123). -/
theorem toNat_keySentinel : (keySentinel desc).toNat = rowsOf desc * colsOf desc := by
  have hcount := keyCount_le_of_wf hdesc
  exact (BitVec.toNat_ofNat _ _).trans (Nat.mod_eq_of_lt (by simp; omega))

end Keys

/-- Settles O44: row and column are the quotient and the remainder by the number of columns. -/
theorem keyIndexIsABijection : Obligations.KeyIndexIsABijection := by
  intro desc hdesc
  obtain ⟨-, -, hcols, -⟩ := wfDescriptor_bounds hdesc
  constructor
  · intro i c hi hc n
    have hn : n = i * colsOf desc + c := toNat_keyIndex hdesc hi hc
    have hlt := linearIndex_lt hi hc
    have hcount := keyCount_le_of_wf hdesc
    refine ⟨hn, by omega, by omega, ?_, ?_⟩
    · rw [hn, Nat.add_comm, Nat.add_mul_div_right _ _ (by omega), Nat.div_eq_of_lt hc, Nat.zero_add]
    · rw [hn, Nat.mul_add_mod', Nat.mod_eq_of_lt hc]
  · intro n hn
    have hrow : n / colsOf desc < rowsOf desc := Nat.div_lt_of_lt_mul (Nat.mul_comm _ _ ▸ hn)
    have hcol : n % colsOf desc < colsOf desc := Nat.mod_lt _ (by omega)
    exact ⟨_, _, hrow, hcol, (toNat_keyIndex hdesc hrow hcol).trans (Nat.div_add_mod' _ _)⟩

end Sys2Proof.Machine
end

section
/-! PROOF. The scan row by row: the states it passes, the row that ends it, and the command (R120, R124). -/

namespace Sys2Proof.Machine

/-- The state in which SCAN, accepted in `s`, comes to row `i` with all rows reset, the rows before it having given no valid column (R120). -/
def scanRowStart (base : Nat) (desc : Descriptor) (s : State) : Nat → State
  | 0 => scanResetRows base (rowsOf desc) s
  | i + 1 => scanResetRows base (rowsOf desc) (debounced base desc (scanRowState base desc s i)).2

/-- The debounced read SCAN, accepted in `s`, makes in row `i` (R120). -/
def scanRowRead (base : Nat) (desc : Descriptor) (s : State) (i : Nat) : BitVec 3 × State :=
  debounced base desc (scanRowState base desc s i)

section Rows

variable (base : Nat) (desc : Descriptor) (s : State)

/-- Row `i` is asserted in the state in which the scan comes to it. -/
theorem scanRowState_eq (i : Nat) : scanRowState base desc s i = scanAssertRow base i (scanRowStart base desc s i) := by
  cases i <;> rfl

/-- The rows are reset after a row that gave no valid column. -/
theorem scanRowStart_succ (i : Nat) :
    scanRowStart base desc s (i + 1) = scanResetRows base (rowsOf desc) (scanRowRead base desc s i).2 := rfl

/-- The scan's loop at row `i`: a valid column ends it, any other value takes it to the next row (R120). -/
theorem scanRows_start (n i : Nat) : scanRows base desc (n + 1) i (scanRowStart base desc s i) =
    if (scanRowRead base desc s i).1.toNat < colsOf desc then
      (keyIndex desc i (scanRowRead base desc s i).1.toNat, (scanRowRead base desc s i).2)
    else scanRows base desc n (i + 1) (scanRowStart base desc s (i + 1)) := by
  rw [scanRowStart_succ, scanRowRead, scanRowState_eq]
  rfl

/-- How the scan ends (R120, R124): in the first row whose debounced read is a column, or after the last row when there is none. -/
inductive ScanEnds : Operand × State → Prop
  | key (i : Nat) (row : i < rowsOf desc) (column : (scanRowRead base desc s i).1.toNat < colsOf desc)
    (before : ∀ j, j < i → colsOf desc ≤ (scanRowRead base desc s j).1.toNat) :
    ScanEnds (keyIndex desc i (scanRowRead base desc s i).1.toNat, (scanRowRead base desc s i).2)
  | none (all : ∀ j, j < rowsOf desc → colsOf desc ≤ (scanRowRead base desc s j).1.toNat) :
    ScanEnds (keySentinel desc, scanRowStart base desc s (rowsOf desc))

theorem scanRows_ends {n i : Nat} (hn : i + n = rowsOf desc)
    (hbefore : ∀ j, j < i → colsOf desc ≤ (scanRowRead base desc s j).1.toNat) :
    ScanEnds base desc s (scanRows base desc n i (scanRowStart base desc s i)) := by
  induction n generalizing i with
  | zero =>
    obtain rfl : i = rowsOf desc := hn
    exact .none hbefore
  | succ n ih =>
    rw [scanRows_start]
    split
    · exact .key i (by omega) ‹_› hbefore
    · refine ih (by omega) fun j hj => ?_
      rcases Nat.lt_or_eq_of_le (Nat.le_of_lt_succ hj) with hlt | rfl
      · exact hbefore j hlt
      · exact Nat.not_lt.1 ‹_›

theorem scanKeys_ends : ScanEnds base desc s (scanKeys base desc s) := scanRows_ends base desc s (Nat.zero_add _) nofun

end Rows

/-- A SCAN offered for a port completes as the scan of its accepted state ends, if every wait ends (R120, R139). -/
theorem exec_scan {base : Nat} {desc : Descriptor} {s : State} (h : OfferedAt .direction base s) (hdesc : wfDescriptor desc = true)
    (hw : s.waitDone = true) :
    ∃ r, ScanEnds base desc (accept (.scan desc) s) r ∧ exec (.scan desc) s = .next (complete (some r.1) r.2) := by
  refine ⟨_, scanKeys_ends base desc _, ?_⟩
  rw [exec_offered (i := .scan desc) h rfl hdesc, execBody, portBase_accepted rfl h]
  exact if_pos hw

/-- Settles O40: the row that ends the scan is the only first one there can be. -/
theorem scanReportsFirstRowWithColumn : Obligations.ScanReportsFirstRowWithColumn := by
  intro s base desc h hdesc hw value
  obtain ⟨r, hends, hexec⟩ := exec_scan h hdesc hw
  refine ⟨_, hexec, ?_⟩
  rw [complete_result, Option.getD_some]
  cases hends with
  | key i hi hc hbefore =>
    refine ⟨fun i' _ hc' hbefore' => ?_, fun hall => absurd (hall i hi) (Nat.not_le.2 hc)⟩
    rcases Nat.lt_trichotomy i i' with hlt | rfl | hgt
    · exact absurd (hbefore' i hlt) (Nat.not_le.2 hc)
    · exact toNat_keyIndex hdesc hi hc
    · exact absurd (hbefore i' hgt) (Nat.not_le.2 hc')
  | none hall => exact ⟨fun i hi hc _ => absurd (hall i hi) (Nat.not_le.2 hc), fun _ => toNat_keySentinel hdesc⟩

end Sys2Proof.Machine
end

section
/-! PROOF. The port registers during a scan, and the end state of SCAN (R122). -/

namespace Sys2Proof.Machine

/-- DIR and OUT of the port at `base` hold `dir` and `out`, and memory is in canonical form. -/
structure PortHolds (base : Nat) (dir out : Byte) (t : State) : Prop where
  wf : Memory.wf t.mem = true
  dir : t.dir base = dir
  out : t.out base = out

/-- A row's bit cleared among the rows' bits set, and set again with them (R90, R91). -/
theorem clearRow_setRowMask {rows i : Nat} (hrows : rows ≤ 8) (hi : i < rows) (v : Byte) :
    (v ||| rowMask rows) &&& ~~~bit i ||| rowMask rows = v ||| rowMask rows := by
  refine BitVec.eq_of_getLsbD_eq fun n hn => ?_
  by_cases hrow : n < rows
  · rw [getLsbD_setRowMask_row hrows hrow, getLsbD_setRowMask_row hrows hrow]
  · rw [getLsbD_setRowMask_above hrows (by omega), getLsbD_clearMask (getLsbD_bit_of_lt (by omega))]

/-- Bytes that are the same once a mask is set are the same outside it. -/
theorem outside_eq_of_setMask_eq {v w m : Byte} (h : w ||| m = v ||| m) : w &&& ~~~m = v &&& ~~~m := by
  have houtside (x : Byte) : x &&& ~~~m = (x ||| m) &&& ~~~m := by
    ext n hn
    cases hm : m[n] <;> simp [hm]
  rw [houtside w, h, ← houtside v]

section Steps

variable {base : Nat} {dir out : Byte} {t : State} (h : PortHolds base dir out t)

include h

/-- A run of bit operations on OUT. -/
theorem PortHolds.bitRun {f : Byte → Nat → Byte} {bits : List Nat} {u : State} (hrun : BitRun base .out f bits t u) :
    PortHolds base dir (bits.foldl f out) u :=
  ⟨hrun.wf, (hrun.others _ (storedAddr_ne base)).trans h.dir, hrun.register.trans (congrArg (bits.foldl f) h.out)⟩

theorem PortHolds.scanResetRows {rows : Nat} (hrows : rows ≤ 8) :
    PortHolds base dir (out ||| rowMask rows) (scanResetRows base rows t) := by
  rw [← foldl_setBit_range hrows]
  exact h.bitRun (bitLoop_bitRun (f := fun v n => v ||| bit n) (prep := fun _ => id) rows h.wf fun _ _ => ⟨rfl, rfl⟩)

theorem PortHolds.scanAssertRow (i : Nat) : PortHolds base dir (out &&& ~~~bit i) (scanAssertRow base i t) :=
  PortHolds.bitRun (t := t.setRow i) ⟨h.wf, h.dir, h.out⟩ (portClearBit_bitRun base i h.wf)

/-- The debounced read writes no port register (R102). -/
theorem PortHolds.debounced (desc : Descriptor) : PortHolds base dir out (debounced base desc t).2 := by
  rw [debounced_sampled]
  exact ⟨h.wf, h.dir, h.out⟩

end Steps

section Rows

variable (base : Nat) (desc : Descriptor) {s : State} (hwf : Memory.wf s.mem = true) {i : Nat}

include hwf

/-- When the scan comes to a row, or to its end, the rows' bits of OUT are set (R120). -/
theorem scanRowStart_portHolds (hi : i ≤ rowsOf desc) :
    PortHolds base (s.dir base) (s.out base ||| rowMask (rowsOf desc)) (scanRowStart base desc s i) := by
  have hrows := (rowsOf_lt desc).le
  induction i with
  | zero => exact PortHolds.scanResetRows ⟨hwf, rfl, rfl⟩ hrows
  | succ i ih =>
    rw [scanRowStart_succ, scanRowRead, scanRowState_eq, ← clearRow_setRowMask hrows hi]
    exact (((ih (by omega)).scanAssertRow i).debounced desc).scanResetRows hrows

/-- While the scan reads a row, its bit of OUT alone is cleared among the rows' (R120). -/
theorem scanRowState_portHolds (hi : i < rowsOf desc) :
    PortHolds base (s.dir base) ((s.out base ||| rowMask (rowsOf desc)) &&& ~~~bit i) (scanRowState base desc s i) := by
  rw [scanRowState_eq]
  exact (scanRowStart_portHolds base desc hwf hi.le).scanAssertRow i

theorem scanRowRead_portHolds (hi : i < rowsOf desc) :
    PortHolds base (s.dir base) ((s.out base ||| rowMask (rowsOf desc)) &&& ~~~bit i) (scanRowRead base desc s i).2 :=
  (scanRowState_portHolds base desc hwf hi).debounced desc

end Rows

/-- RESULT and OUT when the scan ends: the row that gave a column is still asserted, and with no such row all rows are reset (R122). -/
theorem ScanEnds.result_and_out {base : Nat} {desc : Descriptor} {s : State} {r : Operand × State} (hends : ScanEnds base desc s r)
    (hdesc : wfDescriptor desc = true) (hwf : Memory.wf s.mem = true) :
    (∃ i c, i < rowsOf desc ∧ c < colsOf desc ∧ r.1.toNat = i * colsOf desc + c ∧
        r.2.out base = (s.out base ||| rowMask (rowsOf desc)) &&& ~~~bit i) ∨
      (r.1.toNat = rowsOf desc * colsOf desc ∧ r.2.out base = s.out base ||| rowMask (rowsOf desc)) := by
  cases hends with
  | key i hi hc => exact .inl ⟨i, _, hi, hc, toNat_keyIndex hdesc hi hc, (scanRowRead_portHolds base desc hwf hi).out⟩
  | none => exact .inr ⟨toNat_keySentinel hdesc, (scanRowStart_portHolds base desc hwf le_rfl).out⟩

section Command

variable {s t : State} {base : Nat} {desc : Descriptor} (h : OfferedAt .direction base s) (hexec : exec (.scan desc) s = .next t)

include h hexec

/-- SCAN changes no register but those of R122, the offers (log entry 8) and the mark that RESULT holds a value (log entry 6). -/
theorem exec_scan_frame : t = { s with
    mem := t.mem, history := t.history, env := t.env, draw := t.draw
    row := t.row, col := t.col, sample := t.sample, cand := t.cand, matchCount := t.matchCount, iter := t.iter
    result := t.result, resultHeld := true, done := true, busy := false, phase := .idle
    cmdOp := 8#4, cmdAddr := base, cmdA := desc, cmdB := 0#8, offers := s.offers.tail } := by
  obtain ⟨u, v, draw, ⟨es, hu⟩, hv, ht⟩ := exec_ends h.1 hexec
  obtain ⟨x, rfl⟩ := Option.isSome_iff_exists.1 (hv.trans rfl)
  rw [ht, hu, complete_some, accept_atPort h]
  rfl

/-- Of memory, SCAN changes OUT of its port only (R35). -/
theorem exec_scan_others (hwf : Memory.wf s.mem = true) {a : Nat} (ha : a ≠ base + 1) : Memory.get t.mem a = Memory.get s.mem a := by
  obtain ⟨hothers, -, hdir⟩ := memoryChangesOnlyAtThePort _ s t hwf hexec
  rw [portBase_offered rfl h] at hothers hdir
  by_cases had : a = base
  · subst had
    exact hdir (by simp [Instr.op])
  · exact hothers a had ha

end Command

/-- Settles O39: the bits outside the row mask are as they were, since the row asserted is one of the mask. -/
theorem scanEndState : Obligations.ScanEndState := by
  intro s base desc h hwf hdesc hw rowmask
  obtain ⟨r, hends, hexec⟩ := exec_scan h hdesc hw
  have hend := hends.result_and_out hdesc hwf
  refine ⟨_, hexec, hend, outside_eq_of_setMask_eq ?_, exec_scan_others h hexec hwf (Nat.ne_of_lt (Nat.lt_succ_self base)),
    fun a => exec_scan_others h hexec hwf, exec_scan_frame h hexec⟩
  rcases hend with ⟨i, -, hi, -, -, hout⟩ | ⟨-, hout⟩
  · exact (congrArg (· ||| rowmask) hout).trans (clearRow_setRowMask (rowsOf_lt desc).le hi _)
  · exact (congrArg (· ||| rowmask) hout).trans (by rw [BitVec.or_assoc]; exact congrArg _ (BitVec.or_self))

end Sys2Proof.Machine
end

section
/-! PROOF. The numbers of SCAN's port accesses and waits (R125). -/

namespace Sys2Proof.Machine

theorem countReads_append (es es' : List Event) : countReads (es ++ es') = countReads es + countReads es' := List.countP_append
theorem countWrites_append (es es' : List Event) : countWrites (es ++ es') = countWrites es + countWrites es' := List.countP_append
theorem countWaits_append (es es' : List Event) : countWaits (es ++ es') = countWaits es + countWaits es' := List.countP_append

/-- Between `s` and `t` there are `accesses` reads and writes of port registers, and `waits` waits. -/
def Makes (accesses waits : Nat) (s t : State) : Prop :=
  ∃ es, t.history = es ++ s.history ∧ countReads es + countWrites es = accesses ∧ countWaits es = waits

theorem Makes.trans {a a' w w' : Nat} {s t u : State} (h : Makes a w s t) (h' : Makes a' w' t u) : Makes (a + a') (w + w') s u := by
  obtain ⟨es, hes, ha, hw⟩ := h
  obtain ⟨es', hes', ha', hw'⟩ := h'
  refine ⟨es' ++ es, by rw [hes', hes, List.append_assoc], ?_, ?_⟩
  · rw [countReads_append, countWrites_append]
    omega
  · rw [countWaits_append]
    omega

/-- A bit operation is one read and one write (R33, R34). -/
theorem bitOp_makes (base : Nat) (k : StoredReg) (f : Byte → Byte) (s : State) : Makes 2 0 s (bitOp base k f s) := ⟨[_, _], rfl, rfl, rfl⟩

theorem scanAssertRow_makes (base row : Nat) (s : State) : Makes 2 0 s (scanAssertRow base row s) :=
  bitOp_makes base .out (· &&& ~~~bit row) (s.setRow row)

theorem scanResetRows_makes (base rows : Nat) (s : State) : Makes (2 * rows) 0 s (scanResetRows base rows s) :=
  forEach_induct (P := fun i t => Makes (2 * i) 0 s t) rows ⟨[], rfl, rfl, rfl⟩ fun i t _ ht =>
    ht.trans (bitOp_makes base .out (· ||| bit i) t)

/-- A completion is neither an access nor a wait (R24). -/
theorem Makes.complete {a w : Nat} {s t : State} (h : Makes a w s t) (v : Option Operand) : Makes a w s (complete v t) :=
  h.trans (a' := 0) (w' := 0) ⟨[.ret v], rfl, rfl, rfl⟩

theorem countWrites_debounceTrace (base : Nat) (s : State) (k : Nat) : countWrites (debounceTrace base s k) = 0 := by
  induction k with
  | zero => rfl
  | succ k ih =>
    rw [debounceTrace_succ, countWrites_append, ih]
    rfl

/-- A debounced read that ends after iteration `k` makes `k + 1` accesses and `k` waits (R103). -/
theorem afterIterations_makes (base : Nat) (desc : Descriptor) (s : State) (k : Nat) :
    Makes (k + 1) k s (afterIterations base desc k s) := by
  refine ⟨_, afterIterations_history base desc s k, ?_, ?_⟩
  · rw [countReads, countWrites, List.countP_reverse, List.countP_reverse]
    exact (congrArg₂ (· + ·) (countReads_debounceTrace base s k) (countWrites_debounceTrace base s k)).trans (Nat.add_zero _)
  · rw [countWaits, List.countP_reverse]
    exact countWaits_debounceTrace base s k

section Rows

variable (base : Nat) (desc : Descriptor) {s : State} {a w i k : Nat}

/-- One row of the scan, whose debounced read ends after iteration `k` (R125). -/
theorem Makes.scanRowRead (h : Makes a w s (scanRowStart base desc s i))
    (hk : (scanRowRead base desc s i).2 = afterIterations base desc k (scanRowState base desc s i)) :
    Makes (a + (k + 3)) (w + k) s (scanRowRead base desc s i).2 := by
  have hassert := h.trans (scanAssertRow_makes base i _)
  rw [← scanRowState_eq] at hassert
  rw [hk, show a + (k + 3) = a + 2 + (k + 1) by omega]
  exact hassert.trans (afterIterations_makes base desc _ k)

/-- The next row is come to after a row reset more (R125). -/
theorem Makes.scanRowStart_succ (h : Makes a w s (Machine.scanRowRead base desc s i).2) :
    Makes (a + 2 * rowsOf desc) w s (scanRowStart base desc s (i + 1)) :=
  h.trans (scanResetRows_makes base (rowsOf desc) _)

/-- The debounced read of a row ends after its third iteration at the earliest, and after its tenth at the latest (R103). -/
theorem scanRowRead_makes (h : Makes a w s (scanRowStart base desc s i)) :
    ∃ k, 3 ≤ k ∧ k ≤ 10 ∧ Makes (a + (k + 3)) (w + k) s (Machine.scanRowRead base desc s i).2 := by
  obtain ⟨k, hends, hread⟩ := debounced_endsAt base desc (scanRowState base desc s i)
  exact ⟨k, hends.ge, hends.le, h.scanRowRead base desc (congrArg Prod.snd hread)⟩

/-- The accesses and waits made when the scan comes to row `i`, or to its end (R125). -/
theorem scanRowStart_makes (s : State) (i : Nat) : ∃ a w, Makes a w s (scanRowStart base desc s i) ∧
    2 * rowsOf desc + i * (6 + 2 * rowsOf desc) ≤ a ∧ a ≤ 2 * rowsOf desc + i * (13 + 2 * rowsOf desc) ∧ 3 * i ≤ w ∧ w ≤ 10 * i := by
  induction i with
  | zero => exact ⟨_, _, scanResetRows_makes base (rowsOf desc) s, by omega, by omega, by omega, by omega⟩
  | succ i ih =>
    obtain ⟨a, w, hstart, hbounds⟩ := ih
    obtain ⟨k, hge, hle, hread⟩ := scanRowRead_makes base desc hstart
    refine ⟨_, _, hread.scanRowStart_succ base desc, ?_⟩
    rw [Nat.succ_mul i, Nat.succ_mul i]
    omega

variable {base desc} in
/-- The bounds of R125: the least is a key confirmed at once in the first row, the most an unsettled read in every row. -/
theorem ScanEnds.makes {r : Operand × State} (hends : ScanEnds base desc s r) (hdesc : wfDescriptor desc = true) :
    ∃ a w, Makes a w s r.2 ∧ 2 * rowsOf desc + 6 ≤ a ∧ a ≤ 2 * rowsOf desc + rowsOf desc * (13 + 2 * rowsOf desc) ∧
      3 ≤ w ∧ w ≤ 10 * rowsOf desc := by
  obtain ⟨hrows, -⟩ := wfDescriptor_bounds hdesc
  cases hends with
  | key i hi =>
    obtain ⟨a, w, hstart, hbounds⟩ := scanRowStart_makes base desc s i
    obtain ⟨k, hge, hle, hread⟩ := scanRowRead_makes base desc hstart
    have hmul : (i + 1) * (13 + 2 * rowsOf desc) ≤ rowsOf desc * (13 + 2 * rowsOf desc) := Nat.mul_le_mul_right _ hi
    rw [Nat.succ_mul i] at hmul
    exact ⟨_, _, hread, by omega⟩
  | none =>
    obtain ⟨a, w, hstart, hbounds⟩ := scanRowStart_makes base desc s (rowsOf desc)
    have hmul : 1 * (6 + 2 * rowsOf desc) ≤ rowsOf desc * (6 + 2 * rowsOf desc) := Nat.mul_le_mul_right _ (by omega)
    exact ⟨a, w, hstart, by omega⟩

end Rows

/-- Settles O43: the completion adds neither an access nor a wait to those of the rows. -/
theorem scanEventCounts : Obligations.ScanEventCounts := by
  intro s base desc h hdesc hw rows
  obtain ⟨r, hends, hexec⟩ := exec_scan h hdesc hw
  obtain ⟨a, w, hmakes, hbounds⟩ := hends.makes hdesc
  obtain ⟨es, hes, rfl, rfl⟩ := hmakes.complete (some r.1)
  obtain ⟨hleast, hmost, hwaits⟩ := hbounds
  exact ⟨_, es, hexec, hes, hleast, hmost, hwaits⟩

end Sys2Proof.Machine
end

section
/-! PROOF. Debounced reads of levels that do not change, and SCAN of an idle keyboard (R107, R127). -/

namespace Sys2Proof.Machine

/-! ### The environment between two reads of IN -/

section Environment

variable (base : Nat) (desc : Descriptor) (s : State)

/-- Four equal samples end the debounced read with their value, after its third iteration (R107). -/
theorem debounced_steady {c : BitVec 3} (h : ∀ j, j < 4 → nthRead base desc s j = c) :
    debounced base desc s = (c, afterIterations base desc 3 s) := by
  obtain ⟨k, hends, hval⟩ := debounced_endsAt base desc s
  have hrun : runOfFour (nthRead base desc s) 3 = true := by
    rw [runOfFour_iff]
    simp [h]
  obtain rfl := hends.eq_of_earliest (by omega) hrun fun j hj => runOfFour_of_lt _ hj
  rw [hval, endValue, if_pos hrun, h 3 (by omega)]

theorem afterIterations_env (k : Nat) : (afterIterations base desc k s).env = (afterReads base (k + 1) s).env :=
  congrArg (·.env) (afterIterations_pins base desc s k)

theorem scanResetRows_env (rows : Nat) : (scanResetRows base rows s).env = s.env :=
  forEach_induct (P := fun _ t => t.env = s.env) rows rfl fun _ _ _ ht => ht

theorem scanRowState_env (i : Nat) : (scanRowState base desc s i).env = (scanRowStart base desc s i).env := by
  rw [scanRowState_eq]
  rfl

theorem scanRowStart_succ_env (i : Nat) : (scanRowStart base desc s (i + 1)).env = (scanRowRead base desc s i).2.env :=
  scanResetRows_env base _ _

/-- Reads of IN write no port register (R31). -/
theorem afterReads_mem (k : Nat) : (afterReads base k s).mem = s.mem := by
  induction k with
  | zero => rfl
  | succ k ih => rw [afterReads_succ, portReadIn_mem, ih]

end Environment

/-- Where the column pins are inputs the encoder sees their levels (R15, R100). -/
theorem colEnc_inView {desc : Descriptor} (hdesc : wfDescriptor desc = true) {dir : Byte}
    (hdir : dir &&& colMask (rowsOf desc) (colsOf desc) = 0#8) (out levels : Byte) :
    colEnc (inView dir out levels) desc = colEnc levels desc := by
  have hshape := (legalShape_iff _ _).1 ((wfDescriptor_iff desc).1 hdesc).2
  refine colEnc_congr fun j hj => ?_
  have hbit := congrArg (·.getLsbD (rowsOf desc + j)) hdir
  have hinput : dir.getLsbD (rowsOf desc + j) = false := by
    simpa [getLsbD_colMask (rows := rowsOf desc) (cols := colsOf desc) (n := rowsOf desc + j) (by omega) (by omega), hj] using hbit
  rw [getLsbD_inView _ _ _ (by omega), hinput]
  rfl

/-! ### Levels handed in as a script -/

section Script

variable {base : Nat} {s : State} {levels : List Byte} {k : Nat}

theorem portReadIn_script {l : Byte} (henv : s.env = .script (l :: levels)) :
    (portReadIn base s).1 = inView (s.dir base) (s.out base) l ∧ (portReadIn base s).2.env = .script levels := by
  simp [portReadIn, henv, Env.next]

variable (henv : s.env = .script levels)

include henv

/-- Each read of IN uses up one level (R18). -/
theorem afterReads_script (hk : k ≤ levels.length) : (afterReads base k s).env = .script (levels.drop k) := by
  induction k with
  | zero => exact henv
  | succ k ih =>
    rw [afterReads_succ]
    exact (portReadIn_script ((ih (by omega)).trans (congrArg _ (List.drop_eq_getElem_cons hk)))).2

theorem nthByte_script (hk : k < levels.length) : nthByte base s k = inView (s.dir base) (s.out base) levels[k] := by
  have hlevels : (afterReads base k s).env = .script (levels.drop k) := afterReads_script henv hk.le
  have hread := (portReadIn_script (base := base) (hlevels.trans (congrArg _ (List.drop_eq_getElem_cons hk)))).1
  rwa [State.dir, State.out, afterReads_mem] at hread

end Script

/-! ### The idle keyboard -/

section Idle

variable {base : Nat} {desc : Descriptor} {s : State} {levels : List Byte} (hdesc : wfDescriptor desc = true)
  (hdir : s.dir base &&& colMask (rowsOf desc) (colsOf desc) = 0#8)
  (hidle : ∀ l ∈ levels, l &&& colMask (rowsOf desc) (colsOf desc) = colMask (rowsOf desc) (colsOf desc))

include hdesc hdir hidle

/-- Column pins that are inputs and do not read active give COL_SENTINEL (R101, R127). -/
theorem nthRead_idle (henv : s.env = .script levels) {j : Nat} (hj : j < levels.length) : nthRead base desc s j = 5#3 := by
  have hbyte : nthRead base desc s j = colEnc (inView (s.dir base) (s.out base) levels[j]) desc :=
    congrArg (colEnc · desc) (nthByte_script henv hj)
  rw [hbyte, colEnc_inView hdesc hdir, colEnc_eq_sentinel_iff_mask hdesc]
  exact hidle _ (List.getElem_mem hj)

variable (hwf : Memory.wf s.mem = true) (hlen : 4 * rowsOf desc ≤ levels.length) {i : Nat}

include hwf hlen

/-- In a row come to with four levels used up in each row before it, the four coming samples are COL_SENTINEL (R127). -/
theorem scanRowState_idle (hi : i < rowsOf desc) (henv : (scanRowStart base desc s i).env = .script (levels.drop (4 * i))) {j : Nat}
    (hj : j < 4) : nthRead base desc (scanRowState base desc s i) j = 5#3 := by
  have hport := scanRowState_portHolds base desc hwf hi
  refine nthRead_idle hdesc (hport.dir ▸ hdir) (fun l hl => hidle l (List.mem_of_mem_drop hl)) ((scanRowState_env base desc s i).trans henv) ?_
  rw [List.length_drop]
  omega

/-- Every row before row `i` has used up four levels and made three waits (R125, R127). -/
theorem scanRowStart_idle (henv : s.env = .script levels) (hi : i ≤ rowsOf desc) :
    (scanRowStart base desc s i).env = .script (levels.drop (4 * i)) ∧ ∃ a, Makes a (3 * i) s (scanRowStart base desc s i) := by
  induction i with
  | zero => exact ⟨(scanResetRows_env base s _).trans henv, _, scanResetRows_makes base (rowsOf desc) s⟩
  | succ i ih =>
    obtain ⟨hstart, a, hmakes⟩ := ih (by omega)
    have hread : scanRowRead base desc s i = (5#3, afterIterations base desc 3 (scanRowState base desc s i)) :=
      debounced_steady base desc _ fun j => scanRowState_idle hdesc hdir hidle hwf hlen hi hstart
    constructor
    · have hlevels := afterReads_script (base := base) (k := 4) ((scanRowState_env base desc s i).trans hstart) (by rw [List.length_drop]; omega)
      rw [scanRowStart_succ_env, hread, afterIterations_env, hlevels, List.drop_drop]
      rfl
    · exact ⟨_, (hmakes.scanRowRead base desc (congrArg Prod.snd hread)).scanRowStart_succ base desc⟩

end Idle

/-- Settles O42: no row gives a column, so the scan ends after the last, all levels of its rows used up. -/
theorem scanOfIdleKeyboardReturnsSentinel : Obligations.ScanOfIdleKeyboardReturnsSentinel := by
  intro s base desc levels h hwf hdesc hw henv hlen hidle hdir
  obtain ⟨-, -, -, hcols⟩ := wfDescriptor_bounds hdesc
  have hstart {i : Nat} (hi : i ≤ rowsOf desc) :=
    scanRowStart_idle (s := accept (.scan desc) s) (base := base) hdesc hdir hidle hwf hlen henv hi
  have hsamples {i : Nat} (hi : i < rowsOf desc) {j : Nat} (hj : j < 4) :=
    scanRowState_idle (s := accept (.scan desc) s) hdesc hdir hidle hwf hlen hi (hstart hi.le).1 hj
  have hread {i : Nat} (hi : i < rowsOf desc) := debounced_steady base desc _ fun j => hsamples hi (j := j)
  obtain ⟨r, hends, hexec⟩ := exec_scan h hdesc hw
  cases hends with
  | key i hi hc =>
    rw [scanRowRead, hread hi] at hc
    exact absurd hc (Nat.not_lt.2 hcols)
  | none =>
    obtain ⟨hlevels, a, hmakes⟩ := hstart le_rfl
    obtain ⟨es, hes, -, hwaits⟩ := hmakes.complete (some (keySentinel desc))
    refine ⟨_, es, hexec, hes, toNat_keySentinel hdesc, ?_, hwaits, hlevels, ?_⟩
    · rintro rfl
      rfl
    · intro i hi r d
      have hd : d = (5#3, afterIterations base desc 3 r) := hread hi
      rw [hd]
      exact ⟨fun j => hsamples hi, rfl, Nat.not_lt.2 hcols, afterIterations_history base desc r 3, countReads_debounceTrace base r 3⟩

end Sys2Proof.Machine
end

section
/-! PROOF. SCAN in the reference environment `IdealMatrix(P)` (R18, R124). -/

namespace Sys2Proof.Machine

/-! ### The levels of the reference keyboard -/

/-- The byte of levels holds the level of each pin (R18). -/
theorem getLsbD_idealLevels (desc : Descriptor) (pressed : List (Nat × Nat)) (dir out : Byte) {n : Nat} (hn : n < 8) :
    (idealLevels desc pressed dir out).getLsbD n = idealHigh desc pressed dir out n := by
  have hlevels : idealLevels desc pressed dir out =
      ((List.range 8).filter (idealHigh desc pressed dir out)).foldl (fun v n => v ||| bit n) 0#8 := (List.foldl_filter ..).symm
  rw [hlevels, getLsbD_foldl_setBit _ _ hn]
  simp [hn]

section Row

variable {desc : Descriptor} {pressed : List (Nat × Nat)} {dir out : Byte} {i : Nat}
  (hrows : dir &&& rowMask (rowsOf desc) = rowMask (rowsOf desc))

include hrows

/-- A row pin is an output driven low when all rows are outputs and its bit of OUT is the one cleared. -/
theorem rowDrivenLow_iff {r : Nat} (hr : r < rowsOf desc) :
    (dir.getLsbD r = true ∧ ((out ||| rowMask (rowsOf desc)) &&& ~~~bit i).getLsbD r = false) ↔ r = i := by
  have h8 := rowsOf_lt desc
  have hdir := congrArg (·.getLsbD r) hrows
  simp only [BitVec.getLsbD_and, getLsbD_rowMask h8.le (show r < 8 by omega), hr, decide_true, Bool.and_true] at hdir
  rw [getLsbD_clearBit _ _ (by omega), getLsbD_setRowMask_row h8.le hr]
  simp [hdir]

variable (hkeys : ∀ k ∈ pressed, k.1 < rowsOf desc ∧ k.2 < colsOf desc)

include hkeys

/-- With row `i` asserted a column reads 0 exactly when its key in that row is pressed (R18). -/
theorem idealLevels_column_low_iff {c : Nat} (hdesc : wfDescriptor desc = true) (hc : c < colsOf desc) :
    (idealLevels desc pressed dir ((out ||| rowMask (rowsOf desc)) &&& ~~~bit i)).getLsbD (rowsOf desc + c) = false ↔
      (i, c) ∈ pressed := by
  have hshape := (legalShape_iff _ _).1 ((wfDescriptor_iff desc).1 hdesc).2
  rw [getLsbD_idealLevels _ _ _ _ (by omega), idealHigh, if_pos (by omega), Nat.add_sub_cancel_left, Bool.not_eq_false',
    List.any_eq_true]
  constructor
  · rintro ⟨⟨r, c'⟩, hmem, hlow⟩
    simp only [Bool.and_eq_true, beq_iff_eq, Bool.not_eq_true', and_assoc] at hlow
    obtain ⟨rfl, hdriven⟩ := hlow
    obtain rfl := (rowDrivenLow_iff hrows (hkeys _ hmem).1).1 hdriven
    exact hmem
  · intro hmem
    obtain ⟨hdir, hout⟩ := (rowDrivenLow_iff (out := out) hrows (hkeys _ hmem).1).2 rfl
    exact ⟨_, hmem, by simp only [hdir, hout]; simp⟩

/-- The encoder gives the least column with a key pressed in the asserted row, or no column when there is none (R100). -/
theorem colEnc_idealLevels (hdesc : wfDescriptor desc = true) :
    let v := (colEnc (idealLevels desc pressed dir ((out ||| rowMask (rowsOf desc)) &&& ~~~bit i)) desc).toNat
    (v < colsOf desc → (i, v) ∈ pressed) ∧ ∀ c, (i, c) ∈ pressed → v ≤ c := by
  have hlow {c : Nat} (hc : c < colsOf desc) := idealLevels_column_low_iff (out := out) (i := i) hrows hkeys hdesc hc
  obtain ⟨-, -, -, hcols⟩ := wfDescriptor_bounds hdesc
  rcases colEnc_cases (idealLevels desc pressed dir ((out ||| rowMask (rowsOf desc)) &&& ~~~bit i)) desc with
    ⟨j, hj, henc, hbit, hbefore⟩ | ⟨henc, hhigh⟩
  · rw [henc]
    refine ⟨fun _ => (hlow hj).1 hbit, fun c hc => Nat.not_lt.1 fun hlt => ?_⟩
    simpa [hbefore c hlt] using (hlow (hlt.trans hj)).2 hc
  · rw [henc]
    refine ⟨fun h5 => absurd h5 (Nat.not_lt.2 hcols), fun c hc => ?_⟩
    have hlt := (hkeys _ hc).2
    simpa [hhigh c hlt] using (hlow hlt).2 hc

end Row

/-! ### The samples of the reference keyboard -/

section Samples

variable {base : Nat} {desc : Descriptor} {s : State} {pressed : List (Nat × Nat)} (henv : s.env = .idealMatrix desc pressed)

include henv

/-- A read of IN leaves the reference keyboard, and with it the pins, as they were (R18). -/
theorem portReadIn_ideal : (portReadIn base s).1 =
      inView (s.dir base) (s.out base) (idealLevels desc pressed (s.dir base) (s.out base)) ∧ (portReadIn base s).2.pins = s.pins := by
  simp [portReadIn, henv, Env.next, State.pins]

theorem afterReads_ideal (k : Nat) : (afterReads base k s).pins = s.pins := by
  induction k with
  | zero => rfl
  | succ k ih =>
    rw [afterReads_succ]
    exact (portReadIn_pins_congr ih base).trans (portReadIn_ideal henv).2

/-- With DIR and OUT unchanged all samples are equal, and the debounced read gives their value (R18, R107). -/
theorem debounced_ideal (hdesc : wfDescriptor desc = true) (hdir : s.dir base &&& colMask (rowsOf desc) (colsOf desc) = 0#8) :
    (debounced base desc s).1 = colEnc (idealLevels desc pressed (s.dir base) (s.out base)) desc ∧
      (debounced base desc s).2.env = .idealMatrix desc pressed := by
  have hsample (j : Nat) : nthRead base desc s j = colEnc (idealLevels desc pressed (s.dir base) (s.out base)) desc := by
    rw [← colEnc_inView hdesc hdir, ← (portReadIn_ideal henv).1]
    exact congrArg (colEnc · desc) (portReadIn_byte_congr (afterReads_ideal henv j) base)
  rw [debounced_steady base desc s fun j _ => hsample j]
  refine ⟨rfl, ?_⟩
  rw [afterIterations_env]
  exact (congrArg (·.env) (afterReads_ideal henv 4)).trans henv

end Samples

/-! ### The rows of a scan -/

section Rows

variable {base : Nat} {desc : Descriptor} {s : State} {pressed : List (Nat × Nat)} (hwf : Memory.wf s.mem = true)
  (hdesc : wfDescriptor desc = true) (hcols : s.dir base &&& colMask (rowsOf desc) (colsOf desc) = 0#8)
  (henv : s.env = .idealMatrix desc pressed) {i : Nat}

include hwf hdesc hcols henv

/-- The reference keyboard is still there when the scan comes to a row. -/
theorem scanRowStart_ideal (hi : i ≤ rowsOf desc) : (scanRowStart base desc s i).env = .idealMatrix desc pressed := by
  induction i with
  | zero => exact (scanResetRows_env base s _).trans henv
  | succ i ih =>
    have hport := scanRowState_portHolds base desc hwf hi
    rw [scanRowStart_succ_env]
    exact (debounced_ideal ((scanRowState_env base desc s i).trans (ih (by omega))) hdesc (hport.dir ▸ hcols)).2

/-- The value of the debounced read in a row: the least column with a key pressed there, or no column when there is none (R124). -/
theorem scanRowRead_ideal (hi : i < rowsOf desc) (hkeys : ∀ k ∈ pressed, k.1 < rowsOf desc ∧ k.2 < colsOf desc)
    (hrows : s.dir base &&& rowMask (rowsOf desc) = rowMask (rowsOf desc)) :
    ((scanRowRead base desc s i).1.toNat < colsOf desc → (i, (scanRowRead base desc s i).1.toNat) ∈ pressed) ∧
      ∀ c, (i, c) ∈ pressed → (scanRowRead base desc s i).1.toNat ≤ c := by
  have hport := scanRowState_portHolds base desc hwf hi
  have hstart := (scanRowState_env base desc s i).trans (scanRowStart_ideal hwf hdesc hcols henv hi.le)
  rw [scanRowRead, (debounced_ideal hstart hdesc (hport.dir ▸ hcols)).1, hport.dir, hport.out]
  exact colEnc_idealLevels hrows hkeys hdesc

end Rows

/-- Settles O41: the first row that gives a column is the least with a key pressed, and the column the least with one in that row. -/
theorem scanReportsLeastPressedKey : Obligations.ScanReportsLeastPressedKey := by
  intro s base desc pressed h hwf hdesc hw henv hkeys hrows hcols
  have hread {i : Nat} (hi : i < rowsOf desc) :=
    scanRowRead_ideal (s := accept (.scan desc) s) (base := base) hwf hdesc hcols henv hi hkeys hrows
  obtain ⟨r, hends, hexec⟩ := exec_scan h hdesc hw
  refine ⟨_, hexec, ?_⟩
  rw [complete_result, Option.getD_some]
  cases hends with
  | key i hi hc hbefore =>
    have hmem := (hread hi).1 hc
    refine ⟨fun hnone => by simp [hnone] at hmem, fun _ => ⟨_, hmem, toNat_keyIndex hdesc hi hc, fun k hk => ?_⟩⟩
    obtain ⟨hkrow, hkcol⟩ := hkeys k hk
    have hle := (hread hkrow).2 k.2 hk
    rw [toNat_keyIndex hdesc hi hc]
    rcases Nat.lt_trichotomy k.1 i with hlt | heq | hgt
    · exact absurd (hbefore k.1 hlt) (Nat.not_le.2 (hle.trans_lt hkcol))
    · rw [heq] at hle ⊢
      omega
    · exact ((linearIndex_lt hgt hc).trans_le (Nat.le_add_right _ k.2)).le
  | none hall =>
    refine ⟨fun _ => toNat_keySentinel hdesc, fun hsome => ?_⟩
    obtain ⟨k, hk⟩ := List.exists_mem_of_ne_nil _ hsome
    obtain ⟨hkrow, hkcol⟩ := hkeys k hk
    exact absurd (hall k.1 hkrow) (Nat.not_le.2 (((hread hkrow).2 k.2 hk).trans_lt hkcol))

end Sys2Proof.Machine
end

section
/-! PROOF. What the block does with no exception to raise (R130 to R139, R150, R151): the reset, a step in progress, and the whole commands that
complete or hang. -/

namespace Sys2Proof.Machine

/-- Settles O15: such a step is the block's reset. -/
theorem rstOverridesEverything : Obligations.RstOverridesEverything :=
  fun s hr => ⟨blockReset s, step_rst hr, rfl, rfl⟩

/-- Settles O11: a step of the operation the invariant finds in progress is the wait for the delay collaborator or one event. -/
theorem runningOperationNeverStops : Obligations.RunningOperationNeverStops := by
  intro s hinv hr hb
  obtain ⟨i, hi⟩ := inProgress_of_inv hinv hb
  obtain ⟨t, ht⟩ : ∃ t, step s = .next t := by
    rw [step_busy hr hb, eventStep_inProgress hi]
    split <;> exact ⟨_, rfl⟩
  rw [safeStep, ht]

/-- An operation that waits faults as a whole command when no wait ends (R139). -/
theorem ifWaitsEnd_never {s after : State} (h : s.waitDone = false) : ifWaitsEnd s after = .fault .waitNeverEnds := by
  rw [ifWaitsEnd, h]
  rfl

/-- Settles O47: both operations are accepted, and their bodies wait. -/
theorem operationsHangIfWaitsNeverEnd : Obligations.OperationsHangIfWaitsNeverEnd := by
  intro s base desc hdesc hw
  refine ⟨fun h => ?_, fun h => ?_⟩
  · rw [exec_offered (i := .readColumnsDebounced desc) h rfl hdesc]
    exact ifWaitsEnd_never hw
  · rw [exec_offered (i := .scan desc) h rfl hdesc]
    exact ifWaitsEnd_never hw

/-- The operands of a command have a meaning if they are well formed, or whatever they are for ENCODE (R70, R161). -/
theorem operandRefusal_meaningful {i : Instr} (h : i.wellFormed = true ∨ i.op = 0#4) : operandRefusal i = none := by
  rcases h with hw | hop
  · exact operandRefusal_wellFormed hw
  · cases i with
    | encode rows cols => exact operandRefusal_encode rows cols
    | _ => simp [Instr.op] at hop

/-- Settles O45: inside its domain a command completes or hangs, and with waits that end it does not hang. -/
theorem everyCommandInDomainCompletes : Obligations.EveryCommandInDomainCompletes := by
  intro i s base hb hw hi hoff
  have hdom := domainRefusal_offered (operandRefusal_meaningful hi) hoff
  obtain ⟨t, ht⟩ := (exec_completes_or_hangs hb hdom).resolve_right fun ⟨_, hnever, _⟩ => by simp [hw] at hnever
  obtain ⟨u, v, draw, ⟨es, hu⟩, -, rfl⟩ := exec_ends hb ht
  refine ⟨_, ht, rfl, rfl, rfl, ?_, ?_, v, es, ?_⟩
  · rw [hu]; rfl
  · rw [hu]; rfl
  · rw [hu]; rfl

end Sys2Proof.Machine
end

section
/-! PROOF. An operation in progress completes: the events it has left are fewer after each of them, and at most 176 (R130, R139). -/

namespace Sys2Proof.Machine

/-- The events a loop of bit operations over `[0, n)` has left (R7, R33, R34). -/
def Half.eventsLeft (n : Nat) : Half → Nat
  | .rd k => 2 * (n - k)
  | .wr k _ => 2 * (n - k) - 1

/-- A bound on the events left once the debounced read has its value: SCAN's reset of the rows, the scan's later rows, each of at most 33 events (two
to assert it, 21 of the debounced read, ten to reset at most five rows), and the return (R103, R120). READ_COLUMNS_DEBOUNCED has its return only. -/
def eventsAfterDebounce (rows row : Nat) : Nat := 2 * rows + 33 * (rows - (row + 1)) + 1

/-- A bound on the events the operation has left at position `p`, its return among them, with the working registers of `s`. -/
def eventsLeft (i : Instr) (s : State) : Phase → Nat
  | .idle => 0
  | .codec => 1
  | .cfgDirRow h => h.eventsLeft (shapeRows i) + 4 * shapeCols i + 1
  | .cfgDirCol h => h.eventsLeft (shapeCols i) + 2 * shapeCols i + 1
  | .cfgOutCol h => h.eventsLeft (shapeCols i) + 1
  | .resetRow h => h.eventsLeft (shapeRows i) + 1
  | .assertRow h => h.eventsLeft (h.index + 1) + 1
  | .readColumns => 2
  | .dbFirst => 21 + eventsAfterDebounce (shapeRows i) s.row.toNat
  | .dbWait => 2 * (10 - s.iter.toNat) + eventsAfterDebounce (shapeRows i) s.row.toNat
  | .dbSample => 2 * (10 - s.iter.toNat) + 1 + eventsAfterDebounce (shapeRows i) s.row.toNat
  | .scReset0 h => h.eventsLeft (shapeRows i) + 33 * shapeRows i + 1
  | .scAssert h => h.eventsLeft (h.index + 1) + 21 + eventsAfterDebounce (shapeRows i) h.index
  | .scReset h => h.eventsLeft (shapeRows i) + 33 * (shapeRows i - (s.row.toNat + 1)) + 1
  | .ret _ => 1

/-- The position after a pass of a loop has fewer events left than a number that the next pass and what follows the loop stay below. -/
theorem eventsLeft_loopNext {i : Instr} {s : State} {n k b : Nat} {at_ : Half → Phase} {after : Phase}
    (hat : k + 1 < n → eventsLeft i s (at_ (.rd (k + 1))) < b) (hafter : eventsLeft i s after < b) :
    eventsLeft i s (loopNext n k at_ after) < b := by
  unfold loopNext
  split
  · exact hat ‹_›
  · exact hafter

/-- Where the debounced read goes with its value: the return, or in SCAN the reset of the rows (R104, R121). -/
theorem eventsLeft_debounceExit (i : Instr) (s : State) (c : BitVec 3) :
    eventsLeft i s (debounceExit i s.row c) ≤ eventsAfterDebounce (shapeRows i) s.row.toNat := by
  cases i with
  | scan desc =>
    unfold debounceExit
    dsimp only
    split <;> simp only [eventsLeft, eventsAfterDebounce, Half.eventsLeft] <;> omega
  | _ => exact Nat.le_add_left _ _

theorem eventsLeft_afterSample (i : Instr) (s : State) :
    eventsLeft i s (afterSample i s) < eventsLeft i s .dbSample := by
  have hexit (c : BitVec 3) : eventsLeft i s (debounceExit i s.row c) < eventsLeft i s .dbSample :=
    (eventsLeft_debounceExit i s c).trans_lt (by simp only [eventsLeft]; omega)
  unfold afterSample
  split
  · exact hexit _
  split
  · exact hexit _
  · simp only [eventsLeft]
    omega

/-- The next row of a scan has fewer events left than the rows after this one. -/
theorem eventsLeft_scanNext {i : Instr} (s : State) (hrows : shapeRows i ≤ 5) :
    eventsLeft i s (scanNext i s.row) ≤ 33 * (shapeRows i - (s.row.toNat + 1)) + 1 := by
  unfold scanNext
  split <;> simp only [eventsLeft, eventsAfterDebounce, Half.eventsLeft, Half.index_rd] <;> omega

theorem toNat_debounceWait_iter {s : State} (h : s.iter.toNat < 10) : (debounceWait s).iter.toNat = s.iter.toNat + 1 := by
  have hiter : (debounceWait s).iter.toNat = (s.iter.toNat + 1) % 16 := BitVec.toNat_add _ _
  omega

@[simp] theorem bitRead_row (base : Nat) (k : StoredReg) (at_ : Half → Phase) (n : Nat) (s : State) :
    (bitRead base k at_ n s).row = s.row := rfl
@[simp] theorem debounceWait_row (s : State) : (debounceWait s).row = s.row := rfl

/-- Every event short of the completion leaves fewer events. -/
theorem eventsLeft_event {i : Instr} {s : State} (h : InProgress i s) (hret : s.phase.atReturn = false) :
    eventsLeft i (event i s) (event i s).phase < eventsLeft i s s.phase := by
  have hs := h.sound
  have hrows (hop : i.op = 8#4) : shapeRows i ≤ 5 := (shape_bounds h.domain (by simp [hop])).2.1
  cases hp : s.phase with
  | idle => exact absurd hp h.not_idle
  | codec | ret v => simp [hp, Phase.atReturn] at hret
  | cfgDirRow half | cfgDirCol half | cfgOutCol half | resetRow half =>
    simp only [hp, soundAt_cfgDirRow, soundAt_cfgDirCol, soundAt_cfgOutCol, soundAt_resetRow] at hs
    obtain ⟨-, hn⟩ := hs
    cases half <;> simp only [event, hp, bitRead_phase, bitWrite_phase]
    · simp only [eventsLeft, Half.eventsLeft, Half.index_rd] at hn ⊢
      omega
    · refine eventsLeft_loopNext (fun _ => ?_) ?_ <;> simp only [eventsLeft, Half.eventsLeft, Half.index_wr] at hn ⊢ <;> omega
  | scReset0 half =>
    obtain ⟨hop, hn⟩ := (soundAt_scReset0 i s half).1 (hp ▸ hs)
    have hle := hrows hop
    cases half <;> simp only [event, hp, bitRead_phase, bitWrite_phase]
    · simp only [eventsLeft, Half.eventsLeft, Half.index_rd] at hn ⊢
      omega
    · refine eventsLeft_loopNext (fun _ => ?_) ?_ <;>
        simp only [eventsLeft, eventsAfterDebounce, Half.eventsLeft, Half.index_wr, Half.index_rd] at hn ⊢ <;> omega
  | scReset half =>
    obtain ⟨⟨hop, hn⟩, -⟩ := (soundAt_scReset i s half).1 (hp ▸ hs)
    cases half <;> simp only [event, hp, bitRead_phase, bitWrite_phase]
    · simp only [eventsLeft, Half.eventsLeft, Half.index_rd, bitRead_row] at hn ⊢
      omega
    · refine eventsLeft_loopNext (fun _ => ?_) ((eventsLeft_scanNext _ (hrows hop)).trans_lt ?_) <;>
        simp only [eventsLeft, Half.eventsLeft, Half.index_wr, bitWrite_row] at hn ⊢ <;> omega
  | assertRow half =>
    cases half <;> simp only [event, hp, bitRead_phase, bitWrite_phase, eventsLeft, Half.eventsLeft, Half.index] <;> omega
  | scAssert half =>
    cases half with
    | rd n =>
      simp only [event, hp, bitRead_phase, eventsLeft, Half.eventsLeft, Half.index]
      omega
    | wr n t =>
      obtain ⟨-, hrow⟩ := (soundAt_scAssert_wr i s n t).1 (hp ▸ hs)
      simp only [event, hp, bitWrite_phase, bitWrite_row, eventsLeft, Half.eventsLeft, Half.index, hrow]
      omega
  | readColumns =>
    simp only [event, hp, State.setPhase_phase, eventsLeft]
    omega
  | dbFirst =>
    simp only [event, hp, State.setPhase_phase]
    -- ITER is 0 after the first sample: ten iterations of two events each are left.
    exact Nat.add_lt_add_right (by decide : 20 < 21) _
  | dbWait =>
    obtain ⟨-, -, -, hi⟩ := (soundAt_dbWait i s).1 (hp ▸ hs)
    simp only [event, hp, State.setPhase_phase, eventsLeft, State.setPhase_iter, State.setPhase_row, toNat_debounceWait_iter hi,
      debounceWait_row]
    omega
  | dbSample =>
    simp only [event, hp, State.setPhase_phase]
    exact eventsLeft_afterSample _ _

theorem eventsLeft_atReturn (i : Instr) (s : State) {p : Phase} (h : p.atReturn = true) : eventsLeft i s p = 1 := by
  cases p with
  | codec | ret v => rfl
  | _ => cases h

/-- The codec operations and ASSERT_ROW_LOW, which have no shape to loop over, stand at their return or in the one bit operation (R70 to R72, R91). -/
theorem SoundAt.atReturn_or_assertRow {i : Instr} {s : State} {p : Phase} (h : SoundAt i s p) (hop : i.op ∈ [0#4, 1#4, 2#4, 5#4]) :
    p.atReturn = true ∨ ∃ half, p = .assertRow half := by
  by_cases hk : addressed i = none
  · exact .inl (h.atReturn_of_unaddressed hk)
  · have hassert : i.op = 5#4 := by cases i <;> simp_all [Instr.op, addressed]
    cases p with
    | codec | ret v => exact .inl rfl
    | assertRow half => exact .inr ⟨half, rfl⟩
    | scAssert half => cases half <;> simp [hassert] at h
    | _ => simp [hassert, Debounces] at h

/-- A scan of five rows, from its first event, has the most events left: 176 by this count. -/
theorem InProgress.eventsLeft_le {i : Instr} {s : State} (h : InProgress i s) : eventsLeft i s s.phase ≤ 176 := by
  by_cases hop : i.op ∈ [0#4, 1#4, 2#4, 5#4]
  · rcases h.sound.atReturn_or_assertRow hop with hret | ⟨half, hp⟩
    · rw [eventsLeft_atReturn i s hret]
      decide
    · rw [hp]
      cases half <;> simp only [eventsLeft, Half.eventsLeft, Half.index] <;> omega
  · obtain ⟨-, hrows, -, hcols⟩ := shape_bounds h.domain hop
    cases s.phase with
    | idle | codec | readColumns | ret v => simp only [eventsLeft]; omega
    | dbFirst | dbWait | dbSample => simp only [eventsLeft, eventsAfterDebounce]; omega
    | cfgDirRow half | cfgDirCol half | cfgOutCol half | resetRow half | assertRow half | scReset0 half | scAssert half | scReset half =>
      cases half <;> simp only [eventsLeft, eventsAfterDebounce, Half.eventsLeft, Half.index] <;> omega

/-- An operation in progress completes within the events it has left, if waits end (R130, R139). -/
theorem InProgress.completes {i : Instr} {s : State} (h : InProgress i s) (hr : s.rst = false) (hw : s.waitDone = true) :
    ∃ n t, n ≤ eventsLeft i s s.phase ∧ Host.Core.run Sys2Proof.core n s = .next t ∧
      t.busy = false ∧ t.done = true ∧ t.phase = .idle := by
  have hstep : step s = .next (event i s) := step_event hr h fun _ => hw
  cases hret : s.phase.atReturn with
  | true =>
    obtain ⟨v, draw, he, -⟩ := event_return h.sound.1 hret
    refine ⟨1, event i s, (eventsLeft_atReturn i s hret).ge, run_succ hstep, ?_⟩
    rw [he]
    exact ⟨rfl, rfl, rfl⟩
  | false =>
    have hfewer := eventsLeft_event h hret
    have hkept := event_inputsKept h.sound.1
    obtain ⟨n, t, hn, hrun, hend⟩ := (event_inProgress h hret).completes (hkept.rst.trans hr) (hkept.waitDone.trans hw)
    exact ⟨n + 1, t, by omega, (run_succ hstep).trans hrun, hend⟩
termination_by eventsLeft i s s.phase

/-- Settles O12: an operation in progress has at most 176 events left. -/
theorem everyOperationCompletes : Obligations.EveryOperationCompletes := by
  intro s hinv hr hb hw
  obtain ⟨i, hi⟩ := inProgress_of_inv hinv hb
  obtain ⟨n, t, hn, hend⟩ := hi.completes hr hw
  exact ⟨n, t, (hn.trans hi.eventsLeft_le).trans (by decide), hend⟩

end Sys2Proof.Machine
end
